-- ==== Sys2Proof/Word.lean ====
section
/-! DEFINITION. The word types of the Gen7 STK500v2 engine: wire bytes, 16-bit words, addresses.
All values are unsigned (spec 00_scope R13). -/

namespace Sys2Proof

/-- A byte on the wire, in the payload buffer, in flash, EEPROM, signature or fuses (00_scope R7, 20_memory R50). -/
abbrev Byte := BitVec 8

/-- A 16-bit quantity: LEN, IDX, RLEN, a size operand, a flash word (10_state R34, R37, R39; 20_memory R53). -/
abbrev Half := BitVec 16

/-- A byte address behind the memory port. The register ADDR is P_ADDR_WIDTH = 16 or 32 bits wide
(10_state R35); both widths are held in 32 bits, zero-extended (log entry 19). -/
abbrev Addr := BitVec 32

end Sys2Proof
end

