-- ==== Sys2Proof/Config.lean ====
section
/-! DEFINITION. The instance parameters of spec 00_scope R9 and 70_reset R273, as one record (R8), the
configuration of the test column, and the free values of a memory subsystem the spec says nothing about.
How a machine carries the record: log entry 1. -/

namespace Sys2Proof

/-- `P_ADDR_WIDTH`: the two legal widths of ADDR (R9, D1). -/
inductive AddrWidth where
  | w16
  | w32
  deriving DecidableEq, Repr

/-- The width W in bits. -/
def AddrWidth.bits : AddrWidth → Nat
  | .w16 => 16
  | .w32 => 32

/-- `P_MALFORMED_POLICY`: what a command with malformed operands does (R9, 41_dispatch R141, D7). -/
inductive MalformedPolicy where
  | replyFailed
  | fault
  deriving DecidableEq, Repr

/-- Which memory subsystem answers the port. The model's own parameter (log entry 3): 20_memory R60 allows
the reference port of R73 to R78, or a subsystem whose answers are free draws. -/
inductive PortKind where
  /-- the reference port of 20_memory R73 to R78 -/
  | reference
  /-- a subsystem whose answers are free values; it answers every request (R60, D29, U4) -/
  | draws
  deriving DecidableEq, Repr

/-- The parameters of one instance, fixed before reset (00_scope R8, R9). Where R9 gives a value of the
spec's own, that value is the field's default; an OPEN parameter has none. -/
structure Config where
  /-- `P_ADDR_WIDTH` (OPEN, D1) -/
  addrWidth : AddrWidth
  /-- `P_CAP`: payload buffer capacity (D2) -/
  cap : Nat := 285
  /-- `P_PAGE_SIZE`: flash page size in bytes (OPEN, D3) -/
  pageSize : Nat
  /-- `P_BOOT_BOUNDARY`: flash at or above it is never erased or written (OPEN, D3) -/
  bootBoundary : Nat
  /-- `P_FLASH_SIZE` (OPEN, D3) -/
  flashSize : Nat
  /-- `P_EEPROM_SIZE` (OPEN, D3) -/
  eepromSize : Nat
  /-- `P_LEAVE_ENABLED` (OPEN, D4) -/
  leaveEnabled : Bool
  /-- `P_LOCK_PROG_ENABLED` (OPEN, D4) -/
  lockProgEnabled : Bool
  /-- `P_TIMEOUT_ENABLED` (OPEN, D4) -/
  timeoutEnabled : Bool
  /-- `P_SEQ_RESET` (D5) -/
  seqReset : Byte := 0x01
  /-- `P_PARAM_TABLE`: a partial map from id to value, the first entry of an id counting (OPEN, D6) -/
  paramTable : List (Byte × Byte)
  /-- `P_PARAM_DEFAULT` (D6) -/
  paramDefault : Byte := 0x00
  /-- `P_MALFORMED_POLICY` (D7) -/
  malformedPolicy : MalformedPolicy := .replyFailed
  /-- `P_SPI_DUMMY` (D8) -/
  spiDummy : Byte := 0x00
  /-- `P_LOCK_MASK` (D9) -/
  lockMask : Byte := 0x3C
  /-- `P_ERASED_BYTE`, reference port only (D10) -/
  erasedByte : Byte := 0xFF
  /-- `P_APP_ENTRY`: where control goes after exit (OPEN, D34); no rule of the block reads it (70_reset R273) -/
  appEntry : Addr
  /-- which memory subsystem answers the port (the model's own, log entry 3) -/
  portKind : PortKind
  deriving DecidableEq, Repr

/-- The `test` column of 00_scope R9, with the reference port (95_test_vectors section 0). `appEntry` is the
conventional 0x0000 of 70_reset R273 (log entry 2). DESIGN CHOICE that the reset state uses it: log entry 1. -/
def Config.test : Config where
  addrWidth := .w16
  pageSize := 256
  bootBoundary := 0xF000
  flashSize := 0x10000
  eepromSize := 2048
  leaveEnabled := true
  lockProgEnabled := true
  timeoutEnabled := true
  paramTable := [(0x80, 0x00), (0x81, 0x00), (0x90, 0x0F), (0x91, 0x02), (0x92, 0x0A)]
  appEntry := 0x0000
  portKind := .reference

/-- A free byte: the answer to the n-th port read under `PortKind.draws`, under no law but its width
(20_memory R60, U4; log entry 3). No body: nothing can evaluate it. -/
opaque Config.drawByte : Nat → Byte

/-- A free word: the answer to the n-th port read of a flash word under `PortKind.draws` (20_memory R60, U4;
log entry 3). -/
opaque Config.drawWord : Nat → Half

/-- The signature of a device under `PortKind.draws`: free bytes, but the same for the whole session
(20_memory R57; log entry 3). -/
opaque Config.deviceSignature : Fin 3 → Byte

end Sys2Proof
end

