-- ==== Sys2Proof/Syntax.lean ====
section
/-! DEFINITION. The instructions: one constructor per row of spec/opcode_table.json (30_encoding R96).
An instruction is a validated payload BUF[0..LEN-1]; its operands are the bytes the block reads (30_encoding R86,
R87). An operand that the payload is too short to hold (LEN < MINLEN) is `none`; the bytes a command ignores are no
part of it (log entry 16). -/

namespace Sys2Proof

/-- A decoded command (30_encoding R87, R96, R97). -/
inductive Instr where
  /-- 0x01, no operand read (41_dispatch R143) -/
  | signOn
  /-- 0x02, id and value ignored (41_dispatch R144) -/
  | setParameter
  /-- 0x03, id = BUF[1]; `none`: LEN < 2 (41_dispatch R145) -/
  | getParameter (id : Option Byte)
  /-- 0x06, BUF[1..4] as one big-endian number; `none`: LEN < 5 (30_encoding R89, 42_memory R170) -/
  | loadAddress (word : Option (BitVec 32))
  /-- 0x10, operands ignored (41_dispatch R146) -/
  | enterProgmodeIsp
  /-- 0x11, operands ignored (41_dispatch R147) -/
  | leaveProgmodeIsp
  /-- 0x12, operands ignored (41_dispatch R148) -/
  | chipEraseIsp
  /-- 0x13, size = BUF[1..2] big-endian (`none`: LEN < 3); data = the bytes of BUF[10 .. 9 + size] that lie
  below LEN (30_encoding R88, 42_memory R171) -/
  | programFlashIsp (size : Option Half) (data : List Byte)
  /-- 0x14, size = BUF[1..2]; `none`: LEN < 3 (42_memory R173) -/
  | readFlashIsp (size : Option Half)
  /-- 0x15, as 0x13 (42_memory R172) -/
  | programEepromIsp (size : Option Half) (data : List Byte)
  /-- 0x16, as 0x14 (42_memory R174) -/
  | readEepromIsp (size : Option Half)
  /-- 0x18, cmd1 = BUF[2] and cmd2 = BUF[3]; `none`: LEN < 4 (30_encoding R93, 43_device R201) -/
  | readFuseIsp (cmds : Option (Byte × Byte))
  /-- 0x19, lock byte = BUF[4]; `none`: LEN < 5; only with P_LOCK_PROG_ENABLED (43_device R203) -/
  | programLockIsp (lockByte : Option Byte)
  /-- 0x1A, operands ignored (43_device R202) -/
  | readLockIsp
  /-- 0x1B, index = BUF[4]; `none`: LEN < 5 (43_device R200) -/
  | readSignatureIsp (index : Option Byte)
  /-- 0x1D, t = BUF[4] (`none`: LEN < 5); when t = 0x30, index = BUF[6] (`none`: LEN < 7) (43_device R204) -/
  | spiMulti (tx0 : Option Byte) (index : Option Byte)
  /-- every other code; also 0x19 without P_LOCK_PROG_ENABLED (30_encoding R97, 41_dispatch R150) -/
  | unknown (code : Byte)
  deriving DecidableEq, Repr

end Sys2Proof
end

