-- ==== Sys2Proof/WellFormed.lean ====
section
/-! DEFINITION. Which instructions are well formed for an instance: those that some accepted payload decodes to
(30_encoding R83, R87, R96, R97). -/

namespace Sys2Proof

/-- The largest payload a frame of the instance can carry: LEN is 16 bits and at most P_CAP (30_encoding R83). -/
def Config.maxLen (c : Config) : Nat := min c.cap 0xFFFF

/-- The command codes of 30_encoding R96's table. -/
def commandCodes : List Byte :=
  [0x01, 0x02, 0x03, 0x06, 0x10, 0x11, 0x12, 0x13, 0x14, 0x15, 0x16, 0x18, 0x19, 0x1A, 0x1B, 0x1D]

/-- A code that selects a command of the instance: one of the table, and 0x19 only with P_LOCK_PROG_ENABLED
(30_encoding R96, R97). -/
def isCommandCode (c : Config) (code : Byte) : Bool :=
  commandCodes.contains code && (code != 0x19 || c.lockProgEnabled)

/-- The operands of a programming command: the data lies behind the ten header bytes, is at most `size` long, and is
there only when the size is (30_encoding R87, R88). -/
def programOperandsWf (c : Config) (size : Option Half) (data : List Byte) : Bool :=
  match size with
  | none => data.isEmpty
  | some n => decide (data.length ≤ n.toNat) && decide (10 + data.length ≤ c.maxLen)

/-- Well-formedness of an instruction for the instance `c`. -/
def Instr.wellFormed (c : Config) : Instr → Bool
  | .signOn => true
  | .setParameter => true
  | .getParameter _ => true
  | .loadAddress _ => true
  | .enterProgmodeIsp => true
  | .leaveProgmodeIsp => true
  | .chipEraseIsp => true
  | .programFlashIsp size data => programOperandsWf c size data
  | .readFlashIsp _ => true
  | .programEepromIsp size data => programOperandsWf c size data
  | .readEepromIsp _ => true
  | .readFuseIsp _ => true
  | .programLockIsp _ => c.lockProgEnabled
  | .readLockIsp => true
  | .readSignatureIsp _ => true
  -- BUF[6] is read only when BUF[4] = 0x30 (30_encoding R87)
  | .spiMulti tx0 index => index.isNone || tx0 == some 0x30
  | .unknown code => !isCommandCode c code

end Sys2Proof
end

