-- ==== Sys2Proof/Decode.lean ====
section
/-! DEFINITION. The decoder (payload bytes to Instr, 30_encoding R87 to R97), the encoder beside it, and the frame
layout with its checksum (30_encoding R80 to R83), used for what the host sends and what the block sends. -/

namespace Sys2Proof

/-! ### Byte order on the wire (20_memory R63) -/

/-- Bits 15..8. -/
def hiByte (w : Half) : Byte := w.extractLsb' 8 8

/-- Bits 7..0. -/
def loByte (w : Half) : Byte := w.extractLsb' 0 8

/-- The 16-bit number with these two bytes, the most significant first. -/
def joinBytes (hi lo : Byte) : Half := hi ++ lo

/-- Byte k of a 32-bit number, k = 0 the least significant. -/
def byteOf (w : BitVec 32) (k : Nat) : Byte := w.extractLsb' (8 * k) 8

/-- The 32-bit number with these four bytes, the most significant first (30_encoding R89). -/
def joinBytes4 (b3 b2 b1 b0 : Byte) : BitVec 32 := b3 ++ b2 ++ b1 ++ b0

/-! ### Frames -/

/-- START (00_scope R11). -/
def START : Byte := 0x1B

/-- TOKEN (00_scope R11). -/
def TOKEN : Byte := 0x0E

/-- The XOR of a sequence of bytes (30_encoding R82). -/
def xorAll : List Byte → Byte
  | [] => 0
  | b :: bs => b ^^^ xorAll bs

/-- The bytes of a frame before its payload (30_encoding R80, offsets 0 to 4). -/
def frameHeader (seq : Byte) (len : Half) : List Byte := [START, seq, hiByte len, loByte len, TOKEN]

/-- A frame with the length field `len`: header, payload, and the XOR of all of them (30_encoding R80, R82). -/
def frameBytes (seq : Byte) (len : Half) (payload : List Byte) : List Byte :=
  frameHeader seq len ++ payload ++ [xorAll (frameHeader seq len ++ payload)]

/-- The frame that carries `payload` (30_encoding R80 to R83). -/
def encodeFrame (seq : Byte) (payload : List Byte) : List Byte :=
  frameBytes seq (BitVec.ofNat 16 payload.length) payload

/-! ### Operands in a payload (30_encoding R87) -/

/-- size = (BUF[1] << 8) | BUF[2]; `none`: LEN < 3 (30_encoding R88). -/
def payloadSize : List Byte → Option Half
  | _ :: hi :: lo :: _ => some (joinBytes hi lo)
  | _ => none

/-- The four address bytes BUF[1..4]; `none`: LEN < 5 (30_encoding R89). -/
def payloadAddress : List Byte → Option (BitVec 32)
  | _ :: b3 :: b2 :: b1 :: b0 :: _ => some (joinBytes4 b3 b2 b1 b0)
  | _ => none

/-- cmd1 and cmd2, BUF[2] and BUF[3]; `none`: LEN < 4 (30_encoding R93). -/
def payloadCmds : List Byte → Option (Byte × Byte)
  | _ :: _ :: cmd1 :: cmd2 :: _ => some (cmd1, cmd2)
  | _ => none

/-- The bytes of BUF[10 .. 9 + size] that lie below LEN; none of them without a size (30_encoding R87). -/
def payloadData (payload : List Byte) : List Byte :=
  match payloadSize payload with
  | none => []
  | some n => (payload.drop 10).take n.toNat

/-- The signature index of SPI_MULTI, BUF[6], read only when BUF[4] = 0x30 (30_encoding R94, R95). -/
def payloadSpiIndex (payload : List Byte) : Option Byte :=
  if payload[4]? = some 0x30 then payload[6]? else none

/-! ### The decoder -/

/-- Why a payload is no instruction. -/
inductive DecodeError where
  /-- LEN = 0: the parser never accepts it (40_frame_parser R115) -/
  | emptyPayload
  deriving DecidableEq, Repr

/-- The command a nonempty payload selects by its code (30_encoding R96, R97). -/
def decodeCommand (c : Config) (code : Byte) (payload : List Byte) : Instr :=
  match code.toNat with
  | 0x01 => .signOn
  | 0x02 => .setParameter
  | 0x03 => .getParameter payload[1]?
  | 0x06 => .loadAddress (payloadAddress payload)
  | 0x10 => .enterProgmodeIsp
  | 0x11 => .leaveProgmodeIsp
  | 0x12 => .chipEraseIsp
  | 0x13 => .programFlashIsp (payloadSize payload) (payloadData payload)
  | 0x14 => .readFlashIsp (payloadSize payload)
  | 0x15 => .programEepromIsp (payloadSize payload) (payloadData payload)
  | 0x16 => .readEepromIsp (payloadSize payload)
  | 0x18 => .readFuseIsp (payloadCmds payload)
  | 0x19 => if c.lockProgEnabled then .programLockIsp payload[4]? else .unknown code
  | 0x1A => .readLockIsp
  | 0x1B => .readSignatureIsp payload[4]?
  | 0x1D => .spiMulti payload[4]? (payloadSpiIndex payload)
  | _ => .unknown code

/-- Decode a payload BUF[0..LEN-1]; BUF[0] is the command code (30_encoding R85, R102; 41_dispatch R140). -/
def decode (c : Config) (payload : List Byte) : Except DecodeError Instr :=
  match payload with
  | [] => .error .emptyPayload
  | code :: _ => .ok (decodeCommand c code payload)

/-! ### The encoder: ignored bytes are 0x00 (30_encoding R104) -/

/-- The payload of a programming command: code, size, the seven ignored header bytes, data (30_encoding R87). -/
def encodeProgram (code : Byte) (size : Option Half) (data : List Byte) : List Byte :=
  match size with
  | none => [code]
  | some n => [code, hiByte n, loByte n, 0, 0, 0, 0, 0, 0, 0] ++ data

/-- The payload of a reading command (30_encoding R87). -/
def encodeRead (code : Byte) (size : Option Half) : List Byte :=
  match size with
  | none => [code]
  | some n => [code, hiByte n, loByte n]

/-- The payload of an instruction (30_encoding R87, R96); an absent operand gives the payload that ends before it. -/
def encode : Instr → List Byte
  | .signOn => [0x01]
  | .setParameter => [0x02]
  | .getParameter none => [0x03]
  | .getParameter (some id) => [0x03, id]
  | .loadAddress none => [0x06]
  | .loadAddress (some wa) => [0x06, byteOf wa 3, byteOf wa 2, byteOf wa 1, byteOf wa 0]
  | .enterProgmodeIsp => [0x10]
  | .leaveProgmodeIsp => [0x11]
  | .chipEraseIsp => [0x12]
  | .programFlashIsp size data => encodeProgram 0x13 size data
  | .readFlashIsp size => encodeRead 0x14 size
  | .programEepromIsp size data => encodeProgram 0x15 size data
  | .readEepromIsp size => encodeRead 0x16 size
  | .readFuseIsp none => [0x18]
  | .readFuseIsp (some (cmd1, cmd2)) => [0x18, 0, cmd1, cmd2]
  | .programLockIsp none => [0x19]
  | .programLockIsp (some v) => [0x19, 0, 0, 0, v]
  | .readLockIsp => [0x1A]
  | .readSignatureIsp none => [0x1B]
  | .readSignatureIsp (some i) => [0x1B, 0, 0, 0, i]
  | .spiMulti none _ => [0x1D]
  | .spiMulti (some t) none => [0x1D, 0, 0, 0, t]
  | .spiMulti (some t) (some i) => [0x1D, 0, 0, 0, t, 0, i]
  | .unknown code => [code]

/-! ### The opcode table's words -/

/-- The payload whose bits are `w`, byte k being bits 8k+7..8k, followed by zero bytes up to 12 bytes: the longest
fixed layout of 30_encoding R87 (log entry 15). -/
def tablePayload (nbits w : Nat) : List Byte :=
  let n := (nbits + 7) / 8
  (List.range n).map (fun k => BitVec.ofNat 8 (w >>> (8 * k))) ++ List.replicate (12 - n) 0

end Sys2Proof

/-- The instruction the decoder reads from a word of spec/opcode_table.json, for the test configuration. -/
def Sys2Proof.decodeTableWord (nbits w : Nat) : Option Sys2Proof.Instr :=
  match Sys2Proof.decode Sys2Proof.Config.test (Sys2Proof.tablePayload nbits w) with
  | .ok i => some i
  | .error _ => none
end

