-- ==== Sys2Proof/Machine/State.lean ====
section
/-! DEFINITION. The machine's state as plain data: the block's registers (10_state R47), its outputs, the memory
subsystem behind its port (20_memory R73), the receive events still to come (10_state R42) and the
losses among them, and the instance's parameters; the reasons a step can stop; the state after reset (70_reset R270). -/

namespace Sys2Proof.Machine

/-- The block's control state (10_state R30). -/
inductive Control where
  | awaitStart
  | awaitSequence
  | awaitLengthHigh
  | awaitLengthLow
  | awaitToken
  | awaitPayload
  | awaitChecksum
  | frameReady
  | exited
  deriving DecidableEq, Repr

/-- An event of the receive stream (10_state R42). -/
inductive RxEvent where
  | byte (b : Byte)
  | timeout
  deriving DecidableEq, Repr

/-- The fuse and lock selectors of the port (20_memory R58). -/
inductive FuseSel where
  | low
  | high
  | ext
  | lock
  deriving DecidableEq, Repr

/-- A request on the memory port (20_memory R52 to R59). -/
inductive PortRequest where
  /-- `Erase_FLASH(p)` (R52) -/
  | eraseFlash (p : Addr)
  /-- `MemWrite_FLASH(a, 2, w)` (R53) -/
  | writeFlash (a : Addr) (w : Half)
  /-- `MemRead_FLASH(a, 2)` (R54) -/
  | readFlash (a : Addr)
  /-- `MemWrite_EEPROM(a, 1, v)` (R55) -/
  | writeEeprom (a : Addr) (v : Byte)
  /-- `MemRead_EEPROM(a, 1)` (R56) -/
  | readEeprom (a : Addr)
  /-- `ReadSig(i)` (R57) -/
  | readSig (i : Fin 3)
  /-- `ReadFuse(sel)` (R58) -/
  | readFuse (sel : FuseSel)
  /-- `ProgramLock(v)` (R59) -/
  | programLock (v : Byte)
  deriving DecidableEq, Repr

/-- The contents of a memory: (address, byte) pairs, addresses strictly rising, none equal to what an unlisted address
reads as. -/
abbrev Memory := List Host.Cell

/-- What an unlisted address of flash or EEPROM reads as: 0xFF. The spec makes the initial contents inputs of a run
(20_memory R73), and any contents can be listed. DESIGN CHOICE, unsafe for claims about the reset state's memory: log
entry 4. -/
def Memory.blank : Byte := 0xFF

/-- The three signature bytes `SIGB[0..2]` (20_memory R57, R73). -/
structure Signature where
  byte0 : Byte
  byte1 : Byte
  byte2 : Byte
  deriving DecidableEq, Repr

/-- The fuse and lock bytes `FUSES` (20_memory R58, R73). -/
structure Fuses where
  low : Byte
  high : Byte
  ext : Byte
  lock : Byte
  deriving DecidableEq, Repr

/-- The memory subsystem behind the port, outside the block (10_state R46): the reference port's arrays (20_memory R73),
the requests it has been given, in order, and the counter of free answers (log entries 3 and 18). -/
structure Port where
  /-- `FL` -/
  flash : Memory
  /-- `EE` -/
  eeprom : Memory
  /-- `SIGB` -/
  sig : Signature
  /-- `FUSES` -/
  fuses : Fuses
  /-- every request performed so far, oldest first (00_scope R7, interface MEM; log entry 18) -/
  log : List PortRequest
  /-- the counter of free answers: under `PortKind.draws` each request advances it, so that each read draws a fresh
  value; the model's own, no statement rests on its value (log entry 3) -/
  draws : Nat
  deriving DecidableEq, Repr

/-- The machine. -/
structure State where
  /-- the instance's parameters, which no step changes (00_scope R8; log entry 1) -/
  cfg : Config
  /-- `state` (10_state R30) -/
  control : Control
  /-- `SEQ` (R32) -/
  seq : Byte
  /-- `CK` (R33) -/
  ck : Byte
  /-- `LEN` (R34) -/
  len : Half
  /-- `ADDR`, W bits held zero-extended (R35; log entry 19) -/
  addr : Addr
  /-- `LEAVE` (R36) -/
  leave : Bool
  /-- `IDX` (R37) -/
  idx : Half
  /-- `BUF[0..P_CAP-1]` (R38) -/
  buf : List Byte
  /-- `RLEN` (R39) -/
  rlen : Half
  /-- `EPAGE`: a page base, or none (R40) -/
  epage : Option Addr
  /-- `TX`: every byte sent, oldest first (R41) -/
  tx : List Byte
  /-- `EXIT` (R41) -/
  exit : Bool
  /-- the memory subsystem behind the port (R46) -/
  port : Port
  /-- the receive events still to come, in the order the host sends them, the next first; bytes the host sends while the
  block executes a frame are among them (R42; log entry 6) -/
  rx : List RxEvent
  /-- for each execute step to come, and for each of the next events of `rx` in turn, whether it is a byte that comes
  during that step and is lost: the environment's choice (70_reset R276; log entry 8) -/
  losses : List (List Bool)
  deriving DecidableEq, Repr

/-- Why the machine stops with a fault (00_scope R16; 60_exceptions R244 to R246). -/
inductive Fault where
  /-- `MalformedOperand(cmd)`: raised by the dispatcher for a malformed command when P_MALFORMED_POLICY = fault
  (60_exceptions R244), before any request or register write of that command. Safe: the spec itself names it. -/
  | malformedOperand (cmd : Byte)
  /-- `PortFault(request)`: raised by the reference port for a request outside its arrays (20_memory R78,
  60_exceptions R245). `reached` is the state in which the request was issued: the earlier requests of the command have
  been performed, ADDR and EPAGE are as far as the command had come, and BUF holds what it had written by then (42_memory
  R173, R174; log entry 11). Safe: the spec itself names it. -/
  | portFault (request : PortRequest) (reached : State)
  /-- Raised by AwaitPayload for a byte with IDX at or above P_CAP, which 40_frame_parser R116 says cannot happen; only
  states no run reaches raise it (log entry 14). Safe. -/
  | bufferOverrun (index : Nat)
  deriving DecidableEq, Repr

/-- Why a step is given no meaning. -/
inductive Refusal where
  /-- an instruction rejected by name in the dispatcher: no arm does so. Safe. -/
  | notModelled (mnemonic : String)
  /-- the parameters break 00_scope R9 or R10: they describe no instance. Raised by the step. Safe (log entry 12). -/
  | illegalConfiguration
  /-- a Timeout event where P_TIMEOUT_ENABLED is false, which 10_state R42 says cannot occur. Raised by the receive
  step. Safe (log entry 9). -/
  | timeoutNotEnabled
  /-- an execute step with LEN = 0, which 40_frame_parser R115 says cannot happen. Raised by the execute step in states
  no run reaches. Safe (log entry 14). -/
  | emptyPayload
  deriving DecidableEq, Repr

/-- The memory subsystem with the contents of 95_test_vectors section 0: flash and EEPROM every byte 0xFF, signature
1E 96 09, fuses F7 DC FD, lock FF. DESIGN CHOICE, unsafe: log entry 4. -/
def Port.test : Port where
  flash := []
  eeprom := []
  sig := { byte0 := 0x1E, byte1 := 0x96, byte2 := 0x09 }
  fuses := { low := 0xF7, high := 0xDC, ext := 0xFD, lock := 0xFF }
  log := []
  draws := 0

/-- Reset of the instance `c` in front of the memory subsystem `p`, which reset does not touch (70_reset R270, R271;
10_state R47). CK, LEN, IDX, RLEN and BUF, which the spec leaves unspecified, are 0: DESIGN CHOICE, unsafe, log entry 5.
No input has arrived yet. -/
def State.resetWith (c : Config) (p : Port) : State where
  cfg := c
  control := .awaitStart
  seq := c.seqReset
  ck := 0
  len := 0
  addr := 0
  leave := false
  idx := 0
  buf := List.replicate c.cap 0
  rlen := 0
  epage := none
  tx := []
  exit := false
  port := p
  rx := []
  losses := []

/-- The machine right after reset, with the test configuration and contents (log entries 1 and 4). -/
def State.reset : State := State.resetWith Config.test Port.test

end Sys2Proof.Machine
end

