-- ==== Sys2Proof/Machine/Operands.lean ====
section
/-! DEFINITION. Every operand form of the commands: addresses and their arithmetic, sizes, selectors, indices, masks,
and the operand checks of 41_dispatch R141; and which parameter records describe an instance (00_scope R9, R10). -/

namespace Sys2Proof.Machine

/-- A power of two. -/
def isPowerOfTwo (n : Nat) : Bool := 2 ^ Nat.log2 n == n

/-- The parameters are legal: the legal values of 00_scope R9 and the constraints of R10 (log entry 12). -/
def configLegal (c : Config) : Bool :=
  decide (12 ≤ c.cap)
    && (decide (2 ≤ c.pageSize) && isPowerOfTwo c.pageSize)
    && c.bootBoundary % c.pageSize == 0
    && c.flashSize % c.pageSize == 0
    && decide (c.bootBoundary ≤ c.flashSize)
    && decide (c.flashSize ≤ 2 ^ c.addrWidth.bits)
    && decide (1 ≤ c.eepromSize)

/-! ### Addresses -/

/-- `wrapW(n)`, W = P_ADDR_WIDTH (00_scope R13, 20_memory R79). -/
def wrapAddr (c : Config) (n : Nat) : Addr := BitVec.ofNat 32 (n % 2 ^ c.addrWidth.bits)

/-- The word address of LOAD_ADDRESS: all four bytes for W = 32, the last two for W = 16 (30_encoding R89). -/
def wordAddress (c : Config) (word : BitVec 32) : Nat :=
  match c.addrWidth with
  | .w32 => word.toNat
  | .w16 => word.toNat % 2 ^ 16

/-- The byte address LOAD_ADDRESS stores: `wrapW(wa << 1)` (30_encoding R89, 42_memory R170). -/
def loadedAddress (c : Config) (word : BitVec 32) : Addr := wrapAddr c (wordAddress c word <<< 1)

/-- `page(a)`: the base of the page that holds byte a (20_memory R51). -/
def pageOf (c : Config) (a : Addr) : Addr := BitVec.ofNat 32 (a.toNat - a.toNat % c.pageSize)

/-- A flash word from the bytes at a and a + 1 (20_memory R64): the first is the low byte. -/
def flashWord (lo hi : Byte) : Half := joinBytes hi lo

/-! ### Selectors, indices, masks, parameters -/

/-- The fuse byte READ_FUSE_ISP selects (30_encoding R93, 43_device R201). -/
def fuseSelect (cmd1 cmd2 : Byte) : FuseSel :=
  if cmd1 = 0x50 then (if cmd2 = 0x08 then .ext else .low) else .high

/-- The signature index: values above 2 read byte 2 (43_device R200, R204). -/
def signatureIndex (i : Byte) : Fin 3 :=
  if i = 0 then 0 else if i = 1 then 1 else 2

/-- The mask PROGRAM_LOCK_ISP asks for: `(~lockByte) & P_LOCK_MASK` (43_device R203). -/
def lockRequest (c : Config) (lockByte : Byte) : Byte := ~~~lockByte &&& c.lockMask

/-- GET_PARAMETER's value: the table's, or P_PARAM_DEFAULT for an id that is not in it (41_dispatch R145). -/
def parameterValue (c : Config) (id : Byte) : Byte :=
  match c.paramTable.lookup id with
  | some v => v
  | none => c.paramDefault

/-! ### Operand checks (41_dispatch R141, in the order of R142; MINLEN is checked by the operand being there) -/

/-- PROGRAM_FLASH_ISP with LEN >= 3 is malformed: size 0, size odd, ADDR odd, or LEN < 10 + size. -/
def programFlashMalformed (addr : Addr) (size : Half) (data : List Byte) : Bool :=
  size == 0 || size.toNat % 2 == 1 || addr.toNat % 2 == 1 || decide (data.length < size.toNat)

/-- PROGRAM_EEPROM_ISP with LEN >= 3 is malformed: size 0, or LEN < 10 + size. -/
def programEepromMalformed (size : Half) (data : List Byte) : Bool :=
  size == 0 || decide (data.length < size.toNat)

/-- READ_FLASH_ISP with LEN >= 3 is malformed: size 0, size odd, or size + 3 > P_CAP. -/
def readFlashMalformed (c : Config) (size : Half) : Bool :=
  size == 0 || size.toNat % 2 == 1 || decide (c.cap < size.toNat + 3)

/-- READ_EEPROM_ISP with LEN >= 3 is malformed: size 0, or size + 3 > P_CAP. -/
def readEepromMalformed (c : Config) (size : Half) : Bool :=
  size == 0 || decide (c.cap < size.toNat + 3)

end Sys2Proof.Machine
end

