-- ==== Sys2Proof/Machine/Flags.lean ====
section
/-! DEFINITION. The block has no condition codes (10_state R43): its one flag is LEAVE. Here stand the flag, the status
bytes and the validity checks of the parser. -/

namespace Sys2Proof.Machine

/-- STATUS_OK (00_scope R11). -/
def STATUS_OK : Byte := 0x00

/-- STATUS_FAILED, STK500v2's STATUS_CMD_FAILED (00_scope R12, 30_encoding R92). -/
def STATUS_FAILED : Byte := 0xC0

/-- SIGNON_ID, "AVRISP_2" (00_scope R11). -/
def SIGNON_ID : List Byte := [0x41, 0x56, 0x52, 0x49, 0x53, 0x50, 0x5F, 0x32]

/-- The SPI instruction byte "read signature byte" (30_encoding R95). -/
def SPI_READ_SIGNATURE : Byte := 0x30

/-- A sequence byte is accepted when it is 1 or SEQ (40_frame_parser R112). -/
def seqAccepted (seq b : Byte) : Bool := b == 1 || b == seq

/-- A declared length is accepted when 1 <= LEN <= P_CAP (40_frame_parser R115). -/
def lenAccepted (c : Config) (len : Half) : Bool := decide (1 ≤ len.toNat) && decide (len.toNat ≤ c.cap)

/-- LEAVE after LEAVE_PROGMODE_ISP: set when P_LEAVE_ENABLED, else as it was (41_dispatch R147). -/
def leaveAfter (c : Config) (leave : Bool) : Bool := c.leaveEnabled || leave

/-- Where the block goes after a reply: Exited with LEAVE, else AwaitStart (44_reply_encoder R225, R226). -/
def controlAfterReply (leave : Bool) : Control := if leave then .exited else .awaitStart

end Sys2Proof.Machine
end

