-- ==== Sys2Proof/Machine/Ops.lean ====
section
/-! DEFINITION. The named operations every meaning is made of: reading and writing a memory, performing a request on the
memory port, writing the payload buffer, sending a reply, and what replaces exceptions on this hardware (60_exceptions
R251): the silent restart of a framing error, the failed reply or fault of a malformed command, the timeout. -/

namespace Sys2Proof.Machine

/-! ### Memories -/

/-- The byte at address `a`. -/
def Memory.read : Memory → Nat → Byte
  | [], _ => Memory.blank
  | (b, v) :: rest, a => if b = a then v else Memory.read rest a

/-- Store byte `v` at address `a`, keeping the canonical form. -/
def Memory.write : Memory → Nat → Byte → Memory
  | [], a, v => if v = Memory.blank then [] else [(a, v)]
  | (b, u) :: rest, a, v =>
    if a < b then (if v = Memory.blank then (b, u) :: rest else (a, v) :: (b, u) :: rest)
    else if a = b then (if v = Memory.blank then rest else (a, v) :: rest)
    else (b, u) :: Memory.write rest a v

/-- Store `v` at the `n` addresses from `a` on. -/
def Memory.fill : Memory → Nat → Nat → Byte → Memory
  | m, _, 0, _ => m
  | m, a, n + 1, v => Memory.fill (Memory.write m a v) (a + 1) n v

/-- The canonical form, for addresses from `lo` on. -/
def Memory.wfFrom : Nat → Memory → Bool
  | _, [] => true
  | lo, (a, v) :: rest => decide (lo ≤ a) && v != Memory.blank && Memory.wfFrom (a + 1) rest

/-- The canonical form: addresses strictly rising, no entry equal to what an unlisted address reads as. -/
def Memory.wf (m : Memory) : Bool := Memory.wfFrom 0 m

/-! ### The memory port (20_memory sections 2 and 6) -/

/-- The request lies inside the reference port's arrays (20_memory R78). -/
def requestInRange (c : Config) : PortRequest → Bool
  | .eraseFlash p => decide (p.toNat + c.pageSize ≤ c.flashSize)
  | .writeFlash a _ => decide (a.toNat + 1 < c.flashSize)
  | .readFlash a => decide (a.toNat + 1 < c.flashSize)
  | .writeEeprom a _ => decide (a.toNat < c.eepromSize)
  | .readEeprom a => decide (a.toNat < c.eepromSize)
  | .readSig _ => true
  | .readFuse _ => true
  | .programLock _ => true

/-- What a request does to the reference port's arrays (20_memory R74 to R77). -/
def requestEffect (c : Config) (p : Port) : PortRequest → Port
  | .eraseFlash b => { p with flash := p.flash.fill b.toNat c.pageSize c.erasedByte }
  | .writeFlash a w => { p with flash := (p.flash.write a.toNat (loByte w)).write (a.toNat + 1) (hiByte w) }
  | .readFlash _ => p
  | .writeEeprom a v => { p with eeprom := p.eeprom.write a.toNat v }
  | .readEeprom _ => p
  | .readSig _ => p
  | .readFuse _ => p
  | .programLock v => { p with fuses := { p.fuses with lock := p.fuses.lock &&& ~~~v } }

/-- Perform one request, completely, and record it (20_memory R60). The reference port faults outside its arrays (R78); a
subsystem of free draws answers every request, and its contents are its own (log entry 3). -/
def Port.perform (c : Config) (p : Port) (r : PortRequest) : Except PortRequest Port :=
  match c.portKind with
  | .reference =>
    if requestInRange c r then .ok { requestEffect c p r with log := p.log ++ [r] } else .error r
  | .draws => .ok { p with log := p.log ++ [r], draws := p.draws + 1 }

/-- The answer to `MemRead_FLASH(a, 2)` (20_memory R54, R75). -/
def Port.flashAnswer (c : Config) (p : Port) (a : Addr) : Half :=
  match c.portKind with
  | .reference => flashWord (p.flash.read a.toNat) (p.flash.read (a.toNat + 1))
  | .draws => Config.drawWord p.draws

/-- The answer to `MemRead_EEPROM(a, 1)` (20_memory R56, R76). -/
def Port.eepromAnswer (c : Config) (p : Port) (a : Addr) : Byte :=
  match c.portKind with
  | .reference => p.eeprom.read a.toNat
  | .draws => Config.drawByte p.draws

/-- Signature byte i of the reference port (20_memory R77). -/
def Signature.byte (g : Signature) (i : Fin 3) : Byte :=
  match i with
  | 0 => g.byte0
  | 1 => g.byte1
  | 2 => g.byte2

/-- The answer to `ReadSig(i)` (20_memory R57, R77). -/
def Port.sigAnswer (c : Config) (p : Port) (i : Fin 3) : Byte :=
  match c.portKind with
  | .reference => p.sig.byte i
  | .draws => Config.deviceSignature i

/-- A fuse or lock byte of the reference port (20_memory R77). -/
def Fuses.byte (f : Fuses) : FuseSel → Byte
  | .low => f.low
  | .high => f.high
  | .ext => f.ext
  | .lock => f.lock

/-- The answer to `ReadFuse(sel)` (20_memory R58, R77). -/
def Port.fuseAnswer (c : Config) (p : Port) (sel : FuseSel) : Byte :=
  match c.portKind with
  | .reference => p.fuses.byte sel
  | .draws => Config.drawByte p.draws

/-- The block issues one request and waits for the port to complete it (20_memory R60). A request the port cannot perform
raises PortFault in the state it was issued in (60_exceptions R245). -/
def State.request (s : State) (r : PortRequest) : Except Fault State :=
  match Port.perform s.cfg s.port r with
  | .ok p => .ok { s with port := p }
  | .error bad => .error (.portFault bad s)

/-! ### Registers -/

/-- `ADDR <- wrapW(ADDR + n)` (20_memory R79). -/
def State.advanceAddr (s : State) (n : Nat) : State := { s with addr := wrapAddr s.cfg (s.addr.toNat + n) }

/-- A buffer with `bs` written from index `off` on. -/
def bufPut (buf : List Byte) (off : Nat) (bs : List Byte) : List Byte :=
  buf.take off ++ bs ++ buf.drop (off + bs.length)

/-- `BUF[off..] <- bs` (00_scope R14). -/
def State.putBuf (s : State) (off : Nat) (bs : List Byte) : State := { s with buf := bufPut s.buf off bs }

/-- Write a reply in place: BUF[1..RLEN-1] and RLEN; BUF[0] keeps the command code (30_encoding R90, 41_dispatch R149). -/
def State.setReply (s : State) (bs : List Byte) : State :=
  { s with buf := bufPut s.buf 1 bs, rlen := BitVec.ofNat 16 (1 + bs.length) }

/-- The reply encoder: send BUF[0..RLEN-1] as a frame, then SEQ + 1, then Exited or AwaitStart (44_reply_encoder R220 to
R226). CK is not written (R221). -/
def State.sendReply (s : State) : State :=
  { s with
    tx := s.tx ++ frameBytes s.seq s.rlen (s.buf.take s.rlen.toNat)
    seq := s.seq + 1
    control := controlAfterReply s.leave
    exit := s.exit || s.leave }

/-! ### The outcomes of an execute step -/

/-- End a command with the reply bytes BUF[1..] (41_dispatch R140). -/
def reply (bs : List Byte) (s : State) : Host.Outcome State Fault Refusal :=
  .next (s.setReply bs).sendReply

/-- The end of a reading command whose status and `size` bytes stand in BUF already: the trailing status, RLEN, and the
reply (42_memory R173, R174). -/
def replyRead (size : Nat) (s : State) : Host.Outcome State Fault Refusal :=
  .next { s.putBuf (size + 2) [STATUS_OK] with rlen := BitVec.ofNat 16 (size + 3) }.sendReply

/-- A malformed command: the failed reply, or the fault, as P_MALFORMED_POLICY says, with no port request and no write to
ADDR or LEAVE (41_dispatch R141; 60_exceptions R242, R244). -/
def malformed (cmd : Byte) (s : State) : Host.Outcome State Fault Refusal :=
  match s.cfg.malformedPolicy with
  | .replyFailed => reply [STATUS_FAILED] s
  | .fault => .fault (.malformedOperand cmd)

/-! ### Receive-side outcomes -/

/-- A framing error: back to AwaitStart, silently; nothing else changes (60_exceptions R241, R251). -/
def State.restart (s : State) : State := { s with control := .awaitStart }

/-- The Timeout event in a receive state: LEAVE, Exited, EXIT, no reply, SEQ unchanged (40_frame_parser R120). -/
def timeoutEvent (s : State) : Host.Outcome State Fault Refusal :=
  if s.cfg.timeoutEnabled then .next { s with leave := true, control := .exited, exit := true }
  else .refused .timeoutNotEnabled

/-- What is left of the input when each event in turn is lost or not, as the list says; an event behind the list's end is
not lost, and a Timeout, which is no byte, never is (70_reset R276). What is left keeps its order. -/
def dropLost : List Bool → List RxEvent → List RxEvent
  | [], rx => rx
  | _ :: _, [] => []
  | _ :: more, .timeout :: rx => .timeout :: dropLost more rx
  | true :: more, .byte _ :: rx => dropLost more rx
  | false :: more, .byte b :: rx => .byte b :: dropLost more rx

/-- The bytes the host sends during this execute step: those the environment loses are gone, the others come later, in
order, with all the other input (70_reset R276). -/
def State.loseBytes (s : State) : State :=
  match s.losses with
  | [] => s
  | now :: later => { s with rx := dropLost now s.rx, losses := later }

end Sys2Proof.Machine
end

