-- ==== Sys2Proof/Machine/Device.lean ====
section
/-! DEFINITION. The signature, fuse, lock and SPI commands (spec 43_device_commands, R200 to R204). None reads or writes
ADDR. -/

namespace Sys2Proof.Machine

/-- READ_SIGNATURE_ISP (R200); malformed with LEN < 5. -/
def execReadSignatureIsp (index : Option Byte) (s : State) : Host.Outcome State Fault Refusal :=
  match index with
  | none => malformed 0x1B s
  | some i =>
    match s.request (.readSig (signatureIndex i)) with
    | .ok s1 => reply [STATUS_OK, s.port.sigAnswer s.cfg (signatureIndex i), STATUS_OK] s1
    | .error f => .fault f

/-- READ_FUSE_ISP (R201); malformed with LEN < 4. -/
def execReadFuseIsp (cmds : Option (Byte × Byte)) (s : State) : Host.Outcome State Fault Refusal :=
  match cmds with
  | none => malformed 0x18 s
  | some (cmd1, cmd2) =>
    match s.request (.readFuse (fuseSelect cmd1 cmd2)) with
    | .ok s1 => reply [STATUS_OK, s.port.fuseAnswer s.cfg (fuseSelect cmd1 cmd2), STATUS_OK] s1
    | .error f => .fault f

/-- READ_LOCK_ISP (R202). -/
def execReadLockIsp (s : State) : Host.Outcome State Fault Refusal :=
  match s.request (.readFuse .lock) with
  | .ok s1 => reply [STATUS_OK, s.port.fuseAnswer s.cfg .lock, STATUS_OK] s1
  | .error f => .fault f

/-- PROGRAM_LOCK_ISP (R203); malformed with LEN < 5. The decoder gives it only with P_LOCK_PROG_ENABLED. -/
def execProgramLockIsp (lockByte : Option Byte) (s : State) : Host.Outcome State Fault Refusal :=
  match lockByte with
  | none => malformed 0x19 s
  | some v =>
    match s.request (.programLock (lockRequest s.cfg v)) with
    | .ok s => reply [STATUS_OK, STATUS_OK] s
    | .error f => .fault f

/-- SPI_MULTI's reply: status, the four answer bytes `00 t 00 ans`, status (R204). -/
def spiReply (t ans : Byte) : List Byte := [STATUS_OK, 0x00, t, 0x00, ans, STATUS_OK]

/-- SPI_MULTI (R204): "read signature byte" is emulated, any other instruction answers P_SPI_DUMMY; malformed with LEN < 5,
or LEN < 7 when the instruction is 0x30. -/
def execSpiMulti (tx0 : Option Byte) (index : Option Byte) (s : State) :
    Host.Outcome State Fault Refusal :=
  match tx0 with
  | none => malformed 0x1D s
  | some t =>
    if t = SPI_READ_SIGNATURE then
      match index with
      | none => malformed 0x1D s
      | some i =>
        match s.request (.readSig (signatureIndex i)) with
        | .ok s1 => reply (spiReply t (s.port.sigAnswer s.cfg (signatureIndex i))) s1
        | .error f => .fault f
    else reply (spiReply t s.cfg.spiDummy) s

end Sys2Proof.Machine
end

