-- ==== Sys2Proof/Machine/Memory.lean ====
section
/-! DEFINITION. The address and memory commands (spec 42_memory_commands, R170 to R174). -/

namespace Sys2Proof.Machine

/-- LOAD_ADDRESS (R170); malformed with LEN < 5 (41_dispatch R141). -/
def execLoadAddress (word : Option (BitVec 32)) (s : State) : Host.Outcome State Fault Refusal :=
  match word with
  | none => malformed 0x06 s
  | some w => reply [STATUS_OK] { s with addr := loadedAddress s.cfg w }

/-- Erase the page of byte a unless it is the page erased last (R171, EPAGE of 10_state R40). -/
def erasePageOnce (a : Addr) (s : State) : Except Fault State :=
  if s.epage = some (pageOf s.cfg a) then .ok s
  else
    match s.request (.eraseFlash (pageOf s.cfg a)) with
    | .ok s => .ok { s with epage := some (pageOf s.cfg a) }
    | .error f => .error f

/-- One word of PROGRAM_FLASH_ISP at ADDR (R171): below the boundary erase its page if that is due and write it; at or above
it do neither; then advance ADDR by 2. -/
def programWord (lo hi : Byte) (s : State) : Except Fault State :=
  if s.addr.toNat < s.cfg.bootBoundary then
    match erasePageOnce s.addr s with
    | .ok s1 =>
      match s1.request (.writeFlash s.addr (flashWord lo hi)) with
      | .ok s2 => .ok (s2.advanceAddr 2)
      | .error f => .error f
    | .error f => .error f
  else .ok (s.advanceAddr 2)

/-- The words of PROGRAM_FLASH_ISP in order, low byte first (R171, 20_memory R64). -/
def programWords : List Byte → State → Except Fault State
  | lo :: hi :: rest, s =>
    match programWord lo hi s with
    | .ok s => programWords rest s
    | .error f => .error f
  | _, s => .ok s

/-- PROGRAM_FLASH_ISP (R171); malformed as 41_dispatch R141 says. The data is the first `size` bytes of it. -/
def execProgramFlashIsp (size : Option Half) (data : List Byte) (s : State) :
    Host.Outcome State Fault Refusal :=
  match size with
  | none => malformed 0x13 s
  | some n =>
    if programFlashMalformed s.addr n data then malformed 0x13 s
    else
      match programWords (data.take n.toNat) { s with epage := none } with
      | .ok s => reply [STATUS_OK] s
      | .error f => .fault f

/-- The bytes of PROGRAM_EEPROM_ISP in order: write at ADDR, advance ADDR by 1 (R172). -/
def programBytes : List Byte → State → Except Fault State
  | [], s => .ok s
  | v :: rest, s =>
    match s.request (.writeEeprom s.addr v) with
    | .ok s => programBytes rest (s.advanceAddr 1)
    | .error f => .error f

/-- PROGRAM_EEPROM_ISP (R172); malformed as 41_dispatch R141 says. -/
def execProgramEepromIsp (size : Option Half) (data : List Byte) (s : State) :
    Host.Outcome State Fault Refusal :=
  match size with
  | none => malformed 0x15 s
  | some n =>
    if programEepromMalformed n data then malformed 0x15 s
    else
      match programBytes (data.take n.toNat) s with
      | .ok s => reply [STATUS_OK] s
      | .error f => .fault f

/-- The loop of READ_FLASH_ISP from byte `k` of the reply's data on, for `n` words: read the word at ADDR into BUF[2 + k],
low byte first, and advance ADDR by 2 (R173). -/
def readWords : Nat → Nat → State → Except Fault State
  | _, 0, s => .ok s
  | k, n + 1, s =>
    match s.request (.readFlash s.addr) with
    | .ok s1 =>
      readWords (k + 2) n ((s1.putBuf (2 + k)
        [loByte (s.port.flashAnswer s.cfg s.addr), hiByte (s.port.flashAnswer s.cfg s.addr)]).advanceAddr 2)
    | .error f => .error f

/-- READ_FLASH_ISP (R173); malformed as 41_dispatch R141 says. The boundary does not limit it, and ADDR may be odd. -/
def execReadFlashIsp (size : Option Half) (s : State) : Host.Outcome State Fault Refusal :=
  match size with
  | none => malformed 0x14 s
  | some n =>
    if readFlashMalformed s.cfg n then malformed 0x14 s
    else
      match readWords 0 (n.toNat / 2) (s.putBuf 1 [STATUS_OK]) with
      | .ok s => replyRead n.toNat s
      | .error f => .fault f

/-- The loop of READ_EEPROM_ISP from byte `k` on, for `n` bytes: read the byte at ADDR into BUF[2 + k] and advance ADDR by
1 (R174). -/
def readBytes : Nat → Nat → State → Except Fault State
  | _, 0, s => .ok s
  | k, n + 1, s =>
    match s.request (.readEeprom s.addr) with
    | .ok s1 =>
      readBytes (k + 1) n ((s1.putBuf (2 + k) [s.port.eepromAnswer s.cfg s.addr]).advanceAddr 1)
    | .error f => .error f

/-- READ_EEPROM_ISP (R174); malformed as 41_dispatch R141 says. -/
def execReadEepromIsp (size : Option Half) (s : State) : Host.Outcome State Fault Refusal :=
  match size with
  | none => malformed 0x16 s
  | some n =>
    if readEepromMalformed s.cfg n then malformed 0x16 s
    else
      match readBytes 0 n.toNat (s.putBuf 1 [STATUS_OK]) with
      | .ok s => replyRead n.toNat s
      | .error f => .fault f

end Sys2Proof.Machine
end

