-- ==== Sys2Proof/Machine/Session.lean ====
section
/-! DEFINITION. The session commands and UNKNOWN (spec 41_dispatch_session, R143 to R150). -/

namespace Sys2Proof.Machine

/-- SIGN_ON (R143): status, the length of the identification string, the string. -/
def execSignOn (s : State) : Host.Outcome State Fault Refusal :=
  reply (STATUS_OK :: 0x08 :: SIGNON_ID) s

/-- SET_PARAMETER (R144): nothing is stored. -/
def execSetParameter (s : State) : Host.Outcome State Fault Refusal :=
  reply [STATUS_OK] s

/-- GET_PARAMETER (R145); malformed with LEN < 2 (R141). -/
def execGetParameter (id : Option Byte) (s : State) : Host.Outcome State Fault Refusal :=
  match id with
  | none => malformed 0x03 s
  | some id => reply [STATUS_OK, parameterValue s.cfg id] s

/-- ENTER_PROGMODE_ISP (R146): there is no program-mode state. -/
def execEnterProgmodeIsp (s : State) : Host.Outcome State Fault Refusal :=
  reply [STATUS_OK] s

/-- LEAVE_PROGMODE_ISP (R147): LEAVE when P_LEAVE_ENABLED; the session ends after the reply (44_reply_encoder R226). -/
def execLeaveProgmodeIsp (s : State) : Host.Outcome State Fault Refusal :=
  reply [STATUS_OK] { s with leave := leaveAfter s.cfg s.leave }

/-- CHIP_ERASE_ISP (R148): a no-op; erasure is per page, in PROGRAM_FLASH_ISP. -/
def execChipEraseIsp (s : State) : Host.Outcome State Fault Refusal :=
  reply [STATUS_OK] s

/-- UNKNOWN (R150): the failed reply, whatever P_MALFORMED_POLICY says. BUF[0] keeps the received code. -/
def execUnknown (_code : Byte) (s : State) : Host.Outcome State Fault Refusal :=
  reply [STATUS_FAILED] s

end Sys2Proof.Machine
end

