-- ==== Sys2Proof/Machine/Dispatch.lean ====
section
/-! DEFINITION. The dispatcher: one arm per command (spec 41_dispatch R140). -/

namespace Sys2Proof.Machine

/-- The execute step of a decoded command, its reply included (41_dispatch R140, 40_frame_parser R118). -/
def exec (i : Instr) (s : State) : Host.Outcome State Fault Refusal :=
  match i with
  | .signOn => Sys2Proof.Machine.execSignOn s
  | .setParameter => Sys2Proof.Machine.execSetParameter s
  | .getParameter id => Sys2Proof.Machine.execGetParameter id s
  | .loadAddress word => Sys2Proof.Machine.execLoadAddress word s
  | .enterProgmodeIsp => Sys2Proof.Machine.execEnterProgmodeIsp s
  | .leaveProgmodeIsp => Sys2Proof.Machine.execLeaveProgmodeIsp s
  | .chipEraseIsp => Sys2Proof.Machine.execChipEraseIsp s
  | .programFlashIsp size data => Sys2Proof.Machine.execProgramFlashIsp size data s
  | .readFlashIsp size => Sys2Proof.Machine.execReadFlashIsp size s
  | .programEepromIsp size data => Sys2Proof.Machine.execProgramEepromIsp size data s
  | .readEepromIsp size => Sys2Proof.Machine.execReadEepromIsp size s
  | .readFuseIsp cmds => Sys2Proof.Machine.execReadFuseIsp cmds s
  | .programLockIsp lockByte => Sys2Proof.Machine.execProgramLockIsp lockByte s
  | .readLockIsp => Sys2Proof.Machine.execReadLockIsp s
  | .readSignatureIsp index => Sys2Proof.Machine.execReadSignatureIsp index s
  | .spiMulti tx0 index => Sys2Proof.Machine.execSpiMulti tx0 index s
  | .unknown code => Sys2Proof.Machine.execUnknown code s

end Sys2Proof.Machine
end

