-- ==== Sys2Proof/Machine/Parser.lean ====
section
/-! DEFINITION. The frame parser and checksum validator: one rule per receive state (spec 40_frame_parser, R110 to
R120). -/

namespace Sys2Proof.Machine

/-- AwaitStart (R111). -/
def awaitStartByte (b : Byte) (s : State) : Host.Outcome State Fault Refusal :=
  if b = START then .next { s with ck := START, control := .awaitSequence } else .next s.restart

/-- AwaitSequence (R112): SEQ is written as soon as the byte is accepted. -/
def awaitSequenceByte (b : Byte) (s : State) : Host.Outcome State Fault Refusal :=
  if seqAccepted s.seq b then .next { s with seq := b, ck := s.ck ^^^ b, control := .awaitLengthHigh }
  else .next s.restart

/-- AwaitLengthHigh (R113): `LEN <- b << 8`. -/
def awaitLengthHighByte (b : Byte) (s : State) : Host.Outcome State Fault Refusal :=
  .next { s with len := b.setWidth 16 <<< 8, ck := s.ck ^^^ b, control := .awaitLengthLow }

/-- AwaitLengthLow (R114): `LEN <- LEN | b`. -/
def awaitLengthLowByte (b : Byte) (s : State) : Host.Outcome State Fault Refusal :=
  .next { s with len := s.len ||| b.setWidth 16, ck := s.ck ^^^ b, control := .awaitToken }

/-- AwaitToken (R115): the token, and a declared length the buffer holds. -/
def awaitTokenByte (b : Byte) (s : State) : Host.Outcome State Fault Refusal :=
  if b = TOKEN ∧ lenAccepted s.cfg s.len then
    .next { s with ck := s.ck ^^^ b, idx := 0, control := .awaitPayload }
  else .next s.restart

/-- AwaitPayload (R116). The buffer has P_CAP bytes: an index at or above it, which R116 says cannot come, is a fault
(log entry 14). -/
def awaitPayloadByte (b : Byte) (s : State) : Host.Outcome State Fault Refusal :=
  if s.idx.toNat < s.cfg.cap then
    .next { s with
      buf := s.buf.set s.idx.toNat b
      ck := s.ck ^^^ b
      idx := s.idx + 1
      control := if s.idx + 1 = s.len then .awaitChecksum else .awaitPayload }
  else .fault (.bufferOverrun s.idx.toNat)

/-- AwaitChecksum (R117). -/
def awaitChecksumByte (b : Byte) (s : State) : Host.Outcome State Fault Refusal :=
  if b = s.ck then .next { s with control := .frameReady } else .next s.restart

/-- A `Byte(b)` event goes to the rule of the current state (R110). FrameReady and Exited take no event (R118, R121). -/
def receiveByte (b : Byte) (s : State) : Host.Outcome State Fault Refusal :=
  match s.control with
  | .awaitStart => awaitStartByte b s
  | .awaitSequence => awaitSequenceByte b s
  | .awaitLengthHigh => awaitLengthHighByte b s
  | .awaitLengthLow => awaitLengthLowByte b s
  | .awaitToken => awaitTokenByte b s
  | .awaitPayload => awaitPayloadByte b s
  | .awaitChecksum => awaitChecksumByte b s
  | .frameReady => .next s
  | .exited => .next s

/-- The receive step: take the next event; with none the block waits, unchanged (R110; log entry 6). -/
def receiveStep (s : State) : Host.Outcome State Fault Refusal :=
  match s.rx with
  | [] => .next s
  | .byte b :: rest => receiveByte b { s with rx := rest }
  | .timeout :: rest => timeoutEvent { s with rx := rest }

end Sys2Proof.Machine
end

