-- ==== Sys2Proof/Machine/Engine.lean ====
section
/-! DEFINITION. What the block does in each control state (spec 40_frame_parser R110, R118, R121): fetching the command
from the payload buffer, the execute step, the receive step, the end. -/

namespace Sys2Proof.Machine

/-- The validated payload BUF[0..LEN-1]: where the execute step finds its command (40_frame_parser R118, 41_dispatch
R152). -/
def State.payload (s : State) : List Byte := s.buf.take s.len.toNat

/-- The execute step (40_frame_parser R118): decode the payload and run the command. -/
def executeStep (s : State) : Host.Outcome State Fault Refusal :=
  match decode s.cfg s.payload with
  | .ok i => exec i s
  | .error .emptyPayload => .refused .emptyPayload

/-- The block's one enabled step in each control state. Exited has none: the state stays (40_frame_parser R121; log
entry 7). -/
def blockStep (s : State) : Host.Outcome State Fault Refusal :=
  match s.control with
  | .awaitStart => receiveStep s
  | .awaitSequence => receiveStep s
  | .awaitLengthHigh => receiveStep s
  | .awaitLengthLow => receiveStep s
  | .awaitToken => receiveStep s
  | .awaitPayload => receiveStep s
  | .awaitChecksum => receiveStep s
  | .frameReady => executeStep s.loseBytes
  | .exited => .next s

/-- A step of an instance; parameters that describe none are refused (00_scope R10). -/
def instanceStep (s : State) : Host.Outcome State Fault Refusal :=
  if configLegal s.cfg then blockStep s else .refused .illegalConfiguration

/-- A validated frame with this payload, ready for the execute step (log entry 15). -/
def State.withPayload (s : State) (payload : List Byte) : State :=
  { s with
    control := .frameReady
    len := BitVec.ofNat 16 payload.length
    buf := bufPut s.buf 0 payload }

end Sys2Proof.Machine
end

