-- ==== Sys2Proof/Machine/Step.lean ====
section
/-! DEFINITION. The step of the machine, and the state whose next step executes a given instruction. -/

namespace Sys2Proof.Machine

/-- One step. -/
def step (s : State) : Host.Outcome State Fault Refusal := instanceStep s

/-- `s` with the instruction of these bits as the validated payload the next step executes. A program comes to run as the
host's frames in the receive stream; this stands for a frame the parser has accepted (log entry 15). -/
def State.withFetchWord (s : State) (nbits w : Nat) : State := s.withPayload (tablePayload nbits w)

end Sys2Proof.Machine
end

