-- ==== Sys2Proof/Safety.lean ====
section
/-! DEFINITION. What claims about the machine speak of: the operand checks and read bytes of a command as the spec tables
them, what a completed command leaves, which requests self-protection allows, the invariants, and runs of several
steps. -/

namespace Sys2Proof.Machine

/-! ### Commands as the spec tables them -/

/-- The command code a command answers with (30_encoding R96). -/
def commandCode : Instr → Byte
  | .signOn => 0x01
  | .setParameter => 0x02
  | .getParameter _ => 0x03
  | .loadAddress _ => 0x06
  | .enterProgmodeIsp => 0x10
  | .leaveProgmodeIsp => 0x11
  | .chipEraseIsp => 0x12
  | .programFlashIsp _ _ => 0x13
  | .readFlashIsp _ => 0x14
  | .programEepromIsp _ _ => 0x15
  | .readEepromIsp _ => 0x16
  | .readFuseIsp _ => 0x18
  | .programLockIsp _ => 0x19
  | .readLockIsp => 0x1A
  | .readSignatureIsp _ => 0x1B
  | .spiMulti _ _ => 0x1D
  | .unknown code => code

/-- The malformed operands of 41_dispatch R141, for a block with parameters `c` and address register `addr`. -/
def isMalformed (c : Config) (addr : Addr) : Instr → Prop
  | .signOn => False
  | .setParameter => False
  | .getParameter id => id = none
  | .loadAddress word => word = none
  | .enterProgmodeIsp => False
  | .leaveProgmodeIsp => False
  | .chipEraseIsp => False
  | .programFlashIsp none _ => True
  | .programFlashIsp (some n) data =>
    n.toNat = 0 ∨ n.toNat % 2 = 1 ∨ addr.toNat % 2 = 1 ∨ data.length < n.toNat
  | .readFlashIsp none => True
  | .readFlashIsp (some n) => n.toNat = 0 ∨ n.toNat % 2 = 1 ∨ c.cap < n.toNat + 3
  | .programEepromIsp none _ => True
  | .programEepromIsp (some n) data => n.toNat = 0 ∨ data.length < n.toNat
  | .readEepromIsp none => True
  | .readEepromIsp (some n) => n.toNat = 0 ∨ c.cap < n.toNat + 3
  | .readFuseIsp cmds => cmds = none
  | .programLockIsp lockByte => lockByte = none
  | .readLockIsp => False
  | .readSignatureIsp index => index = none
  | .spiMulti tx0 index => tx0 = none ∨ (tx0 = some 0x30 ∧ index = none)
  | .unknown _ => False

/-- Every operand byte the command reads is below LEN (30_encoding R87). -/
def isComplete : Instr → Prop
  | .signOn => True
  | .setParameter => True
  | .getParameter id => id ≠ none
  | .loadAddress word => word ≠ none
  | .enterProgmodeIsp => True
  | .leaveProgmodeIsp => True
  | .chipEraseIsp => True
  | .programFlashIsp size data => size = some (BitVec.ofNat 16 data.length) ∧ data.length < 2 ^ 16
  | .readFlashIsp size => size ≠ none
  | .programEepromIsp size data => size = some (BitVec.ofNat 16 data.length) ∧ data.length < 2 ^ 16
  | .readEepromIsp size => size ≠ none
  | .readFuseIsp cmds => cmds ≠ none
  | .programLockIsp lockByte => lockByte ≠ none
  | .readLockIsp => True
  | .readSignatureIsp index => index ≠ none
  | .spiMulti tx0 index => tx0 ≠ none ∧ (tx0 = some 0x30 → index ≠ none)
  | .unknown _ => True

/-- An operand byte the command reads lies at or above LEN: its payload is shorter than MINLEN (30_encoding R86, R87). -/
def operandAbsent : Instr → Prop
  | .signOn => False
  | .setParameter => False
  | .getParameter id => id = none
  | .loadAddress word => word = none
  | .enterProgmodeIsp => False
  | .leaveProgmodeIsp => False
  | .chipEraseIsp => False
  | .programFlashIsp size _ => size = none
  | .readFlashIsp size => size = none
  | .programEepromIsp size _ => size = none
  | .readEepromIsp size => size = none
  | .readFuseIsp cmds => cmds = none
  | .programLockIsp lockByte => lockByte = none
  | .readLockIsp => False
  | .readSignatureIsp index => index = none
  | .spiMulti tx0 index => tx0 = none ∨ (tx0 = some 0x30 ∧ index = none)
  | .unknown _ => False

/-- MINLEN of a payload's command: the last column of 30_encoding R87, and 1 for a code that is not in its table. The two
programming commands have their first bound here; `malformedPayload` has the second, 10 + size. -/
def minLen (p : List Byte) : Nat :=
  match (p.headD 0).toNat with
  | 0x03 => 2
  | 0x06 => 5
  | 0x13 => 3
  | 0x14 => 3
  | 0x15 => 3
  | 0x16 => 3
  | 0x18 => 4
  | 0x19 => 5
  | 0x1B => 5
  | 0x1D => if p[4]? = some 0x30 then 7 else 5
  | _ => 1

/-- The number `(BUF[1] << 8) | BUF[2]` (30_encoding R88). -/
def sizeNumber (p : List Byte) : Nat := 256 * (p.getD 1 0).toNat + (p.getD 2 0).toNat

/-- The malformed payloads of known commands, in the words of 41_dispatch R141: LEN is the payload's length, BUF its bytes. -/
def malformedPayload (c : Config) (addr : Addr) (p : List Byte) : Prop :=
  p.length < minLen p ∨
    match (p.headD 0).toNat with
    | 0x13 => sizeNumber p = 0 ∨ sizeNumber p % 2 = 1 ∨ addr.toNat % 2 = 1 ∨ p.length < 10 + sizeNumber p
    | 0x14 => sizeNumber p = 0 ∨ sizeNumber p % 2 = 1 ∨ c.cap < sizeNumber p + 3
    | 0x15 => sizeNumber p = 0 ∨ p.length < 10 + sizeNumber p
    | 0x16 => sizeNumber p = 0 ∨ c.cap < sizeNumber p + 3
    | _ => False

/-- The BUF indices the command reads: column "read" of 30_encoding R87. LOAD_ADDRESS has all four address bytes in either
width, although R87 lists 0, 3 and 4 alone for W = 16: the instruction holds all four (log entry 16), and its meaning
ignores the first two then. -/
def readIndices : Instr → List Nat
  | .signOn => [0]
  | .setParameter => [0]
  | .getParameter _ => [0, 1]
  | .loadAddress _ => [0, 1, 2, 3, 4]
  | .enterProgmodeIsp => [0]
  | .leaveProgmodeIsp => [0]
  | .chipEraseIsp => [0]
  | .programFlashIsp _ data => [0, 1, 2] ++ (List.range data.length).map (10 + ·)
  | .readFlashIsp _ => [0, 1, 2]
  | .programEepromIsp _ data => [0, 1, 2] ++ (List.range data.length).map (10 + ·)
  | .readEepromIsp _ => [0, 1, 2]
  | .readFuseIsp _ => [0, 2, 3]
  | .programLockIsp _ => [0, 4]
  | .readLockIsp => [0]
  | .readSignatureIsp _ => [0, 4]
  | .spiMulti tx0 _ => if tx0 = some 0x30 then [0, 4, 6] else [0, 4]
  | .unknown _ => [0]

/-- How many bytes the command transfers, by which it advances ADDR: its size operand for the four memory commands when
it is not malformed, else 0 (42_memory R171 to R174, R177). -/
def transferredBytes : Instr → Nat
  | .programFlashIsp (some n) _ => n.toNat
  | .readFlashIsp (some n) => n.toNat
  | .programEepromIsp (some n) _ => n.toNat
  | .readEepromIsp (some n) => n.toNat
  | .programFlashIsp none _ => 0
  | .readFlashIsp none => 0
  | .programEepromIsp none _ => 0
  | .readEepromIsp none => 0
  | .signOn => 0
  | .setParameter => 0
  | .getParameter _ => 0
  | .loadAddress _ => 0
  | .enterProgmodeIsp => 0
  | .leaveProgmodeIsp => 0
  | .chipEraseIsp => 0
  | .readFuseIsp _ => 0
  | .programLockIsp _ => 0
  | .readLockIsp => 0
  | .readSignatureIsp _ => 0
  | .spiMulti _ _ => 0
  | .unknown _ => 0

/-! ### What a completed command leaves -/

/-- From `s` to `t` a command answered with `payload`: the reply frame on TX (44_reply_encoder R220), SEQ + 1 (R224), the
next state by LEAVE (R225, R226), the payload in BUF and its length in RLEN (30_encoding R90), and the registers no
command writes unchanged (41_dispatch R149, 44_reply_encoder R221). RLEN is 16 bits wide (log entry 13). -/
structure Replied (s t : State) (payload : List Byte) : Prop where
  tx : t.tx = s.tx ++ frameBytes s.seq t.rlen (payload.take t.rlen.toNat)
  seq : t.seq = s.seq + 1
  control : t.control = if t.leave then .exited else .awaitStart
  exit : t.exit = (s.exit || t.leave)
  rlen : t.rlen = BitVec.ofNat 16 payload.length
  bufFront : t.buf.take payload.length = payload
  bufRest : t.buf.drop payload.length = s.buf.drop payload.length
  cfg : t.cfg = s.cfg
  ck : t.ck = s.ck
  len : t.len = s.len
  idx : t.idx = s.idx
  rx : t.rx = s.rx
  losses : t.losses = s.losses

/-- `s1` differs from `s` only in ADDR, LEAVE, EPAGE and the memory subsystem: what a command may have done before it
replies. -/
structure Prepared (s s1 : State) : Prop where
  cfg : s1.cfg = s.cfg
  control : s1.control = s.control
  seq : s1.seq = s.seq
  ck : s1.ck = s.ck
  len : s1.len = s.len
  idx : s1.idx = s.idx
  buf : s1.buf = s.buf
  rlen : s1.rlen = s.rlen
  tx : s1.tx = s.tx
  exit : s1.exit = s.exit
  rx : s1.rx = s.rx
  losses : s1.losses = s.losses

/-- ADDR, LEAVE and EPAGE are unchanged. -/
structure SameSession (s t : State) : Prop where
  addr : t.addr = s.addr
  leave : t.leave = s.leave
  epage : t.epage = s.epage

/-- The memory subsystem holds the same bytes everywhere; the requests `rs` were made of it. -/
structure OnlyAsked (s t : State) (rs : List PortRequest) : Prop where
  flash : t.port.flash = s.port.flash
  eeprom : t.port.eeprom = s.port.eeprom
  sig : t.port.sig = s.port.sig
  fuses : t.port.fuses = s.port.fuses
  log : t.port.log = s.port.log ++ rs

/-- Byte address k of a transfer that starts at ADDR (20_memory R79). -/
def transferAddr (s : State) (k : Nat) : Nat := (s.addr.toNat + k) % 2 ^ s.cfg.addrWidth.bits

/-- The last of the first `k` words of a transfer that starts at ADDR that lies below the boundary: the one PROGRAM_FLASH_ISP
wrote last, when it comes to word `k` (42_memory R171). -/
def lastBelow (s : State) : Nat → Option Nat
  | 0 => none
  | k + 1 => if transferAddr s (2 * k) < s.cfg.bootBoundary then some k else lastBelow s k

/-- Word `k` of PROGRAM_FLASH_ISP has its page erased first: it is the command's first word below the boundary, or the one
before it lies on another page (42_memory R171, EPAGE). -/
def eraseDue (s : State) (k : Nat) : Bool :=
  match lastBelow s k with
  | none => true
  | some j => transferAddr s (2 * j) / s.cfg.pageSize != transferAddr s (2 * k) / s.cfg.pageSize

/-- The requests PROGRAM_FLASH_ISP makes for word `k` of its data: at or above the boundary none; below it the erase of the
word's page if that is due, then the write of the word at its address, low byte first (42_memory R171). -/
def wordRequests (s : State) (data : List Byte) (k : Nat) : List PortRequest :=
  if s.cfg.bootBoundary ≤ transferAddr s (2 * k) then []
  else
    (if eraseDue s k then
      [.eraseFlash (BitVec.ofNat 32 (transferAddr s (2 * k) - transferAddr s (2 * k) % s.cfg.pageSize))] else [])
      ++ [.writeFlash (BitVec.ofNat 32 (transferAddr s (2 * k)))
        (BitVec.ofNat 16 (256 * (data.getD (2 * k + 1) 0).toNat + (data.getD (2 * k) 0).toNat))]

/-- The requests self-protection allows: an erase of a whole page below the boundary, a write of a whole word below it
(20_memory R52, R53, R61). -/
def requestAllowed (c : Config) : PortRequest → Prop
  | .eraseFlash p => p.toNat < c.bootBoundary ∧ p.toNat + c.pageSize ≤ c.bootBoundary ∧ p.toNat % c.pageSize = 0
  | .writeFlash a _ => a.toNat < c.bootBoundary ∧ a.toNat + 1 < c.bootBoundary ∧ a.toNat % 2 = 0
  | .readFlash _ => True
  | .writeEeprom _ _ => True
  | .readEeprom _ => True
  | .readSig _ => True
  | .readFuse _ => True
  | .programLock _ => True

/-! ### Runs -/

/-- The block is in one of the seven receive states (10_state R30). -/
def Control.receiving : Control → Prop
  | .awaitStart => True
  | .awaitSequence => True
  | .awaitLengthHigh => True
  | .awaitLengthLow => True
  | .awaitToken => True
  | .awaitPayload => True
  | .awaitChecksum => True
  | .frameReady => False
  | .exited => False

/-- Waiting: in a receive state with the input exhausted (70_reset R286). -/
def State.Waiting (s : State) : Prop := s.control.receiving ∧ s.rx = []

/-- `n` steps, each answering a next state. -/
def steps : Nat → State → Host.Outcome State Fault Refusal
  | 0, s => .next s
  | n + 1, s =>
    match step s with
    | .next t => steps n t
    | .fault f => .fault f
    | .refused r => .refused r

/-- Command `i` runs from `s` to `t`: by itself, or as the execute step of the frame that carries it. -/
def Executes (i : Instr) (s t : State) : Prop :=
  exec i s = .next t ∨ (s.control = .frameReady ∧ decode s.cfg s.payload = .ok i ∧ step s = .next t)

/-- `Transfers s n t`: commands ran one after another from `s` to `t`, with any steps of the parser between them, none of
them a LOAD_ADDRESS with an address, and those not malformed transferred `n` bytes in all (42_memory R177). Every run of
the machine without such a LOAD_ADDRESS is of this form. -/
inductive Transfers : State → Nat → State → Prop where
  | done (s : State) : Transfers s 0 s
  | transfer (i : Instr) (s t u : State) (n : Nat) (good : ¬ isMalformed s.cfg s.addr i)
      (noLoad : ∀ w, i ≠ .loadAddress (some w)) (run : Executes i s t) (rest : Transfers t n u) :
      Transfers s (transferredBytes i + n) u
  | failed (i : Instr) (s t u : State) (n : Nat) (bad : isMalformed s.cfg s.addr i)
      (run : Executes i s t) (rest : Transfers t n u) : Transfers s n u
  | receive (s t u : State) (n : Nat) (between : s.control ≠ .frameReady) (run : step s = .next t)
      (rest : Transfers t n u) : Transfers s n u

/-! ### Invariants -/

/-- What the parser's LEN and IDX satisfy in each control state (10_state R37, 40_frame_parser R115, R116). -/
def lengthsOk (s : State) : Prop :=
  match s.control with
  | .awaitStart => True
  | .awaitSequence => True
  | .awaitLengthHigh => True
  | .awaitLengthLow => loByte s.len = 0
  | .awaitToken => True
  | .awaitPayload => 1 ≤ s.len.toNat ∧ s.len.toNat ≤ s.cfg.cap ∧ s.idx.toNat < s.len.toNat
  | .awaitChecksum => 1 ≤ s.len.toNat ∧ s.len.toNat ≤ s.cfg.cap ∧ s.idx = s.len
  | .frameReady => 1 ≤ s.len.toNat ∧ s.len.toNat ≤ s.cfg.cap
  | .exited => True

/-- The machine's invariant: a legal instance, a buffer of P_CAP bytes, a W-bit address, memories in canonical form that
fit their arrays, LEAVE and EXIT exactly in Exited, lengths as the parser keeps them, and no Timeout in the input of an
instance that has none. -/
structure Inv (s : State) : Prop where
  legal : configLegal s.cfg = true
  buffer : s.buf.length = s.cfg.cap
  address : s.addr.toNat < 2 ^ s.cfg.addrWidth.bits
  flashForm : s.port.flash.wf = true
  flashFits : ∀ x ∈ s.port.flash, x.1 < s.cfg.flashSize
  eepromForm : s.port.eeprom.wf = true
  eepromFits : ∀ x ∈ s.port.eeprom, x.1 < s.cfg.eepromSize
  leaveExit : s.leave = s.exit
  exitControl : s.exit = true ↔ s.control = .exited
  lengths : lengthsOk s
  input : s.cfg.timeoutEnabled = false → RxEvent.timeout ∉ s.rx

/-- CK is the XOR of the frame's bytes taken so far (40_frame_parser R111 to R116): with the invariant it makes the
checksum law R123 a law of one step. -/
def ckCoversFrame (s : State) : Prop :=
  match s.control with
  | .awaitStart => True
  | .awaitSequence => s.ck = START
  | .awaitLengthHigh => s.ck = xorAll [START, s.seq]
  | .awaitLengthLow => s.ck = xorAll [START, s.seq, hiByte s.len]
  | .awaitToken => s.ck = xorAll [START, s.seq, hiByte s.len, loByte s.len]
  | .awaitPayload => s.ck = xorAll (frameHeader s.seq s.len ++ s.buf.take s.idx.toNat)
  | .awaitChecksum => s.ck = xorAll (frameHeader s.seq s.len ++ s.payload)
  | .frameReady => s.ck = xorAll (frameHeader s.seq s.len ++ s.payload)
  | .exited => True

end Sys2Proof.Machine
end

