-- ==== Sys2Proof/Certificates/Slice0/Obligations.lean ====
section
/-! DEFINITION. The statements about the Gen7 STK500v2 engine, for the provers. Each docstring names the rules of spec/ it
formalises; OBLIGATIONS.json lists them. A statement that holds for the reference port only says so in a hypothesis. -/

open Sys2Proof Sys2Proof.Machine

/-! ### Encoding -/

/-- Payloads written out from 30_encoding R87 decode to the commands they stand for, one of every family; 0x19 is unknown
where lock programming is absent (R97). -/
def Obligations.SpecPayloadsDecode : Prop :=
  decode Config.test [0x01] = .ok .signOn
    ∧ decode Config.test [0x03, 0x90] = .ok (.getParameter (some 0x90))
    ∧ decode Config.test [0x06, 0x80, 0x12, 0x00, 0x10] = .ok (.loadAddress (some 0x80120010))
    ∧ decode Config.test [0x13, 0x00, 0x02, 0xC8, 0x0A, 0x40, 0x4C, 0x20, 0x00, 0x00, 0x11, 0x22]
        = .ok (.programFlashIsp (some 2) [0x11, 0x22])
    ∧ decode Config.test [0x14, 0x01, 0x1A, 0x20] = .ok (.readFlashIsp (some 282))
    ∧ decode Config.test [0x18, 0x00, 0x50, 0x08, 0x00, 0x00] = .ok (.readFuseIsp (some (0x50, 0x08)))
    ∧ decode Config.test [0x1D, 0x04, 0x04, 0x00, 0x30, 0x00, 0x02, 0x00]
        = .ok (.spiMulti (some 0x30) (some 0x02))
    ∧ decode { Config.test with lockProgEnabled := false } [0x19, 0xAC, 0xE0, 0x00, 0xCF] = .ok (.unknown 0x19)

/-- For every instance and every well-formed command, decoding its encoding gives it back, with every operand at every
value the encoding admits (30_encoding R87 to R89, R93 to R97). -/
def Obligations.DecodeOfEncode : Prop :=
  ∀ (c : Config) (i : Instr), i.wellFormed c = true → decode c (encode i) = .ok i

/-- Every payload a frame can carry decodes, and to a command that is well formed for the instance (30_encoding R83,
R102). -/
def Obligations.DecodedIsWellFormed : Prop :=
  ∀ (c : Config) (p : List Byte), configLegal c = true → 1 ≤ p.length → p.length ≤ c.maxLen →
    ∃ i, decode c p = .ok i ∧ i.wellFormed c = true

/-- A command whose operands are all there depends on no byte but those at its `readIndices`: another payload with the same
bytes there, whatever its other bytes and its length, decodes to the same command (R86, D37; 41_dispatch R152). Those are
the indices 30_encoding R87 lists as read, with one exception: for LOAD_ADDRESS all four address bytes are compared in
either width, although R87 lists 0, 3 and 4 alone for W = 16. That the first two are ignored then is `LoadAddressSetsAddr`'s
last clause (log entry 16). -/
def Obligations.UnreadBytesIgnored : Prop :=
  ∀ (c : Config) (p q : List Byte) (i : Instr),
    decode c p = .ok i → isComplete i → (∀ k ∈ readIndices i, q[k]? = p[k]?) → decode c q = .ok i

/-- A payload selects UNKNOWN exactly when its code is none of 30_encoding R96's table, or is 0x19 where lock programming
is absent (R97). -/
def Obligations.UnknownCodesExactly : Prop :=
  ∀ (c : Config) (code : Byte) (args : List Byte),
    decode c (code :: args) = .ok (.unknown code) ↔
      (code ∉ [0x01, 0x02, 0x03, 0x06, 0x10, 0x11, 0x12, 0x13, 0x14, 0x15, 0x16, 0x18, 0x19, 0x1A, 0x1B, 0x1D]
        ∨ (code = 0x19 ∧ c.lockProgEnabled = false))

/-! ### The step -/

/-- In FrameReady the step is `exec` of the command that BUF[0..LEN-1] decodes to (40_frame_parser R118, 41_dispatch
R140). Of the bytes the host sends meanwhile those the environment loses are gone; the others stay in the input, in the order
they were sent (70_reset R276; the form is the model's, log entry 8). -/
def Obligations.StepRunsDecodedCommand : Prop :=
  ∀ (s : State) (i : Instr), configLegal s.cfg = true → s.control = .frameReady →
    decode s.cfg (s.buf.take s.len.toNat) = .ok i →
    (s.losses = [] → step s = exec i s) ∧
    (∀ now later, s.losses = now :: later →
      step s = exec i { s with rx := dropLost now s.rx, losses := later })

/-- Parameters that break 00_scope R9 or R10 are refused in every state: they describe no instance. That the stop is this
refusal is the model's choice (log entry 12). -/
def Obligations.IllegalConfigurationRefused : Prop :=
  ∀ s : State,
    (s.cfg.cap < 12 ∨ s.cfg.pageSize < 2 ∨ (∀ k, s.cfg.pageSize ≠ 2 ^ k)
      ∨ s.cfg.bootBoundary % s.cfg.pageSize ≠ 0 ∨ s.cfg.flashSize % s.cfg.pageSize ≠ 0
      ∨ s.cfg.flashSize < s.cfg.bootBoundary ∨ 2 ^ s.cfg.addrWidth.bits < s.cfg.flashSize ∨ s.cfg.eepromSize = 0)
      ↔ step s = .refused .illegalConfiguration

/-- Waiting and Exited: no step is enabled, and the state stays as it is (40_frame_parser R110, R121). That such a state
steps to itself is the model's choice (log entries 6 and 7). -/
def Obligations.NoEnabledStepKeepsState : Prop :=
  ∀ s : State, configLegal s.cfg = true → (s.Waiting ∨ s.control = .exited) → step s = .next s

/-! ### The parser -/

/-- 40_frame_parser R111. -/
def Obligations.AwaitStartRule : Prop :=
  ∀ (s : State) (b : Byte) (rest : List RxEvent), configLegal s.cfg = true → s.control = .awaitStart →
    s.rx = .byte b :: rest →
    (b = 0x1B → step s = .next { s with rx := rest, ck := 0x1B, control := .awaitSequence }) ∧
    (b ≠ 0x1B → step s = .next { s with rx := rest, control := .awaitStart })

/-- 40_frame_parser R112. -/
def Obligations.AwaitSequenceRule : Prop :=
  ∀ (s : State) (b : Byte) (rest : List RxEvent), configLegal s.cfg = true → s.control = .awaitSequence →
    s.rx = .byte b :: rest →
    ((b = 1 ∨ b = s.seq) →
      step s = .next { s with rx := rest, seq := b, ck := s.ck ^^^ b, control := .awaitLengthHigh }) ∧
    (b ≠ 1 → b ≠ s.seq → step s = .next { s with rx := rest, control := .awaitStart })

/-- 40_frame_parser R113; R114, in every AwaitLengthLow state; and the two in a row: LEN becomes the big-endian number of
the two bytes (30_encoding R83), CK takes both. -/
def Obligations.LengthBytesRule : Prop :=
  (∀ (s : State) (b : Byte) (rest : List RxEvent), configLegal s.cfg = true → s.control = .awaitLengthHigh →
    s.rx = .byte b :: rest →
    step s = .next { s with
      rx := rest
      len := BitVec.ofNat 16 (256 * b.toNat)
      ck := s.ck ^^^ b
      control := .awaitLengthLow }) ∧
  (∀ (s : State) (b : Byte) (rest : List RxEvent), configLegal s.cfg = true → s.control = .awaitLengthLow →
    s.rx = .byte b :: rest →
    step s = .next { s with
      rx := rest
      len := s.len ||| BitVec.ofNat 16 b.toNat
      ck := s.ck ^^^ b
      control := .awaitToken }) ∧
  (∀ (s : State) (hi lo : Byte) (rest : List RxEvent), configLegal s.cfg = true → s.control = .awaitLengthHigh →
    s.rx = .byte hi :: .byte lo :: rest →
    steps 2 s = .next { s with
      rx := rest
      len := BitVec.ofNat 16 (256 * hi.toNat + lo.toNat)
      ck := s.ck ^^^ hi ^^^ lo
      control := .awaitToken })

/-- 40_frame_parser R115; the length check is the spec's own (D14). -/
def Obligations.AwaitTokenRule : Prop :=
  ∀ (s : State) (b : Byte) (rest : List RxEvent), configLegal s.cfg = true → s.control = .awaitToken →
    s.rx = .byte b :: rest →
    (b = 0x0E ∧ 1 ≤ s.len.toNat ∧ s.len.toNat ≤ s.cfg.cap →
      step s = .next { s with rx := rest, ck := s.ck ^^^ b, idx := 0, control := .awaitPayload }) ∧
    (¬ (b = 0x0E ∧ 1 ≤ s.len.toNat ∧ s.len.toNat ≤ s.cfg.cap) →
      step s = .next { s with rx := rest, control := .awaitStart })

/-- 40_frame_parser R116, for an index inside the buffer (the invariant says it always is; outside it the step stops: the
model's choice, log entry 14). -/
def Obligations.AwaitPayloadRule : Prop :=
  ∀ (s : State) (b : Byte) (rest : List RxEvent), configLegal s.cfg = true → s.control = .awaitPayload →
    s.rx = .byte b :: rest →
    (s.idx.toNat < s.cfg.cap →
      step s = .next { s with
        rx := rest
        buf := s.buf.set s.idx.toNat b
        ck := s.ck ^^^ b
        idx := s.idx + 1
        control := if s.idx + 1 = s.len then .awaitChecksum else .awaitPayload }) ∧
    (s.cfg.cap ≤ s.idx.toNat → step s = .fault (.bufferOverrun s.idx.toNat))

/-- 40_frame_parser R117. -/
def Obligations.AwaitChecksumRule : Prop :=
  ∀ (s : State) (b : Byte) (rest : List RxEvent), configLegal s.cfg = true → s.control = .awaitChecksum →
    s.rx = .byte b :: rest →
    (b = s.ck → step s = .next { s with rx := rest, control := .frameReady }) ∧
    (b ≠ s.ck → step s = .next { s with rx := rest, control := .awaitStart })

/-- 40_frame_parser R120, in each of the seven receive states; where P_TIMEOUT_ENABLED is false the event cannot come
(10_state R42) and the step is refused (the model's choice, log entry 9). -/
def Obligations.TimeoutRule : Prop :=
  ∀ (s : State) (rest : List RxEvent), configLegal s.cfg = true → s.control.receiving → s.rx = .timeout :: rest →
    (s.cfg.timeoutEnabled = true →
      step s = .next { s with rx := rest, leave := true, control := .exited, exit := true }) ∧
    (s.cfg.timeoutEnabled = false → step s = .refused .timeoutNotEnabled)

/-- A valid frame (30_encoding R80 to R84) taken from AwaitStart reaches FrameReady after exactly its LEN + 6 bytes, with
its sequence byte in SEQ and its payload in BUF[0..LEN-1]; nothing is sent and no request is made (40_frame_parser R111 to
R117, R124, R125). -/
def Obligations.ValidFrameReachesFrameReady : Prop :=
  ∀ (s : State) (seq : Byte) (payload : List Byte) (rest : List RxEvent),
    configLegal s.cfg = true → s.buf.length = s.cfg.cap → s.control = .awaitStart →
    (seq = 1 ∨ seq = s.seq) → 1 ≤ payload.length → payload.length ≤ s.cfg.maxLen →
    s.rx = (encodeFrame seq payload).map RxEvent.byte ++ rest →
    ∃ t, steps (payload.length + 6) s = .next t ∧ t.control = .frameReady ∧ t.seq = seq
      ∧ t.len.toNat = payload.length ∧ t.payload = payload ∧ t.rx = rest ∧ t.tx = s.tx ∧ t.port = s.port
      ∧ t.addr = s.addr ∧ t.cfg = s.cfg

/-- The same frame with any wrong checksum byte: after its LEN + 6 bytes the parser is back in AwaitStart, nothing was
sent, no request was made, and SEQ keeps the accepted sequence byte (40_frame_parser R112, R117; 90_conflicts C6). -/
def Obligations.CorruptChecksumIsSilent : Prop :=
  ∀ (s : State) (seq bad : Byte) (payload : List Byte) (rest : List RxEvent),
    configLegal s.cfg = true → s.buf.length = s.cfg.cap → s.control = .awaitStart →
    (seq = 1 ∨ seq = s.seq) → 1 ≤ payload.length → payload.length ≤ s.cfg.maxLen →
    bad ≠ xorAll (frameHeader seq (BitVec.ofNat 16 payload.length) ++ payload) →
    s.rx = (frameHeader seq (BitVec.ofNat 16 payload.length) ++ payload ++ [bad]).map RxEvent.byte ++ rest →
    ∃ t, steps (payload.length + 6) s = .next t ∧ t.control = .awaitStart ∧ t.seq = seq ∧ t.rx = rest
      ∧ t.tx = s.tx ∧ t.port = s.port ∧ t.addr = s.addr ∧ t.leave = s.leave

/-- In every reachable shape of the parser CK is the XOR of the frame bytes taken so far; every step keeps that
(40_frame_parser R111 to R117). -/
def Obligations.ChecksumCoverageKept : Prop :=
  ∀ s t : State, Inv s → ckCoversFrame s → step s = .next t → ckCoversFrame t

/-- Checksum law: a step that enters FrameReady took a byte equal to the XOR of START, the sequence byte, both length
bytes, TOKEN and BUF[0..LEN-1] (40_frame_parser R123). -/
def Obligations.ReadyFrameChecksumLaw : Prop :=
  ∀ s t : State, Inv s → ckCoversFrame s → s.control ≠ .frameReady → step s = .next t → t.control = .frameReady →
    ∃ b rest, s.rx = .byte b :: rest
      ∧ b = xorAll ([START, t.seq, hiByte t.len, loByte t.len, TOKEN] ++ t.buf.take t.len.toNat)

/-- A step of the parser, a framing error included, sends nothing, makes no port request and leaves the registers it does
not own alone (40_frame_parser R122, 60_exceptions R241, R251). -/
def Obligations.ReceiveStepsAreSilent : Prop :=
  ∀ s t : State, s.control ≠ .frameReady → step s = .next t →
    t.tx = s.tx ∧ t.port = s.port ∧ t.addr = s.addr ∧ t.rlen = s.rlen ∧ t.epage = s.epage ∧ t.cfg = s.cfg
      ∧ t.losses = s.losses

/-- Each event is consumed by one step: a receive step takes exactly the first, and Exited takes none; an execute step takes
none and loses at most the bytes the environment loses meanwhile. So no step reorders the input or puts anything into it
(40_frame_parser R110, R118, R121, R126; 70_reset R276; the form of the losses is the model's, log entry 8). -/
def Obligations.EachEventConsumedOnce : Prop :=
  ∀ s t : State, step s = .next t →
    (s.control.receiving → t.rx = s.rx.tail) ∧
    (s.control = .exited → t = s) ∧
    (s.control = .frameReady → t.rx = dropLost (s.losses.headD []) s.rx) ∧
    t.rx.Sublist s.rx

/-! ### Reset and the invariant -/

/-- What reset leaves of the values the spec gives, for every instance and every memory subsystem; no request has been
made of it and nothing of it has changed (70_reset R270, R271; 10_state R47). That State.reset is the reset of the test
configuration is the model's choice (log entry 1). -/
def Obligations.ResetValues : Prop :=
  ∀ (c : Config) (p : Port),
    (State.resetWith c p).control = .awaitStart ∧ (State.resetWith c p).seq = c.seqReset
      ∧ (State.resetWith c p).addr = 0 ∧ (State.resetWith c p).leave = false ∧ (State.resetWith c p).epage = none
      ∧ (State.resetWith c p).tx = [] ∧ (State.resetWith c p).exit = false ∧ (State.resetWith c p).port = p
      ∧ (State.resetWith c p).cfg = c ∧ State.reset = State.resetWith Config.test Port.test

/-- The invariant and the checksum coverage hold after reset of every legal instance in front of every memory subsystem
whose contents are canonical and fit its arrays. -/
def Obligations.InvariantAtReset : Prop :=
  Inv State.reset ∧
  ∀ (c : Config) (p : Port), configLegal c = true → p.flash.wf = true → p.eeprom.wf = true →
    (∀ x ∈ p.flash, x.1 < c.flashSize) → (∀ x ∈ p.eeprom, x.1 < c.eepromSize) →
    Inv (State.resetWith c p) ∧ ckCoversFrame (State.resetWith c p)

/-- Every step keeps the invariant (10_state R35, R37, R38, R41; 20_memory R73, R78; 40_frame_parser R115, R116). -/
def Obligations.InvariantKept : Prop :=
  ∀ s t : State, Inv s → step s = .next t → Inv t

/-- From a state with the invariant the machine stops only where the spec has it stop: MalformedOperand under the `fault`
policy, PortFault of the reference port for a request outside its arrays, each in an execute step and without a reply. Under
`reply_failed` with a subsystem that answers every request it never stops (00_scope R16; 60_exceptions R244 to R246;
70_reset R286). -/
def Obligations.OnlyNamedStops : Prop :=
  ∀ s : State, Inv s →
    (∃ t, step s = .next t)
    ∨ (s.control = .frameReady ∧ s.cfg.malformedPolicy = .fault ∧ ∃ cmd, step s = .fault (.malformedOperand cmd))
    ∨ (s.control = .frameReady ∧ s.cfg.portKind = .reference
        ∧ ∃ r u, requestInRange s.cfg r = false ∧ step s = .fault (.portFault r u) ∧ u.tx = s.tx)

/-! ### The reply encoder and the frame of every command -/

/-- Whatever the command, when it completes: exactly one frame is sent, [START, SEQ, RLEN, TOKEN, BUF[0..RLEN-1],
checksum]; SEQ is incremented; the block is in Exited with EXIT when LEAVE is set, else in AwaitStart; BUF[0], CK, LEN,
IDX, the bytes above RLEN and the input are unchanged (44_reply_encoder R220 to R227; 41_dispatch R149). -/
def Obligations.EveryCommandEndsInOneReply : Prop :=
  ∀ (i : Instr) (s t : State), s.buf ≠ [] → exec i s = .next t →
    ∃ payload, Replied s t payload ∧ payload.head? = s.buf.head? ∧ 2 ≤ payload.length

/-- The reply is a frame the block's own parser accepts, from any AwaitStart state whose SEQ is the reply's or if the reply
carries 1 (44_reply_encoder R228). P_CAP within RLEN's 16 bits (log entry 13). -/
def Obligations.ReplyIsAcceptedByParser : Prop :=
  ∀ (i : Instr) (s t u : State) (sent : List Byte), configLegal s.cfg = true → s.cfg.cap ≤ 0xFFFF → s.buf ≠ [] →
    exec i s = .next t → t.tx = s.tx ++ sent →
    u.cfg = s.cfg → u.buf.length = u.cfg.cap → u.control = .awaitStart → (s.seq = 1 ∨ s.seq = u.seq) →
    u.rx = sent.map RxEvent.byte →
    ∃ v, steps sent.length u = .next v ∧ v.control = .frameReady ∧ v.payload = t.buf.take t.rlen.toNat

/-- The reply's length is between 2 and P_CAP and its status byte is STATUS_OK or STATUS_FAILED, no other (10_state R39;
30_encoding R92, R103). P_CAP within RLEN's 16 bits (log entry 13). -/
def Obligations.ReplyLengthAndStatus : Prop :=
  ∀ (i : Instr) (s t : State), configLegal s.cfg = true → s.cfg.cap ≤ 0xFFFF → s.buf ≠ [] → exec i s = .next t →
    2 ≤ t.rlen.toNat ∧ t.rlen.toNat ≤ s.cfg.cap ∧ (t.buf[1]? = some 0x00 ∨ t.buf[1]? = some 0xC0)

/-- Who writes what: of all commands only PROGRAM_FLASH_ISP changes flash and EPAGE, only PROGRAM_EEPROM_ISP changes EEPROM,
only PROGRAM_LOCK_ISP changes a fuse or lock byte and of them only LOCK, none changes the signature; only LOAD_ADDRESS and
the four memory commands change ADDR, only LEAVE_PROGMODE_ISP changes LEAVE (10_state R35, R36, R40; 20_memory R50). -/
def Obligations.OnlyItsCommandWrites : Prop :=
  ∀ (i : Instr) (s t : State), exec i s = .next t →
    (t.port.flash = s.port.flash ∨ ∃ n data, i = .programFlashIsp n data) ∧
    (t.epage = s.epage ∨ ∃ n data, i = .programFlashIsp n data) ∧
    (t.port.eeprom = s.port.eeprom ∨ ∃ n data, i = .programEepromIsp n data) ∧
    (t.port.fuses = s.port.fuses ∨ ∃ v, i = .programLockIsp v) ∧
    t.port.fuses.low = s.port.fuses.low ∧ t.port.fuses.high = s.port.fuses.high ∧
    t.port.fuses.ext = s.port.fuses.ext ∧ t.port.sig = s.port.sig ∧
    (t.addr = s.addr ∨ (∃ w, i = .loadAddress w) ∨ (∃ n data, i = .programFlashIsp n data)
      ∨ (∃ n data, i = .programEepromIsp n data) ∨ (∃ n, i = .readFlashIsp n) ∨ ∃ n, i = .readEepromIsp n) ∧
    (t.leave = s.leave ∨ i = .leaveProgmodeIsp)

/-! ### The session commands -/

/-- SIGN_ON completes in every state that holds its code, with the identification string (41_dispatch R143). -/
def Obligations.SignOnReplies : Prop :=
  ∀ s : State, s.buf.head? = some 0x01 →
    ∃ t, exec .signOn s = .next t
      ∧ Replied s t [0x01, 0x00, 0x08, 0x41, 0x56, 0x52, 0x49, 0x53, 0x50, 0x5F, 0x32]
      ∧ SameSession s t ∧ t.port = s.port

/-- SET_PARAMETER, ENTER_PROGMODE_ISP and CHIP_ERASE_ISP complete in every state that holds their code: status-OK, and
nothing stored, entered or erased; no port request (41_dispatch R144, R146, R148). -/
def Obligations.NoOpCommandsReplyOk : Prop :=
  ∀ s : State,
    (s.buf.head? = some 0x02 →
      ∃ t, exec .setParameter s = .next t ∧ Replied s t [0x02, 0x00] ∧ SameSession s t ∧ t.port = s.port) ∧
    (s.buf.head? = some 0x10 →
      ∃ t, exec .enterProgmodeIsp s = .next t ∧ Replied s t [0x10, 0x00] ∧ SameSession s t ∧ t.port = s.port) ∧
    (s.buf.head? = some 0x12 →
      ∃ t, exec .chipEraseIsp s = .next t ∧ Replied s t [0x12, 0x00] ∧ SameSession s t ∧ t.port = s.port)

/-- GET_PARAMETER with an id completes with the table's value, or with the default for an id not in the table
(41_dispatch R145; the default is the spec's own, D6). -/
def Obligations.GetParameterReplies : Prop :=
  ∀ (s : State) (id : Byte), s.buf.head? = some 0x03 →
    ∃ t value, exec (.getParameter (some id)) s = .next t ∧ Replied s t [0x03, 0x00, value]
      ∧ (∀ v, s.cfg.paramTable.lookup id = some v → value = v)
      ∧ (s.cfg.paramTable.lookup id = none → value = s.cfg.paramDefault)
      ∧ SameSession s t ∧ t.port = s.port

/-- LEAVE_PROGMODE_ISP completes with status-OK. With P_LEAVE_ENABLED it sets LEAVE and the block is in Exited with EXIT
after the reply; without it LEAVE is unchanged (41_dispatch R147, 44_reply_encoder R226). -/
def Obligations.LeaveProgmodeReplies : Prop :=
  ∀ s : State, s.buf.head? = some 0x11 →
    ∃ t, exec .leaveProgmodeIsp s = .next t ∧ Replied s t [0x11, 0x00]
      ∧ (s.cfg.leaveEnabled = true → t.leave = true ∧ t.control = .exited ∧ t.exit = true)
      ∧ (s.cfg.leaveEnabled = false → t.leave = s.leave)
      ∧ t.addr = s.addr ∧ t.epage = s.epage ∧ t.port = s.port

/-- UNKNOWN completes with the received code and status-FAILED, whatever P_MALFORMED_POLICY is, and has no other effect
(41_dispatch R150; 30_encoding R97). -/
def Obligations.UnknownRepliesFailed : Prop :=
  ∀ (s : State) (code : Byte), s.buf.head? = some code →
    ∃ t, exec (.unknown code) s = .next t ∧ Replied s t [code, 0xC0] ∧ SameSession s t ∧ t.port = s.port

/-- A malformed command under `reply_failed` replies [cmd, 0xC0], makes no port request and writes neither ADDR nor LEAVE
(41_dispatch R141, R142: the checks are the spec's own, D7). -/
def Obligations.MalformedRepliesFailed : Prop :=
  ∀ (i : Instr) (s : State), s.cfg.malformedPolicy = .replyFailed → isMalformed s.cfg s.addr i →
    s.buf.head? = some (commandCode i) →
    ∃ t, exec i s = .next t ∧ Replied s t [commandCode i, 0xC0] ∧ SameSession s t ∧ t.port = s.port

/-- A malformed command under `fault` raises MalformedOperand with its code; a command that is not malformed never does
(60_exceptions R244, D7). -/
def Obligations.MalformedFaultsUnderFaultPolicy : Prop :=
  ∀ (i : Instr) (s : State), s.cfg.malformedPolicy = .fault →
    (isMalformed s.cfg s.addr i → exec i s = .fault (.malformedOperand (commandCode i))) ∧
    (¬ isMalformed s.cfg s.addr i → ∀ cmd, exec i s ≠ .fault (.malformedOperand cmd))

/-! ### The address and memory commands -/

/-- LOAD_ADDRESS completes with ADDR = twice the word address modulo 2^W; with W = 16 only the last two address bytes count,
and the others change nothing at all (42_memory R170; 30_encoding R87, R89; 20_memory R79). -/
def Obligations.LoadAddressSetsAddr : Prop :=
  ∀ (s : State) (word : BitVec 32), s.buf.head? = some 0x06 →
    (∃ t, exec (.loadAddress (some word)) s = .next t ∧ Replied s t [0x06, 0x00]
      ∧ (s.cfg.addrWidth = .w32 → t.addr.toNat = 2 * word.toNat % 2 ^ 32)
      ∧ (s.cfg.addrWidth = .w16 → t.addr.toNat = 2 * (word.toNat % 2 ^ 16) % 2 ^ 16)
      ∧ t.leave = s.leave ∧ t.epage = s.epage ∧ t.port = s.port) ∧
    (s.cfg.addrWidth = .w16 → ∀ other : BitVec 32, other.toNat % 2 ^ 16 = word.toNat % 2 ^ 16 →
      exec (.loadAddress (some other)) s = exec (.loadAddress (some word)) s)

/-- PROGRAM_FLASH_ISP that is not malformed always completes on a legal instance, whatever its range: status-OK, ADDR
advanced by size modulo 2^W; EEPROM, signature and fuses unchanged; and every flash byte at or above the boundary, or on a
page no transferred word lies on, is unchanged (42_memory R171, R177; 20_memory R61). -/
def Obligations.ProgramFlashCompletes : Prop :=
  ∀ (s : State) (n : Half) (data : List Byte), configLegal s.cfg = true →
    s.addr.toNat < 2 ^ s.cfg.addrWidth.bits → ¬ isMalformed s.cfg s.addr (.programFlashIsp (some n) data) →
    s.buf.head? = some 0x13 →
    ∃ t, exec (.programFlashIsp (some n) data) s = .next t ∧ Replied s t [0x13, 0x00]
      ∧ t.addr.toNat = (s.addr.toNat + n.toNat) % 2 ^ s.cfg.addrWidth.bits ∧ t.leave = s.leave
      ∧ t.port.eeprom = s.port.eeprom ∧ t.port.sig = s.port.sig ∧ t.port.fuses = s.port.fuses
      ∧ ∀ a, (s.cfg.bootBoundary ≤ a ∨ ∀ k < n.toNat, transferAddr s k / s.cfg.pageSize ≠ a / s.cfg.pageSize) →
          t.port.flash.read a = s.port.flash.read a

/-- What PROGRAM_FLASH_ISP leaves in the reference port's flash: each transferred byte below the boundary at its address; the
other bytes of the pages it wrote erased (42_memory R171; 20_memory R64, R74, R75). The transfer may wrap past 2^W as long
as it does not come back to the page it started on. -/
def Obligations.ProgramFlashContents : Prop :=
  ∀ (s t : State) (n : Half) (data : List Byte), configLegal s.cfg = true → s.cfg.portKind = .reference →
    s.port.flash.wf = true → s.addr.toNat < 2 ^ s.cfg.addrWidth.bits →
    ¬ isMalformed s.cfg s.addr (.programFlashIsp (some n) data) →
    s.addr.toNat % s.cfg.pageSize + n.toNat ≤ 2 ^ s.cfg.addrWidth.bits →
    exec (.programFlashIsp (some n) data) s = .next t →
    (∀ k < n.toNat, transferAddr s k < s.cfg.bootBoundary →
      data[k]? = some (t.port.flash.read (transferAddr s k))) ∧
    (∀ a < s.cfg.bootBoundary, (∃ k < n.toNat, transferAddr s k / s.cfg.pageSize = a / s.cfg.pageSize) →
      (∀ k < n.toNat, transferAddr s k ≠ a) → t.port.flash.read a = s.cfg.erasedByte)

/-- The requests PROGRAM_FLASH_ISP makes of either port, whatever its range: word after word, for each word below the boundary
the erase of its page when that is due and then the write of the word, and none for a word at or above the boundary
(42_memory R171). When the transfer does not come back to its first page, each page it writes into is erased exactly once,
and before that word (20_memory R53; 90_conflicts C8). -/
def Obligations.ProgramFlashErasesEachPageOnce : Prop :=
  ∀ (s t : State) (n : Half) (data : List Byte), configLegal s.cfg = true →
    s.addr.toNat < 2 ^ s.cfg.addrWidth.bits → ¬ isMalformed s.cfg s.addr (.programFlashIsp (some n) data) →
    exec (.programFlashIsp (some n) data) s = .next t →
    t.port.log = s.port.log ++ (List.range (n.toNat / 2)).flatMap (wordRequests s data) ∧
    (s.addr.toNat % s.cfg.pageSize + n.toNat ≤ 2 ^ s.cfg.addrWidth.bits →
      ∃ rs, t.port.log = s.port.log ++ rs
        ∧ (∀ r ∈ rs, (∃ p, r = .eraseFlash p) ∨ ∃ a w, r = .writeFlash a w)
        ∧ (∀ p, rs.count (.eraseFlash p) ≤ 1)
        ∧ (∀ before a w after, rs = before ++ [.writeFlash a w] ++ after →
            .eraseFlash (BitVec.ofNat 32 (a.toNat - a.toNat % s.cfg.pageSize)) ∈ before)
        ∧ (∀ p, .eraseFlash p ∈ rs →
            ∃ a w, .writeFlash a w ∈ rs ∧ a.toNat / s.cfg.pageSize = p.toNat / s.cfg.pageSize))

/-- A PROGRAM_FLASH_ISP that starts at or above the boundary and does not wrap makes no port request, replies status-OK and
advances ADDR by size (42_memory R176). -/
def Obligations.ProgramFlashAboveBoundary : Prop :=
  ∀ (s : State) (n : Half) (data : List Byte), ¬ isMalformed s.cfg s.addr (.programFlashIsp (some n) data) →
    s.cfg.bootBoundary ≤ s.addr.toNat → s.addr.toNat + n.toNat ≤ 2 ^ s.cfg.addrWidth.bits →
    s.buf.head? = some 0x13 →
    ∃ t, exec (.programFlashIsp (some n) data) s = .next t ∧ Replied s t [0x13, 0x00] ∧ t.port = s.port
      ∧ t.addr.toNat = (s.addr.toNat + n.toNat) % 2 ^ s.cfg.addrWidth.bits ∧ t.leave = s.leave

/-- READ_FLASH_ISP that is not malformed completes on either port (on the reference port with every word inside its flash): a
reply of size bytes between two status-OK bytes, ADDR advanced by size, nothing else changed, and its requests the word
reads, in order. The bytes are the reference port's, in address order; under draws they are free (log entry 3). No boundary
limits it and ADDR may be odd. RLEN is 16 bits wide: with size + 3 above 0xFFFF, which only P_CAP above 0xFFFF allows,
`Replied` sends the model's wrapped length (log entry 13). (42_memory R173; 20_memory R54, R64, R65, R75.) -/
def Obligations.ReadFlashReplies : Prop :=
  ∀ (s : State) (n : Half), s.addr.toNat < 2 ^ s.cfg.addrWidth.bits →
    ¬ isMalformed s.cfg s.addr (.readFlashIsp (some n)) →
    (s.cfg.portKind = .reference → ∀ j < n.toNat / 2, transferAddr s (2 * j) + 1 < s.cfg.flashSize) →
    s.buf.head? = some 0x14 →
    ∃ t data, exec (.readFlashIsp (some n)) s = .next t ∧ Replied s t ([0x14, 0x00] ++ data ++ [0x00])
      ∧ data.length = n.toNat
      ∧ (s.cfg.portKind = .reference →
          ∀ j < n.toNat / 2, data[2 * j]? = some (s.port.flash.read (transferAddr s (2 * j)))
            ∧ data[2 * j + 1]? = some (s.port.flash.read (transferAddr s (2 * j) + 1)))
      ∧ t.addr.toNat = (s.addr.toNat + n.toNat) % 2 ^ s.cfg.addrWidth.bits ∧ t.leave = s.leave ∧ t.epage = s.epage
      ∧ OnlyAsked s t ((List.range (n.toNat / 2)).map
          (fun j => .readFlash (BitVec.ofNat 32 (transferAddr s (2 * j)))))

/-- PROGRAM_EEPROM_ISP that is not malformed completes on either port (on the reference port with every byte inside its
EEPROM): status-OK, ADDR advanced by size, one write request a byte in order, all other memory unchanged. On the reference
port each data byte then stands at its address and every other EEPROM byte is unchanged (42_memory R172; 20_memory R55,
R76). -/
def Obligations.ProgramEepromWrites : Prop :=
  ∀ (s : State) (n : Half) (data : List Byte), s.addr.toNat < 2 ^ s.cfg.addrWidth.bits →
    ¬ isMalformed s.cfg s.addr (.programEepromIsp (some n) data) →
    (s.cfg.portKind = .reference → ∀ k < n.toNat, transferAddr s k < s.cfg.eepromSize) → s.buf.head? = some 0x15 →
    ∃ t, exec (.programEepromIsp (some n) data) s = .next t ∧ Replied s t [0x15, 0x00]
      ∧ (s.cfg.portKind = .reference → s.port.eeprom.wf = true →
          (∀ k < n.toNat, data[k]? = some (t.port.eeprom.read (transferAddr s k)))
            ∧ ∀ a, (∀ k < n.toNat, transferAddr s k ≠ a) → t.port.eeprom.read a = s.port.eeprom.read a)
      ∧ t.port.flash = s.port.flash ∧ t.port.sig = s.port.sig ∧ t.port.fuses = s.port.fuses
      ∧ t.port.log = s.port.log ++ (List.range n.toNat).map
          (fun k => .writeEeprom (BitVec.ofNat 32 (transferAddr s k)) (data.getD k 0))
      ∧ t.addr.toNat = (s.addr.toNat + n.toNat) % 2 ^ s.cfg.addrWidth.bits ∧ t.leave = s.leave ∧ t.epage = s.epage

/-- READ_EEPROM_ISP that is not malformed completes on either port (on the reference port with every byte inside its EEPROM): a
reply of size bytes between two status-OK bytes, ADDR advanced by size, nothing else changed, and its requests the byte
reads, in order. The bytes are the reference port's, in address order; under draws they are free (log entry 3). RLEN is 16
bits wide: with size + 3 above 0xFFFF, which only P_CAP above 0xFFFF allows, `Replied` sends the model's wrapped length (log
entry 13). (42_memory R174; 20_memory R56, R76.) -/
def Obligations.ReadEepromReplies : Prop :=
  ∀ (s : State) (n : Half), s.addr.toNat < 2 ^ s.cfg.addrWidth.bits →
    ¬ isMalformed s.cfg s.addr (.readEepromIsp (some n)) →
    (s.cfg.portKind = .reference → ∀ k < n.toNat, transferAddr s k < s.cfg.eepromSize) → s.buf.head? = some 0x16 →
    ∃ t data, exec (.readEepromIsp (some n)) s = .next t ∧ Replied s t ([0x16, 0x00] ++ data ++ [0x00])
      ∧ data.length = n.toNat
      ∧ (s.cfg.portKind = .reference → ∀ k < n.toNat, data[k]? = some (s.port.eeprom.read (transferAddr s k)))
      ∧ t.addr.toNat = (s.addr.toNat + n.toNat) % 2 ^ s.cfg.addrWidth.bits ∧ t.leave = s.leave ∧ t.epage = s.epage
      ∧ OnlyAsked s t ((List.range n.toNat).map (fun k => .readEeprom (BitVec.ofNat 32 (transferAddr s k))))

/-- The reference port's faults: a memory command that is not malformed and reaches outside the arrays stops with PortFault
and the first request that lies outside. The requests before it have been performed, in order, with ADDR advanced past
them; no reply is sent and nothing else has changed. So an EEPROM transfer that runs past the array has written the bytes
before its end, and a reading command has status-OK in BUF[1] and the bytes it read before the fault behind it, the rest of
BUF as received (20_memory R78; 60_exceptions R245; 41_dispatch R142; 42_memory R173, R174 in the order of 00_scope R14). -/
def Obligations.PortFaultNamesFirstBadRequest : Prop :=
  ∀ (s : State) (n : Half) (data : List Byte) (k : Nat), s.cfg.portKind = .reference →
    s.addr.toNat < 2 ^ s.cfg.addrWidth.bits → k < n.toNat →
    (¬ isMalformed s.cfg s.addr (.readEepromIsp (some n)) → s.cfg.eepromSize ≤ transferAddr s k →
      (∀ j < k, transferAddr s j < s.cfg.eepromSize) →
      ∃ u bytes, exec (.readEepromIsp (some n)) s
          = .fault (.portFault (.readEeprom (BitVec.ofNat 32 (transferAddr s k)))
              { u with buf := s.buf.take 1 ++ [0x00] ++ bytes ++ s.buf.drop (2 + k) })
        ∧ bytes.length = k ∧ (∀ j < k, bytes[j]? = some (s.port.eeprom.read (transferAddr s j)))
        ∧ Prepared s u ∧ u.leave = s.leave ∧ u.epage = s.epage ∧ u.addr.toNat = transferAddr s k
        ∧ OnlyAsked s u ((List.range k).map (fun j => .readEeprom (BitVec.ofNat 32 (transferAddr s j))))) ∧
    (¬ isMalformed s.cfg s.addr (.programEepromIsp (some n) data) → s.cfg.eepromSize ≤ transferAddr s k →
      (∀ j < k, transferAddr s j < s.cfg.eepromSize) →
      ∃ u, exec (.programEepromIsp (some n) data) s
          = .fault (.portFault (.writeEeprom (BitVec.ofNat 32 (transferAddr s k)) (data.getD k 0)) u)
        ∧ Prepared s u ∧ u.leave = s.leave ∧ u.epage = s.epage ∧ u.addr.toNat = transferAddr s k
        ∧ u.port.flash = s.port.flash ∧ u.port.sig = s.port.sig ∧ u.port.fuses = s.port.fuses
        ∧ u.port.log = s.port.log ++ (List.range k).map
            (fun j => .writeEeprom (BitVec.ofNat 32 (transferAddr s j)) (data.getD j 0))
        ∧ (s.port.eeprom.wf = true →
            (∀ j < k, data[j]? = some (u.port.eeprom.read (transferAddr s j)))
              ∧ ∀ a, (∀ j < k, transferAddr s j ≠ a) → u.port.eeprom.read a = s.port.eeprom.read a)) ∧
    (¬ isMalformed s.cfg s.addr (.readFlashIsp (some n)) → k % 2 = 0 →
      s.cfg.flashSize ≤ transferAddr s k + 1 → (∀ j < k, j % 2 = 0 → transferAddr s j + 1 < s.cfg.flashSize) →
      ∃ u bytes, exec (.readFlashIsp (some n)) s
          = .fault (.portFault (.readFlash (BitVec.ofNat 32 (transferAddr s k)))
              { u with buf := s.buf.take 1 ++ [0x00] ++ bytes ++ s.buf.drop (2 + k) })
        ∧ bytes.length = k
        ∧ (∀ j < k / 2, bytes[2 * j]? = some (s.port.flash.read (transferAddr s (2 * j)))
            ∧ bytes[2 * j + 1]? = some (s.port.flash.read (transferAddr s (2 * j) + 1)))
        ∧ Prepared s u ∧ u.leave = s.leave ∧ u.epage = s.epage ∧ u.addr.toNat = transferAddr s k
        ∧ OnlyAsked s u ((List.range (k / 2)).map (fun j => .readFlash (BitVec.ofNat 32 (transferAddr s (2 * j))))))

/-- Round trip: bytes a PROGRAM_FLASH_ISP wrote below the boundary come back in order from a READ_FLASH_ISP of the same range
in any later state of the instance whose flash still holds them and whose ADDR is the start again (42_memory R175;
20_memory R64). The reply is within RLEN's 16 bits. -/
def Obligations.FlashRoundTrip : Prop :=
  ∀ (s t u v : State) (n : Half) (data : List Byte), configLegal s.cfg = true → s.cfg.portKind = .reference →
    s.port.flash.wf = true → ¬ isMalformed s.cfg s.addr (.programFlashIsp (some n) data) →
    s.addr.toNat + n.toNat ≤ s.cfg.bootBoundary → data.length = n.toNat →
    exec (.programFlashIsp (some n) data) s = .next t →
    u.cfg = s.cfg → u.addr = s.addr →
    (∀ k < n.toNat, u.port.flash.read (s.addr.toNat + k) = t.port.flash.read (s.addr.toNat + k)) →
    u.buf.head? = some 0x14 → ¬ isMalformed u.cfg u.addr (.readFlashIsp (some n)) → n.toNat + 3 < 2 ^ 16 →
    exec (.readFlashIsp (some n)) u = .next v →
    v.tx = u.tx ++ encodeFrame u.seq ([0x14, 0x00] ++ data ++ [0x00])

/-- ADDR after any sequence of commands without a LOAD_ADDRESS, with any steps of the parser between them, is its value before
plus the sizes of the transfers made, modulo 2^W (42_memory R177; 20_memory R79). -/
def Obligations.AddressContinuity : Prop :=
  ∀ (s t : State) (n : Nat), Transfers s n t → s.addr.toNat < 2 ^ s.cfg.addrWidth.bits →
    t.addr.toNat = (s.addr.toNat + n) % 2 ^ s.cfg.addrWidth.bits

/-- With a subsystem that answers every request and the `reply_failed` policy every command completes, in every state
(60_exceptions R246; 20_memory R60; that subsystem is the model's `draws`, log entry 3). -/
def Obligations.AnsweringPortNeverStops : Prop :=
  ∀ (i : Instr) (s : State), s.cfg.portKind = .draws → s.cfg.malformedPolicy = .replyFailed →
    ∃ t, exec i s = .next t ∧ t.port.flash = s.port.flash ∧ t.port.eeprom = s.port.eeprom
      ∧ t.port.fuses = s.port.fuses ∧ t.seq = s.seq + 1

/-- The reference port reads back the last write: a flash word, an EEPROM byte, an erased page, with every other byte
unchanged (20_memory R52 to R56, R69, R74 to R76). -/
def Obligations.PortReadsLastWrite : Prop :=
  ∀ (c : Config) (p : Port), c.portKind = .reference → p.flash.wf = true → p.eeprom.wf = true →
    (∀ a w q, p.perform c (.writeFlash a w) = .ok q →
      q.flashAnswer c a = w ∧ q.eeprom = p.eeprom
        ∧ ∀ b, b ≠ a.toNat → b ≠ a.toNat + 1 → q.flash.read b = p.flash.read b) ∧
    (∀ a v q, p.perform c (.writeEeprom a v) = .ok q →
      q.eepromAnswer c a = v ∧ q.flash = p.flash ∧ ∀ b, b ≠ a.toNat → q.eeprom.read b = p.eeprom.read b) ∧
    (∀ a q, p.perform c (.eraseFlash a) = .ok q →
      q.eeprom = p.eeprom ∧ ∀ b, q.flash.read b =
        if a.toNat ≤ b ∧ b < a.toNat + c.pageSize then c.erasedByte else p.flash.read b)

/-! ### The device commands -/

/-- READ_SIGNATURE_ISP with an index completes with that signature byte, an index above 2 reading byte 2 (43_device R200;
20_memory R57, R77; D22). The reference port's bytes; under draws the device's fixed free bytes (log entry 3). -/
def Obligations.ReadSignatureReplies : Prop :=
  ∀ (s : State) (i : Byte), s.buf.head? = some 0x1B →
    ∃ t v k, exec (.readSignatureIsp (some i)) s = .next t ∧ Replied s t [0x1B, 0x00, v, 0x00]
      ∧ SameSession s t ∧ OnlyAsked s t [.readSig k] ∧ k.val = min i.toNat 2
      ∧ (s.cfg.portKind = .reference →
          v = if i = 0 then s.port.sig.byte0 else if i = 1 then s.port.sig.byte1 else s.port.sig.byte2)
      ∧ (s.cfg.portKind = .draws → v = Config.deviceSignature k)

/-- READ_FUSE_ISP with both selector bytes completes with the byte they select: 50 08 the extended fuse, 50 and any other the
low fuse, anything else the high fuse (43_device R201; 30_encoding R93; D23). The value is stated for the reference
port. -/
def Obligations.ReadFuseReplies : Prop :=
  ∀ (s : State) (cmd1 cmd2 : Byte), s.buf.head? = some 0x18 →
    ∃ t v sel, exec (.readFuseIsp (some (cmd1, cmd2))) s = .next t ∧ Replied s t [0x18, 0x00, v, 0x00]
      ∧ SameSession s t ∧ OnlyAsked s t [.readFuse sel]
      ∧ (cmd1 = 0x50 → cmd2 = 0x08 → sel = .ext ∧ (s.cfg.portKind = .reference → v = s.port.fuses.ext))
      ∧ (cmd1 = 0x50 → cmd2 ≠ 0x08 → sel = .low ∧ (s.cfg.portKind = .reference → v = s.port.fuses.low))
      ∧ (cmd1 ≠ 0x50 → sel = .high ∧ (s.cfg.portKind = .reference → v = s.port.fuses.high))

/-- READ_LOCK_ISP completes with the lock byte (43_device R202). The value is stated for the reference port. -/
def Obligations.ReadLockReplies : Prop :=
  ∀ s : State, s.buf.head? = some 0x1A →
    ∃ t v, exec .readLockIsp s = .next t ∧ Replied s t [0x1A, 0x00, v, 0x00] ∧ SameSession s t
      ∧ OnlyAsked s t [.readFuse .lock] ∧ (s.cfg.portKind = .reference → v = s.port.fuses.lock)

/-- PROGRAM_LOCK_ISP with a lock byte completes: it requests the complemented byte under P_LOCK_MASK; on the reference port a
lock bit stays set unless it is in the mask and 0 in the byte; nothing else changes (43_device R203; 20_memory R77; D9). -/
def Obligations.ProgramLockClearsBits : Prop :=
  ∀ (s : State) (b : Byte), s.buf.head? = some 0x19 →
    ∃ t, exec (.programLockIsp (some b)) s = .next t ∧ Replied s t [0x19, 0x00, 0x00] ∧ SameSession s t
      ∧ t.port.log = s.port.log ++ [.programLock (~~~b &&& s.cfg.lockMask)]
      ∧ (s.cfg.portKind = .reference → ∀ k < 8,
          t.port.fuses.lock.getLsbD k = (s.port.fuses.lock.getLsbD k && (b.getLsbD k || !s.cfg.lockMask.getLsbD k)))
      ∧ t.port.fuses.low = s.port.fuses.low ∧ t.port.fuses.high = s.port.fuses.high
      ∧ t.port.fuses.ext = s.port.fuses.ext ∧ t.port.flash = s.port.flash ∧ t.port.eeprom = s.port.eeprom
      ∧ t.port.sig = s.port.sig

/-- SPI_MULTI completes with status, 00, the first SPI byte, 00, the answer, status. The read-signature instruction 0x30
answers the signature byte; every other answers P_SPI_DUMMY and makes no port request (43_device R204; 30_encoding R95; D8,
D33). -/
def Obligations.SpiMultiReplies : Prop :=
  ∀ s : State, s.buf.head? = some 0x1D →
    (∀ i : Byte, ∃ t v k, exec (.spiMulti (some 0x30) (some i)) s = .next t
      ∧ Replied s t [0x1D, 0x00, 0x00, 0x30, 0x00, v, 0x00] ∧ SameSession s t ∧ OnlyAsked s t [.readSig k]
      ∧ k.val = min i.toNat 2
      ∧ (s.cfg.portKind = .reference →
          v = if i = 0 then s.port.sig.byte0 else if i = 1 then s.port.sig.byte1 else s.port.sig.byte2)) ∧
    (∀ (tx0 : Byte) (index : Option Byte), tx0 ≠ 0x30 → ∃ t, exec (.spiMulti (some tx0) index) s = .next t
      ∧ Replied s t [0x1D, 0x00, 0x00, tx0, 0x00, s.cfg.spiDummy, 0x00] ∧ SameSession s t ∧ t.port = s.port)

/-! ### Whole-machine rules -/

/-- Self-protection: no step of the block, in any state, requests an erase or a write at or above the boundary, nor an erase
that is not of a whole page below it, nor a write that is not of a whole aligned word below it (20_memory R61). A step that
ends in PortFault (60_exceptions R245) has asked for nothing else either, its last request included. -/
def Obligations.SelfProtectionRequests : Prop :=
  ∀ s : State,
    (∀ t, step s = .next t → ∃ rs, t.port.log = s.port.log ++ rs ∧ ∀ r ∈ rs, requestAllowed s.cfg r) ∧
    (∀ bad u, step s = .fault (.portFault bad u) →
      requestAllowed s.cfg bad ∧ ∃ rs, u.port.log = s.port.log ++ rs ∧ ∀ r ∈ rs, requestAllowed s.cfg r)

/-- No step, in any state, changes a flash byte at or above the boundary (20_memory R61, R68), nor has one that ends in
PortFault changed it (60_exceptions R245). -/
def Obligations.BootloaderFlashNeverChanges : Prop :=
  ∀ s : State,
    (∀ t, step s = .next t → ∀ a, s.cfg.bootBoundary ≤ a → t.port.flash.read a = s.port.flash.read a) ∧
    (∀ bad u, step s = .fault (.portFault bad u) →
      ∀ a, s.cfg.bootBoundary ≤ a → u.port.flash.read a = s.port.flash.read a)

/-- The session ends only by a Timeout taken in a receive state or by the reply of LEAVE_PROGMODE_ISP with P_LEAVE_ENABLED, and
never un-ends (44_reply_encoder R226; 40_frame_parser R120, R121; 10_state R36, R41). -/
def Obligations.SessionEndsOnlyByLeaveOrTimeout : Prop :=
  ∀ s t : State, Inv s → step s = .next t →
    (s.control = .exited → t = s) ∧
    (s.control ≠ .exited → t.control = .exited →
      (s.control.receiving ∧ s.rx.head? = some .timeout ∧ t.tx = s.tx ∧ t.seq = s.seq)
      ∨ (s.control = .frameReady ∧ decode s.cfg s.payload = .ok .leaveProgmodeIsp ∧ s.cfg.leaveEnabled = true))

/-- A frame sent again after it was executed is rejected at its sequence byte, silently, unless it carries 1: after START and
that byte the parser is in AwaitStart with nothing sent (70_reset R277; 41_dispatch R151; 40_frame_parser R112). -/
def Obligations.ExecutedFrameSentAgainIsRejected : Prop :=
  ∀ (i : Instr) (s t u : State) (rest : List RxEvent), configLegal s.cfg = true → s.seq ≠ 1 → t.leave = false →
    exec i s = .next t →
    u = { t with rx := .byte 0x1B :: .byte s.seq :: rest } →
    ∃ v, steps 2 u = .next v ∧ v.control = .awaitStart ∧ v.seq = s.seq + 1 ∧ v.tx = t.tx ∧ v.port = t.port
      ∧ v.rx = rest

/-! ### Payloads shorter than their commands' operands, and ADDR over the machine's runs -/

/-- For every payload of a known code (0x19 only where lock programming is there): the command it decodes to has that code,
its operands are absent exactly when LEN < MINLEN (30_encoding R86, R87), its data falls short of a size that is not 0
exactly when LEN < 10 + size, and it is malformed exactly when 41_dispatch R141 says so of LEN and BUF. -/
def Obligations.OperandsAbsentBelowMinLen : Prop :=
  ∀ (c : Config) (p : List Byte), p ≠ [] → (p.head? = some 0x19 → c.lockProgEnabled = true) →
    ∃ i, decode c p = .ok i ∧ some (commandCode i) = p.head?
      ∧ (operandAbsent i ↔ p.length < minLen p)
      ∧ (∀ n data, i = .programFlashIsp (some n) data ∨ i = .programEepromIsp (some n) data →
          n.toNat = sizeNumber p ∧ (n.toNat ≠ 0 → (data.length < n.toNat ↔ p.length < 10 + n.toNat))
            ∧ data = (p.drop 10).take n.toNat)
      ∧ (∀ n, i = .readFlashIsp (some n) ∨ i = .readEepromIsp (some n) → n.toNat = sizeNumber p)
      ∧ ∀ addr, isMalformed c addr i ↔ malformedPayload c addr p

/-- ADDR over one execute step of the machine: kept by a malformed command, loaded by LOAD_ADDRESS, and by every other command
advanced by the bytes it transfers, which is 0 for all but the four memory commands (42_memory R170 to R174, R177;
41_dispatch R141; 10_state R35). `ReceiveStepsAreSilent` has ADDR kept by every other step. -/
def Obligations.AddressAfterExecuteStep : Prop :=
  ∀ (s t : State) (i : Instr), s.control = .frameReady → s.addr.toNat < 2 ^ s.cfg.addrWidth.bits →
    decode s.cfg s.payload = .ok i → step s = .next t →
    (isMalformed s.cfg s.addr i → t.addr = s.addr) ∧
    (∀ word, i = .loadAddress (some word) →
      (s.cfg.addrWidth = .w32 → t.addr.toNat = 2 * word.toNat % 2 ^ 32) ∧
      (s.cfg.addrWidth = .w16 → t.addr.toNat = 2 * (word.toNat % 2 ^ 16) % 2 ^ 16)) ∧
    (¬ isMalformed s.cfg s.addr i → (∀ word, i ≠ .loadAddress (some word)) →
      t.addr.toNat = (s.addr.toNat + transferredBytes i) % 2 ^ s.cfg.addrWidth.bits)
end

