-- ==== Sys2Proof/Laws/Memory.lean ====
section
/-! SUPPORT. The laws of a memory: a write is read back and leaves every other address alone; every operation keeps the
canonical form; two canonical memories that read alike are equal. -/

namespace Sys2Proof.Machine

theorem Memory.wfFrom_mono {m : Memory} {lo lo' : Nat} (h : lo' ≤ lo) (wf : Memory.wfFrom lo m = true) :
    Memory.wfFrom lo' m = true := by
  cases m with
  | nil => rfl
  | cons x rest =>
    simp only [Memory.wfFrom, Bool.and_eq_true, decide_eq_true_eq] at wf ⊢
    exact ⟨⟨by omega, wf.1.2⟩, wf.2⟩

theorem Memory.read_of_lt {m : Memory} {lo a : Nat} (wf : Memory.wfFrom lo m = true) (h : a < lo) :
    Memory.read m a = Memory.blank := by
  induction m generalizing lo with
  | nil => rfl
  | cons x rest ih =>
    simp only [Memory.wfFrom, Bool.and_eq_true, decide_eq_true_eq] at wf
    rw [Memory.read, if_neg (by omega)]
    exact ih wf.2 (by omega)

/-- A write leaves every other address alone, in any memory. -/
theorem Memory.read_write_other (m : Memory) {a b : Nat} (v : Byte) (h : b ≠ a) :
    Memory.read (Memory.write m a v) b = Memory.read m b := by
  induction m with
  | nil => simp only [Memory.write]; split <;> simp [Memory.read, Ne.symm h]
  | cons x rest ih =>
    obtain ⟨c, u⟩ := x
    simp only [Memory.write]
    split_ifs with h1 h2 h3 h4
    · rfl
    · rw [Memory.read, if_neg (Ne.symm h)]
    · subst h3; rw [Memory.read, if_neg (Ne.symm h)]
    · subst h3; simp only [Memory.read, if_neg (Ne.symm h)]
    · simp only [Memory.read, ih]

/-- A write to a canonical memory is read back. -/
theorem Memory.read_write_self_from {m : Memory} {lo : Nat} (wf : Memory.wfFrom lo m = true) (a : Nat) (v : Byte) :
    Memory.read (Memory.write m a v) a = v := by
  induction m generalizing lo with
  | nil => simp only [Memory.write]; split <;> simp_all [Memory.read]
  | cons x rest ih =>
    obtain ⟨c, u⟩ := x
    have keep := wf
    simp only [Memory.wfFrom, Bool.and_eq_true, decide_eq_true_eq] at wf
    simp only [Memory.write]
    split_ifs with h1 h2 h3 h4
    · subst h2
      rw [Memory.read, if_neg (by omega)]
      exact Memory.read_of_lt wf.2 (by omega)
    · simp [Memory.read]
    · subst h3 h4; exact Memory.read_of_lt wf.2 (by omega)
    · simp [Memory.read]
    · rw [Memory.read, if_neg (by omega)]; exact ih wf.2

theorem Memory.read_write_self {m : Memory} (wf : m.wf = true) (a : Nat) (v : Byte) :
    Memory.read (Memory.write m a v) a = v := Memory.read_write_self_from wf a v

theorem Memory.write_wfFrom {m : Memory} {lo : Nat} (wf : Memory.wfFrom lo m = true) {a : Nat} (h : lo ≤ a) (v : Byte) :
    Memory.wfFrom lo (Memory.write m a v) = true := by
  induction m generalizing lo with
  | nil => simp only [Memory.write]; split <;> simp_all [Memory.wfFrom]
  | cons x rest ih =>
    obtain ⟨c, u⟩ := x
    have keep := wf
    simp only [Memory.wfFrom, Bool.and_eq_true, decide_eq_true_eq, bne_iff_ne, ne_eq] at wf
    simp only [Memory.write]
    split_ifs with h1 h2 h3 h4
    · exact keep
    · simp [Memory.wfFrom, h, h2, wf.1.2, wf.2, Nat.succ_le_of_lt h1]
    · exact Memory.wfFrom_mono (by omega) wf.2
    · subst h3; simp [Memory.wfFrom, h, h4, wf.2]
    · simp [Memory.wfFrom, wf.1.1, wf.1.2, ih wf.2 (by omega)]

/-- A write keeps the canonical form. -/
theorem Memory.write_wf {m : Memory} (wf : m.wf = true) (a : Nat) (v : Byte) : (Memory.write m a v).wf = true :=
  Memory.write_wfFrom wf (Nat.zero_le a) v

/-- A fill keeps the canonical form. -/
theorem Memory.fill_wf {m : Memory} (wf : m.wf = true) (a n : Nat) (v : Byte) : (Memory.fill m a n v).wf = true := by
  induction n generalizing m a with
  | zero => exact wf
  | succ n ih => exact ih (Memory.write_wf wf a v) (a + 1)

/-- A fill leaves every address outside its range alone, in any memory. -/
theorem Memory.read_fill_other (m : Memory) (a n : Nat) (v : Byte) {b : Nat} (h : b < a ∨ a + n ≤ b) :
    Memory.read (Memory.fill m a n v) b = Memory.read m b := by
  induction n generalizing m a with
  | zero => rfl
  | succ n ih => rw [Memory.fill, ih _ _ (by omega), Memory.read_write_other _ _ (by omega)]

/-- A fill of a canonical memory, read anywhere. -/
theorem Memory.read_fill {m : Memory} (wf : m.wf = true) (a n : Nat) (v : Byte) (b : Nat) :
    Memory.read (Memory.fill m a n v) b = if a ≤ b ∧ b < a + n then v else Memory.read m b := by
  induction n generalizing m a with
  | zero => rw [if_neg (by omega), Memory.fill]
  | succ n ih =>
    rw [Memory.fill, ih (Memory.write_wf wf a v) (a + 1)]
    by_cases h : b = a
    · subst h
      rw [if_neg (by omega), if_pos (by omega), Memory.read_write_self wf]
    · rw [Memory.read_write_other _ _ h]
      congr 1
      simp only [eq_iff_iff]
      omega

/-- A write lists no address but its own and those listed before. -/
theorem Memory.mem_write {m : Memory} {a : Nat} {v : Byte} {x : Host.Cell} (h : x ∈ Memory.write m a v) :
    x ∈ m ∨ x.1 = a := by
  induction m with
  | nil =>
    simp only [Memory.write] at h
    split at h
    · cases h
    · right; simp_all
  | cons y rest ih =>
    obtain ⟨c, u⟩ := y
    simp only [Memory.write] at h
    split_ifs at h with h1 h2 h3 h4
    · exact .inl h
    · rcases List.mem_cons.1 h with e | e
      · exact .inr (by rw [e])
      · exact .inl e
    · exact .inl (List.mem_cons_of_mem _ h)
    · rcases List.mem_cons.1 h with e | e
      · exact .inr (by rw [e])
      · exact .inl (List.mem_cons_of_mem _ e)
    · rcases List.mem_cons.1 h with e | e
      · exact .inl (by rw [e]; exact List.mem_cons_self)
      · rcases ih e with e | e
        · exact .inl (List.mem_cons_of_mem _ e)
        · exact .inr e

/-- A fill lists no address but those of its range and those listed before. -/
theorem Memory.mem_fill {m : Memory} {a n : Nat} {v : Byte} {x : Host.Cell} (h : x ∈ Memory.fill m a n v) :
    x ∈ m ∨ (a ≤ x.1 ∧ x.1 < a + n) := by
  induction n generalizing m a with
  | zero => exact .inl h
  | succ n ih =>
    rcases ih h with h | h
    · rcases Memory.mem_write h with h | h
      · exact .inl h
      · exact .inr (by omega)
    · exact .inr (by omega)

end Sys2Proof.Machine
end

