-- ==== Sys2Proof/Laws/Words.lean ====
section
/-! SUPPORT. Byte order, the XOR of a byte sequence, frames' lengths, address arithmetic, and what a legal configuration
gives. -/

namespace Sys2Proof

/-- An appended byte: the number it makes. -/
theorem append_toNat {n : Nat} (x : BitVec n) (b : Byte) : (x ++ b).toNat = 256 * x.toNat + b.toNat := by
  rw [BitVec.toNat_append, ← Nat.shiftLeft_add_eq_or_of_lt b.isLt, Nat.shiftLeft_eq]
  omega

theorem joinBytes_toNat (hi lo : Byte) : (joinBytes hi lo).toNat = 256 * hi.toNat + lo.toNat :=
  append_toNat hi lo

theorem hiByte_toNat (w : Half) : (hiByte w).toNat = w.toNat / 256 := by
  simp only [hiByte, BitVec.extractLsb'_toNat, Nat.shiftRight_eq_div_pow]
  have := w.isLt
  omega

theorem loByte_toNat (w : Half) : (loByte w).toNat = w.toNat % 256 := by
  simp [loByte, BitVec.extractLsb'_toNat]

theorem joinBytes_hiByte_loByte (w : Half) : joinBytes (hiByte w) (loByte w) = w := by
  apply BitVec.eq_of_toNat_eq
  rw [joinBytes_toNat, hiByte_toNat, loByte_toNat]
  omega

theorem hiByte_joinBytes (hi lo : Byte) : hiByte (joinBytes hi lo) = hi := by
  apply BitVec.eq_of_toNat_eq
  rw [hiByte_toNat, joinBytes_toNat]
  have := lo.isLt
  omega

theorem loByte_joinBytes (hi lo : Byte) : loByte (joinBytes hi lo) = lo := by
  apply BitVec.eq_of_toNat_eq
  rw [loByte_toNat, joinBytes_toNat]
  have := lo.isLt
  omega

theorem byteOf_toNat (w : BitVec 32) (k : Nat) : (byteOf w k).toNat = w.toNat / 2 ^ (8 * k) % 256 := by
  simp [byteOf, BitVec.extractLsb'_toNat, Nat.shiftRight_eq_div_pow]

theorem joinBytes4_toNat (b3 b2 b1 b0 : Byte) : (joinBytes4 b3 b2 b1 b0).toNat =
    2 ^ 24 * b3.toNat + 2 ^ 16 * b2.toNat + 2 ^ 8 * b1.toNat + b0.toNat := by
  refine (append_toNat (b3 ++ b2 ++ b1) b0).trans ?_
  rw [append_toNat (b3 ++ b2) b1, append_toNat b3 b2]
  omega

theorem joinBytes4_byteOf (w : BitVec 32) :
    joinBytes4 (byteOf w 3) (byteOf w 2) (byteOf w 1) (byteOf w 0) = w := by
  apply BitVec.eq_of_toNat_eq
  rw [joinBytes4_toNat]
  simp only [byteOf_toNat]
  have := w.isLt
  omega

/-- `b << 8` of AwaitLengthHigh has the high byte `b` and the low byte 0 (40_frame_parser R113). -/
theorem setWidth_shiftLeft_eq_joinBytes (b : Byte) : b.setWidth 16 <<< 8 = joinBytes b 0 := by
  apply BitVec.eq_of_toNat_eq
  rw [joinBytes_toNat, show (0 : Byte).toNat = 0 from rfl]
  simp only [BitVec.toNat_shiftLeft, BitVec.toNat_setWidth, Nat.shiftLeft_eq]
  have := b.isLt
  omega

/-- `LEN | b` of AwaitLengthLow, when LEN's low byte is 0 (40_frame_parser R114). -/
theorem joinBytes_zero_or (hi lo : Byte) : joinBytes hi 0 ||| lo.setWidth 16 = joinBytes hi lo := by
  apply BitVec.eq_of_toNat_eq
  have h : hi.toNat <<< 8 = 256 * hi.toNat := by rw [Nat.shiftLeft_eq]; omega
  have := lo.isLt
  rw [BitVec.toNat_or, joinBytes_toNat, joinBytes_toNat, BitVec.toNat_setWidth, Nat.mod_eq_of_lt (by omega)]
  rw [show (0 : Byte).toNat = 0 from rfl, Nat.add_zero, ← h, ← Nat.shiftLeft_add_eq_or_of_lt lo.isLt]

theorem or_setWidth_of_loByte (w : Half) (b : Byte) (h : loByte w = 0) :
    w ||| b.setWidth 16 = joinBytes (hiByte w) b := by
  rw [← joinBytes_hiByte_loByte w, h, joinBytes_zero_or, hiByte_joinBytes]

theorem xorAll_append (a b : List Byte) : xorAll (a ++ b) = xorAll a ^^^ xorAll b := by
  induction a with
  | nil => simp [xorAll]
  | cons x a ih => simp [xorAll, ih, BitVec.xor_assoc]

theorem xorAll_append_single (a : List Byte) (b : Byte) : xorAll (a ++ [b]) = xorAll a ^^^ b := by
  simp [xorAll_append, xorAll]

@[simp] theorem frameHeader_length (seq : Byte) (len : Half) : (frameHeader seq len).length = 5 := rfl

@[simp] theorem frameBytes_length (seq : Byte) (len : Half) (p : List Byte) :
    (frameBytes seq len p).length = p.length + 6 := by
  simp [frameBytes]; omega

namespace Machine

theorem bits_le (w : AddrWidth) : w.bits ≤ 32 := by cases w <;> decide

theorem two_pow_bits_le (w : AddrWidth) : 2 ^ w.bits ≤ 2 ^ 32 := Nat.pow_le_pow_right (by decide) (bits_le w)

theorem two_pow_bits_pos (w : AddrWidth) : 0 < 2 ^ w.bits := Nat.pow_pos (by decide)

theorem two_pow_bits_even (w : AddrWidth) : 2 ^ w.bits % 2 = 0 := by cases w <;> decide

/-- A 16-bit count is smaller than the address space. -/
theorem half_lt_two_pow_bits (n : Half) (w : AddrWidth) : n.toNat < 2 ^ w.bits := by
  have := n.isLt
  cases w <;> simp only [AddrWidth.bits] <;> omega

@[simp] theorem wrapAddr_toNat (c : Config) (n : Nat) : (wrapAddr c n).toNat = n % 2 ^ c.addrWidth.bits := by
  have h1 := Nat.mod_lt n (two_pow_bits_pos c.addrWidth)
  have h2 := two_pow_bits_le c.addrWidth
  simp only [wrapAddr, BitVec.toNat_ofNat]
  exact Nat.mod_eq_of_lt (by omega)

@[simp] theorem pageOf_toNat (c : Config) (a : Addr) : (pageOf c a).toNat = a.toNat - a.toNat % c.pageSize := by
  have := a.isLt
  simp only [pageOf, BitVec.toNat_ofNat]
  exact Nat.mod_eq_of_lt (by omega)

/-- What the parameters of a legal instance satisfy (00_scope R9, R10). -/
structure Legal (c : Config) : Prop where
  cap : 12 ≤ c.cap
  page : 2 ≤ c.pageSize
  pageEven : c.pageSize % 2 = 0
  bootPage : c.bootBoundary % c.pageSize = 0
  flashPage : c.flashSize % c.pageSize = 0
  bootFlash : c.bootBoundary ≤ c.flashSize
  flashSpace : c.flashSize ≤ 2 ^ c.addrWidth.bits
  eeprom : 1 ≤ c.eepromSize

theorem configLegal_iff (c : Config) :
    configLegal c = true ↔
      12 ≤ c.cap ∧ 2 ≤ c.pageSize ∧ 2 ^ Nat.log2 c.pageSize = c.pageSize ∧ c.bootBoundary % c.pageSize = 0
        ∧ c.flashSize % c.pageSize = 0 ∧ c.bootBoundary ≤ c.flashSize ∧ c.flashSize ≤ 2 ^ c.addrWidth.bits
        ∧ 1 ≤ c.eepromSize := by
  simp only [configLegal, isPowerOfTwo, Bool.and_eq_true, decide_eq_true_eq, beq_iff_eq]
  constructor
  · rintro ⟨⟨⟨⟨⟨⟨h1, h2, h3⟩, h4⟩, h5⟩, h6⟩, h7⟩, h8⟩
    exact ⟨h1, h2, h3, h4, h5, h6, h7, h8⟩
  · rintro ⟨h1, h2, h3, h4, h5, h6, h7, h8⟩
    exact ⟨⟨⟨⟨⟨⟨h1, h2, h3⟩, h4⟩, h5⟩, h6⟩, h7⟩, h8⟩

theorem legal_of (c : Config) (h : configLegal c = true) : Legal c := by
  obtain ⟨h1, h2, h3, h4, h5, h6, h7, h8⟩ := (configLegal_iff c).1 h
  refine ⟨h1, h2, ?_, h4, h5, h6, h7, h8⟩
  rw [← h3]
  match hl : Nat.log2 c.pageSize with
  | 0 => rw [hl] at h3; omega
  | k + 1 => rw [Nat.pow_succ]; omega

/-- A legal boundary is even. -/
theorem Legal.bootEven {c : Config} (h : Legal c) : c.bootBoundary % 2 = 0 := by
  have h1 := Nat.div_add_mod c.bootBoundary c.pageSize
  have h2 := Nat.div_add_mod c.pageSize 2
  rw [h.bootPage] at h1
  rw [h.pageEven] at h2
  rw [← h1, ← h2, Nat.add_zero, Nat.add_zero, Nat.mul_assoc]
  exact Nat.mul_mod_right _ _

/-- The page of a byte below the boundary lies whole below it (20_memory R61). -/
theorem Legal.pageBelow {c : Config} (h : Legal c) {a : Nat} (ha : a < c.bootBoundary) :
    a - a % c.pageSize + c.pageSize ≤ c.bootBoundary := by
  have hp : 0 < c.pageSize := by have := h.page; omega
  obtain ⟨k, hk⟩ := Nat.dvd_of_mod_eq_zero h.bootPage
  have h1 := Nat.div_add_mod a c.pageSize
  have h2 : a / c.pageSize < k := by
    rw [Nat.div_lt_iff_lt_mul hp, Nat.mul_comm]; omega
  have h3 : c.pageSize * (a / c.pageSize + 1) ≤ c.pageSize * k := Nat.mul_le_mul_left _ h2
  rw [Nat.mul_add] at h3
  omega

/-- An even byte below the boundary has its word below it. -/
theorem Legal.wordBelow {c : Config} (h : Legal c) {a : Nat} (he : a % 2 = 0) (ha : a < c.bootBoundary) :
    a + 1 < c.bootBoundary := by
  have := h.bootEven
  omega

end Machine

end Sys2Proof
end

