-- ==== Sys2Proof/Laws/Port.lean ====
section
/-! SUPPORT. What performing a request on the memory port can do, and what a request of the block can do. -/

namespace Sys2Proof.Machine

/-- Everything a performed request can do. -/
theorem Port.perform_ok {c : Config} {p q : Port} {r : PortRequest} (h : p.perform c r = .ok q) :
    (c.portKind = .reference ∧ requestInRange c r = true ∧ q = { requestEffect c p r with log := p.log ++ [r] })
      ∨ (c.portKind = .draws ∧ q = { p with log := p.log ++ [r], draws := p.draws + 1 }) := by
  unfold Port.perform at h
  cases hk : c.portKind with
  | reference =>
    simp only [hk] at h
    split at h
    · rename_i hr; exact .inl ⟨rfl, hr, by simpa using h.symm⟩
    · cases h
  | draws => simp only [hk] at h; exact .inr ⟨rfl, by simpa using h.symm⟩

/-- A request the port does not perform is the reference port's, and outside its arrays. -/
theorem Port.perform_error {c : Config} {p : Port} {r r' : PortRequest} (h : p.perform c r = .error r') :
    c.portKind = .reference ∧ requestInRange c r = false ∧ r' = r := by
  unfold Port.perform at h
  cases hk : c.portKind with
  | reference =>
    simp only [hk] at h
    split at h
    · cases h
    · rename_i hr; exact ⟨rfl, by simpa using hr, by simpa using h.symm⟩
  | draws => simp only [hk] at h; cases h

theorem Port.perform_reference {c : Config} (hk : c.portKind = .reference) (p : Port) {r : PortRequest}
    (hr : requestInRange c r = true) :
    p.perform c r = .ok { requestEffect c p r with log := p.log ++ [r] } := by
  simp [Port.perform, hk, hr]

theorem Port.perform_out_of_range {c : Config} (hk : c.portKind = .reference) (p : Port) {r : PortRequest}
    (hr : requestInRange c r = false) : p.perform c r = .error r := by
  simp [Port.perform, hk, hr]

theorem Port.perform_draws {c : Config} (hk : c.portKind = .draws) (p : Port) (r : PortRequest) :
    p.perform c r = .ok { p with log := p.log ++ [r], draws := p.draws + 1 } := by
  simp [Port.perform, hk]

/-- Every performed request is recorded last. -/
theorem Port.perform_log {c : Config} {p q : Port} {r : PortRequest} (h : p.perform c r = .ok q) :
    q.log = p.log ++ [r] := by
  rcases Port.perform_ok h with ⟨-, -, rfl⟩ | ⟨-, rfl⟩ <;> rfl

/-- No request changes the signature. -/
theorem Port.perform_sig {c : Config} {p q : Port} {r : PortRequest} (h : p.perform c r = .ok q) : q.sig = p.sig := by
  rcases Port.perform_ok h with ⟨-, -, rfl⟩ | ⟨-, rfl⟩
  · cases r <;> rfl
  · rfl

/-- Only an erase or a flash write changes flash. -/
theorem Port.perform_flash {c : Config} {p q : Port} {r : PortRequest} (h : p.perform c r = .ok q)
    (h1 : ∀ a, r ≠ .eraseFlash a) (h2 : ∀ a w, r ≠ .writeFlash a w) : q.flash = p.flash := by
  rcases Port.perform_ok h with ⟨-, -, rfl⟩ | ⟨-, rfl⟩
  · cases r with
    | eraseFlash a => exact absurd rfl (h1 a)
    | writeFlash a w => exact absurd rfl (h2 a w)
    | _ => rfl
  · rfl

/-- Only an EEPROM write changes EEPROM. -/
theorem Port.perform_eeprom {c : Config} {p q : Port} {r : PortRequest} (h : p.perform c r = .ok q)
    (h1 : ∀ a v, r ≠ .writeEeprom a v) : q.eeprom = p.eeprom := by
  rcases Port.perform_ok h with ⟨-, -, rfl⟩ | ⟨-, rfl⟩
  · cases r with
    | writeEeprom a v => exact absurd rfl (h1 a v)
    | _ => rfl
  · rfl

/-- Only a lock request changes a fuse or lock byte. -/
theorem Port.perform_fuses {c : Config} {p q : Port} {r : PortRequest} (h : p.perform c r = .ok q)
    (h1 : ∀ v, r ≠ .programLock v) : q.fuses = p.fuses := by
  rcases Port.perform_ok h with ⟨-, -, rfl⟩ | ⟨-, rfl⟩
  · cases r with
    | programLock v => exact absurd rfl (h1 v)
    | _ => rfl
  · rfl

/-- A request that self-protection allows leaves every flash byte at or above the boundary alone. -/
theorem Port.perform_boot {c : Config} {p q : Port} {r : PortRequest} (h : p.perform c r = .ok q)
    (ha : requestAllowed c r) {b : Nat} (hb : c.bootBoundary ≤ b) : q.flash.read b = p.flash.read b := by
  rcases Port.perform_ok h with ⟨-, -, rfl⟩ | ⟨-, rfl⟩
  · cases r with
    | eraseFlash a => exact Memory.read_fill_other _ _ _ _ (.inr (by have := ha.2.1; omega))
    | writeFlash a w =>
      have := ha.2.1
      change Memory.read (Memory.write (Memory.write p.flash a.toNat (loByte w)) (a.toNat + 1) (hiByte w)) b = _
      rw [Memory.read_write_other _ _ (by omega), Memory.read_write_other _ _ (by omega)]
    | _ => rfl
  · rfl

/-- A request keeps the memories canonical. -/
theorem Port.perform_wf {c : Config} {p q : Port} {r : PortRequest} (h : p.perform c r = .ok q) :
    (p.flash.wf = true → q.flash.wf = true) ∧ (p.eeprom.wf = true → q.eeprom.wf = true) := by
  rcases Port.perform_ok h with ⟨-, -, rfl⟩ | ⟨-, rfl⟩
  · cases r with
    | eraseFlash a => exact ⟨fun h => Memory.fill_wf h _ _ _, id⟩
    | writeFlash a w => exact ⟨fun h => Memory.write_wf (Memory.write_wf h _ _) _ _, id⟩
    | writeEeprom a v => exact ⟨id, fun h => Memory.write_wf h _ _⟩
    | _ => exact ⟨id, id⟩
  · exact ⟨id, id⟩

/-- A request keeps the memories inside their arrays. -/
theorem Port.perform_fits {c : Config} {p q : Port} {r : PortRequest} (h : p.perform c r = .ok q) :
    ((∀ x ∈ p.flash, x.1 < c.flashSize) → ∀ x ∈ q.flash, x.1 < c.flashSize)
      ∧ ((∀ x ∈ p.eeprom, x.1 < c.eepromSize) → ∀ x ∈ q.eeprom, x.1 < c.eepromSize) := by
  rcases Port.perform_ok h with ⟨-, hr, rfl⟩ | ⟨-, rfl⟩
  · cases r with
    | eraseFlash a =>
      refine ⟨fun hp x hx => ?_, id⟩
      simp only [requestInRange, decide_eq_true_eq] at hr
      rcases Memory.mem_fill hx with hx | hx
      · exact hp x hx
      · omega
    | writeFlash a w =>
      refine ⟨fun hp x hx => ?_, id⟩
      simp only [requestInRange, decide_eq_true_eq] at hr
      rcases Memory.mem_write hx with hx | hx
      · rcases Memory.mem_write hx with hx | hx
        · exact hp x hx
        · omega
      · omega
    | writeEeprom a v =>
      refine ⟨id, fun hp x hx => ?_⟩
      simp only [requestInRange, decide_eq_true_eq] at hr
      rcases Memory.mem_write hx with hx | hx
      · exact hp x hx
      · omega
    | _ => exact ⟨id, id⟩
  · exact ⟨id, id⟩

/-- Everything a request of the block can do to its state. -/
theorem State.request_ok {s t : State} {r : PortRequest} (h : s.request r = .ok t) :
    ∃ q, s.port.perform s.cfg r = .ok q ∧ t = { s with port := q } := by
  unfold State.request at h
  split at h
  · rename_i q hq; exact ⟨q, hq, by simpa using h.symm⟩
  · cases h

/-- A request of the block that is not performed: PortFault, in the state it was issued in. -/
theorem State.request_error {s : State} {r : PortRequest} {f : Fault} (h : s.request r = .error f) :
    s.cfg.portKind = .reference ∧ requestInRange s.cfg r = false ∧ f = .portFault r s := by
  unfold State.request at h
  split at h
  · cases h
  · rename_i r1 h1
    obtain ⟨h2, h3, rfl⟩ := Port.perform_error h1
    exact ⟨h2, h3, by simpa using h.symm⟩

/-- The requests that change nothing of the memory subsystem (20_memory R67). -/
def PortRequest.isRead : PortRequest → Prop
  | .eraseFlash _ => False
  | .writeFlash _ _ => False
  | .readFlash _ => True
  | .writeEeprom _ _ => False
  | .readEeprom _ => True
  | .readSig _ => True
  | .readFuse _ => True
  | .programLock _ => False

theorem State.request_read {s t : State} {r : PortRequest} (hr : r.isRead) (h : s.request r = .ok t) :
    t.port.flash = s.port.flash ∧ t.port.eeprom = s.port.eeprom ∧ t.port.fuses = s.port.fuses := by
  obtain ⟨q, hq, rfl⟩ := State.request_ok h
  cases r <;> first
    | exact absurd hr id
    | exact ⟨Port.perform_flash hq (by simp) (by simp), Port.perform_eeprom hq (by simp), Port.perform_fuses hq (by simp)⟩

theorem State.request_of_perform {s : State} {r : PortRequest} {q : Port} (h : s.port.perform s.cfg r = .ok q) :
    s.request r = .ok { s with port := q } := by
  simp [State.request, h]

/-- A request inside the reference port's arrays is performed. -/
theorem State.request_reference {s : State} (hk : s.cfg.portKind = .reference) {r : PortRequest}
    (hr : requestInRange s.cfg r = true) :
    s.request r = .ok { s with port := { requestEffect s.cfg s.port r with log := s.port.log ++ [r] } } :=
  State.request_of_perform (Port.perform_reference hk _ hr)

theorem State.request_out_of_range {s : State} (hk : s.cfg.portKind = .reference) {r : PortRequest}
    (hr : requestInRange s.cfg r = false) : s.request r = .error (.portFault r s) := by
  simp [State.request, Port.perform_out_of_range hk _ hr]

/-- Every request is performed when it is inside the arrays or the port answers everything. -/
theorem State.request_succeeds (s : State) (r : PortRequest)
    (h : s.cfg.portKind = .reference → requestInRange s.cfg r = true) : ∃ t, s.request r = .ok t := by
  cases hk : s.cfg.portKind with
  | reference => exact ⟨_, State.request_reference hk (h hk)⟩
  | draws => exact ⟨_, State.request_of_perform (Port.perform_draws hk _ _)⟩

end Sys2Proof.Machine
end

