-- ==== Sys2Proof/Laws/State.lean ====
section
/-! SUPPORT. What each named update of the state does to each field: one lemma per field per update. -/

namespace Sys2Proof.Machine

/-! ### State.setReply -/

@[simp] theorem State.setReply_cfg (s : State) (bs : List Byte) : (s.setReply bs).cfg = s.cfg := rfl
@[simp] theorem State.setReply_control (s : State) (bs : List Byte) : (s.setReply bs).control = s.control := rfl
@[simp] theorem State.setReply_seq (s : State) (bs : List Byte) : (s.setReply bs).seq = s.seq := rfl
@[simp] theorem State.setReply_ck (s : State) (bs : List Byte) : (s.setReply bs).ck = s.ck := rfl
@[simp] theorem State.setReply_len (s : State) (bs : List Byte) : (s.setReply bs).len = s.len := rfl
@[simp] theorem State.setReply_addr (s : State) (bs : List Byte) : (s.setReply bs).addr = s.addr := rfl
@[simp] theorem State.setReply_leave (s : State) (bs : List Byte) : (s.setReply bs).leave = s.leave := rfl
@[simp] theorem State.setReply_idx (s : State) (bs : List Byte) : (s.setReply bs).idx = s.idx := rfl
@[simp] theorem State.setReply_buf (s : State) (bs : List Byte) : (s.setReply bs).buf = bufPut s.buf 1 bs := rfl
@[simp] theorem State.setReply_rlen (s : State) (bs : List Byte) : (s.setReply bs).rlen = BitVec.ofNat 16 (1 + bs.length) := rfl
@[simp] theorem State.setReply_epage (s : State) (bs : List Byte) : (s.setReply bs).epage = s.epage := rfl
@[simp] theorem State.setReply_tx (s : State) (bs : List Byte) : (s.setReply bs).tx = s.tx := rfl
@[simp] theorem State.setReply_exit (s : State) (bs : List Byte) : (s.setReply bs).exit = s.exit := rfl
@[simp] theorem State.setReply_port (s : State) (bs : List Byte) : (s.setReply bs).port = s.port := rfl
@[simp] theorem State.setReply_rx (s : State) (bs : List Byte) : (s.setReply bs).rx = s.rx := rfl
@[simp] theorem State.setReply_losses (s : State) (bs : List Byte) : (s.setReply bs).losses = s.losses := rfl

/-! ### State.sendReply -/

@[simp] theorem State.sendReply_cfg (s : State) : (s.sendReply).cfg = s.cfg := rfl
@[simp] theorem State.sendReply_control (s : State) : (s.sendReply).control = controlAfterReply s.leave := rfl
@[simp] theorem State.sendReply_seq (s : State) : (s.sendReply).seq = s.seq + 1 := rfl
@[simp] theorem State.sendReply_ck (s : State) : (s.sendReply).ck = s.ck := rfl
@[simp] theorem State.sendReply_len (s : State) : (s.sendReply).len = s.len := rfl
@[simp] theorem State.sendReply_addr (s : State) : (s.sendReply).addr = s.addr := rfl
@[simp] theorem State.sendReply_leave (s : State) : (s.sendReply).leave = s.leave := rfl
@[simp] theorem State.sendReply_idx (s : State) : (s.sendReply).idx = s.idx := rfl
@[simp] theorem State.sendReply_buf (s : State) : (s.sendReply).buf = s.buf := rfl
@[simp] theorem State.sendReply_rlen (s : State) : (s.sendReply).rlen = s.rlen := rfl
@[simp] theorem State.sendReply_epage (s : State) : (s.sendReply).epage = s.epage := rfl
@[simp] theorem State.sendReply_tx (s : State) : (s.sendReply).tx = s.tx ++ frameBytes s.seq s.rlen (s.buf.take s.rlen.toNat) := rfl
@[simp] theorem State.sendReply_exit (s : State) : (s.sendReply).exit = (s.exit || s.leave) := rfl
@[simp] theorem State.sendReply_port (s : State) : (s.sendReply).port = s.port := rfl
@[simp] theorem State.sendReply_rx (s : State) : (s.sendReply).rx = s.rx := rfl
@[simp] theorem State.sendReply_losses (s : State) : (s.sendReply).losses = s.losses := rfl

/-! ### State.putBuf -/

@[simp] theorem State.putBuf_cfg (s : State) (off : Nat) (bs : List Byte) : (s.putBuf off bs).cfg = s.cfg := rfl
@[simp] theorem State.putBuf_control (s : State) (off : Nat) (bs : List Byte) : (s.putBuf off bs).control = s.control := rfl
@[simp] theorem State.putBuf_seq (s : State) (off : Nat) (bs : List Byte) : (s.putBuf off bs).seq = s.seq := rfl
@[simp] theorem State.putBuf_ck (s : State) (off : Nat) (bs : List Byte) : (s.putBuf off bs).ck = s.ck := rfl
@[simp] theorem State.putBuf_len (s : State) (off : Nat) (bs : List Byte) : (s.putBuf off bs).len = s.len := rfl
@[simp] theorem State.putBuf_addr (s : State) (off : Nat) (bs : List Byte) : (s.putBuf off bs).addr = s.addr := rfl
@[simp] theorem State.putBuf_leave (s : State) (off : Nat) (bs : List Byte) : (s.putBuf off bs).leave = s.leave := rfl
@[simp] theorem State.putBuf_idx (s : State) (off : Nat) (bs : List Byte) : (s.putBuf off bs).idx = s.idx := rfl
@[simp] theorem State.putBuf_buf (s : State) (off : Nat) (bs : List Byte) : (s.putBuf off bs).buf = bufPut s.buf off bs := rfl
@[simp] theorem State.putBuf_rlen (s : State) (off : Nat) (bs : List Byte) : (s.putBuf off bs).rlen = s.rlen := rfl
@[simp] theorem State.putBuf_epage (s : State) (off : Nat) (bs : List Byte) : (s.putBuf off bs).epage = s.epage := rfl
@[simp] theorem State.putBuf_tx (s : State) (off : Nat) (bs : List Byte) : (s.putBuf off bs).tx = s.tx := rfl
@[simp] theorem State.putBuf_exit (s : State) (off : Nat) (bs : List Byte) : (s.putBuf off bs).exit = s.exit := rfl
@[simp] theorem State.putBuf_port (s : State) (off : Nat) (bs : List Byte) : (s.putBuf off bs).port = s.port := rfl
@[simp] theorem State.putBuf_rx (s : State) (off : Nat) (bs : List Byte) : (s.putBuf off bs).rx = s.rx := rfl
@[simp] theorem State.putBuf_losses (s : State) (off : Nat) (bs : List Byte) : (s.putBuf off bs).losses = s.losses := rfl

/-! ### State.advanceAddr -/

@[simp] theorem State.advanceAddr_cfg (s : State) (n : Nat) : (s.advanceAddr n).cfg = s.cfg := rfl
@[simp] theorem State.advanceAddr_control (s : State) (n : Nat) : (s.advanceAddr n).control = s.control := rfl
@[simp] theorem State.advanceAddr_seq (s : State) (n : Nat) : (s.advanceAddr n).seq = s.seq := rfl
@[simp] theorem State.advanceAddr_ck (s : State) (n : Nat) : (s.advanceAddr n).ck = s.ck := rfl
@[simp] theorem State.advanceAddr_len (s : State) (n : Nat) : (s.advanceAddr n).len = s.len := rfl
@[simp] theorem State.advanceAddr_addr (s : State) (n : Nat) : (s.advanceAddr n).addr = wrapAddr s.cfg (s.addr.toNat + n) := rfl
@[simp] theorem State.advanceAddr_leave (s : State) (n : Nat) : (s.advanceAddr n).leave = s.leave := rfl
@[simp] theorem State.advanceAddr_idx (s : State) (n : Nat) : (s.advanceAddr n).idx = s.idx := rfl
@[simp] theorem State.advanceAddr_buf (s : State) (n : Nat) : (s.advanceAddr n).buf = s.buf := rfl
@[simp] theorem State.advanceAddr_rlen (s : State) (n : Nat) : (s.advanceAddr n).rlen = s.rlen := rfl
@[simp] theorem State.advanceAddr_epage (s : State) (n : Nat) : (s.advanceAddr n).epage = s.epage := rfl
@[simp] theorem State.advanceAddr_tx (s : State) (n : Nat) : (s.advanceAddr n).tx = s.tx := rfl
@[simp] theorem State.advanceAddr_exit (s : State) (n : Nat) : (s.advanceAddr n).exit = s.exit := rfl
@[simp] theorem State.advanceAddr_port (s : State) (n : Nat) : (s.advanceAddr n).port = s.port := rfl
@[simp] theorem State.advanceAddr_rx (s : State) (n : Nat) : (s.advanceAddr n).rx = s.rx := rfl
@[simp] theorem State.advanceAddr_losses (s : State) (n : Nat) : (s.advanceAddr n).losses = s.losses := rfl

/-! ### State.restart -/

@[simp] theorem State.restart_cfg (s : State) : (s.restart).cfg = s.cfg := rfl
@[simp] theorem State.restart_control (s : State) : (s.restart).control = .awaitStart := rfl
@[simp] theorem State.restart_seq (s : State) : (s.restart).seq = s.seq := rfl
@[simp] theorem State.restart_ck (s : State) : (s.restart).ck = s.ck := rfl
@[simp] theorem State.restart_len (s : State) : (s.restart).len = s.len := rfl
@[simp] theorem State.restart_addr (s : State) : (s.restart).addr = s.addr := rfl
@[simp] theorem State.restart_leave (s : State) : (s.restart).leave = s.leave := rfl
@[simp] theorem State.restart_idx (s : State) : (s.restart).idx = s.idx := rfl
@[simp] theorem State.restart_buf (s : State) : (s.restart).buf = s.buf := rfl
@[simp] theorem State.restart_rlen (s : State) : (s.restart).rlen = s.rlen := rfl
@[simp] theorem State.restart_epage (s : State) : (s.restart).epage = s.epage := rfl
@[simp] theorem State.restart_tx (s : State) : (s.restart).tx = s.tx := rfl
@[simp] theorem State.restart_exit (s : State) : (s.restart).exit = s.exit := rfl
@[simp] theorem State.restart_port (s : State) : (s.restart).port = s.port := rfl
@[simp] theorem State.restart_rx (s : State) : (s.restart).rx = s.rx := rfl
@[simp] theorem State.restart_losses (s : State) : (s.restart).losses = s.losses := rfl

/-! ### State.withPayload -/

@[simp] theorem State.withPayload_cfg (s : State) (p : List Byte) : (s.withPayload p).cfg = s.cfg := rfl
@[simp] theorem State.withPayload_control (s : State) (p : List Byte) : (s.withPayload p).control = .frameReady := rfl
@[simp] theorem State.withPayload_seq (s : State) (p : List Byte) : (s.withPayload p).seq = s.seq := rfl
@[simp] theorem State.withPayload_ck (s : State) (p : List Byte) : (s.withPayload p).ck = s.ck := rfl
@[simp] theorem State.withPayload_len (s : State) (p : List Byte) : (s.withPayload p).len = BitVec.ofNat 16 p.length := rfl
@[simp] theorem State.withPayload_addr (s : State) (p : List Byte) : (s.withPayload p).addr = s.addr := rfl
@[simp] theorem State.withPayload_leave (s : State) (p : List Byte) : (s.withPayload p).leave = s.leave := rfl
@[simp] theorem State.withPayload_idx (s : State) (p : List Byte) : (s.withPayload p).idx = s.idx := rfl
@[simp] theorem State.withPayload_buf (s : State) (p : List Byte) : (s.withPayload p).buf = bufPut s.buf 0 p := rfl
@[simp] theorem State.withPayload_rlen (s : State) (p : List Byte) : (s.withPayload p).rlen = s.rlen := rfl
@[simp] theorem State.withPayload_epage (s : State) (p : List Byte) : (s.withPayload p).epage = s.epage := rfl
@[simp] theorem State.withPayload_tx (s : State) (p : List Byte) : (s.withPayload p).tx = s.tx := rfl
@[simp] theorem State.withPayload_exit (s : State) (p : List Byte) : (s.withPayload p).exit = s.exit := rfl
@[simp] theorem State.withPayload_port (s : State) (p : List Byte) : (s.withPayload p).port = s.port := rfl
@[simp] theorem State.withPayload_rx (s : State) (p : List Byte) : (s.withPayload p).rx = s.rx := rfl
@[simp] theorem State.withPayload_losses (s : State) (p : List Byte) : (s.withPayload p).losses = s.losses := rfl

/-! ### State.loseBytes -/

@[simp] theorem State.loseBytes_cfg (s : State) : s.loseBytes.cfg = s.cfg := by
  unfold State.loseBytes; split <;> rfl
@[simp] theorem State.loseBytes_control (s : State) : s.loseBytes.control = s.control := by
  unfold State.loseBytes; split <;> rfl
@[simp] theorem State.loseBytes_seq (s : State) : s.loseBytes.seq = s.seq := by
  unfold State.loseBytes; split <;> rfl
@[simp] theorem State.loseBytes_ck (s : State) : s.loseBytes.ck = s.ck := by
  unfold State.loseBytes; split <;> rfl
@[simp] theorem State.loseBytes_len (s : State) : s.loseBytes.len = s.len := by
  unfold State.loseBytes; split <;> rfl
@[simp] theorem State.loseBytes_addr (s : State) : s.loseBytes.addr = s.addr := by
  unfold State.loseBytes; split <;> rfl
@[simp] theorem State.loseBytes_leave (s : State) : s.loseBytes.leave = s.leave := by
  unfold State.loseBytes; split <;> rfl
@[simp] theorem State.loseBytes_idx (s : State) : s.loseBytes.idx = s.idx := by
  unfold State.loseBytes; split <;> rfl
@[simp] theorem State.loseBytes_buf (s : State) : s.loseBytes.buf = s.buf := by
  unfold State.loseBytes; split <;> rfl
@[simp] theorem State.loseBytes_rlen (s : State) : s.loseBytes.rlen = s.rlen := by
  unfold State.loseBytes; split <;> rfl
@[simp] theorem State.loseBytes_epage (s : State) : s.loseBytes.epage = s.epage := by
  unfold State.loseBytes; split <;> rfl
@[simp] theorem State.loseBytes_tx (s : State) : s.loseBytes.tx = s.tx := by
  unfold State.loseBytes; split <;> rfl
@[simp] theorem State.loseBytes_exit (s : State) : s.loseBytes.exit = s.exit := by
  unfold State.loseBytes; split <;> rfl
@[simp] theorem State.loseBytes_port (s : State) : s.loseBytes.port = s.port := by
  unfold State.loseBytes; split <;> rfl

theorem State.loseBytes_rx (s : State) : s.loseBytes.rx = dropLost (s.losses.headD []) s.rx := by
  unfold State.loseBytes; split <;> simp_all [dropLost]

theorem State.loseBytes_losses (s : State) : s.loseBytes.losses = s.losses.tail := by
  unfold State.loseBytes; split <;> simp_all

theorem State.loseBytes_of_nil (s : State) (h : s.losses = []) : s.loseBytes = s := by
  unfold State.loseBytes; simp [h]

/-- The fetch does not see the losses. -/
@[simp] theorem State.loseBytes_payload (s : State) : s.loseBytes.payload = s.payload := by
  simp [State.payload]

/-- What is left of the input is in order, with nothing added. -/
theorem dropLost_sublist (lost : List Bool) (rx : List RxEvent) : (dropLost lost rx).Sublist rx := by
  induction lost, rx using dropLost.induct with
  | case1 rx => exact List.Sublist.refl _
  | case2 => exact List.Sublist.refl _
  | case3 l more rx ih => rw [dropLost]; exact ih.cons_cons _
  | case4 more b rx ih => rw [dropLost]; exact ih.cons _
  | case5 more b rx ih => rw [dropLost]; exact ih.cons_cons _

end Sys2Proof.Machine
end

