-- ==== Sys2Proof/Laws/Reply.lean ====
section
/-! SUPPORT. The payload buffer, and what the reply operation does: the one lemma the meanings' results rest on. -/

namespace Sys2Proof.Machine

theorem bufPut_take {buf bs : List Byte} {off : Nat} (h : off ≤ buf.length) :
    (bufPut buf off bs).take (off + bs.length) = buf.take off ++ bs := by
  have hl : (buf.take off ++ bs).length = off + bs.length := by simp; omega
  rw [bufPut, ← hl, List.take_left']
  exact hl.symm ▸ rfl

theorem bufPut_drop {buf bs : List Byte} {off : Nat} (h : off ≤ buf.length) :
    (bufPut buf off bs).drop (off + bs.length) = buf.drop (off + bs.length) := by
  have hl : (buf.take off ++ bs).length = off + bs.length := by simp; omega
  rw [bufPut, List.drop_left' hl]

theorem bufPut_length {buf bs : List Byte} {off : Nat} (h : off + bs.length ≤ buf.length) :
    (bufPut buf off bs).length = buf.length := by
  simp [bufPut]; omega

/-- Bytes written behind bytes just written. -/
theorem bufPut_bufPut (buf as bs : List Byte) (off : Nat) :
    bufPut (bufPut buf off as) (off + as.length) bs = bufPut buf off (as ++ bs) := by
  apply List.ext_getElem?
  intro i
  simp only [bufPut, List.getElem?_append, List.getElem?_take, List.getElem?_drop, List.length_append, List.length_take,
    List.length_drop]
  grind

theorem State.putBuf_putBuf (s : State) (as bs : List Byte) (off : Nat) :
    (s.putBuf off as).putBuf (off + as.length) bs = s.putBuf off (as ++ bs) := by
  simp only [State.putBuf, bufPut_bufPut]

@[simp] theorem State.putBuf_nil (s : State) (off : Nat) : s.putBuf off [] = s := by simp [State.putBuf, bufPut]

/-- The payload placed at the start of the buffer. -/
theorem bufPut_zero_take (buf bs : List Byte) : (bufPut buf 0 bs).take bs.length = bs := by
  simpa using bufPut_take (buf := buf) (bs := bs) (Nat.zero_le _)

theorem bufPut_one_take {buf bs : List Byte} {code : Byte} (h : buf.head? = some code) :
    (bufPut buf 1 bs).take (1 + bs.length) = code :: bs := by
  cases buf with
  | nil => cases h
  | cons x xs =>
    simp only [List.head?_cons, Option.some.injEq] at h
    rw [bufPut_take (by simp), h]; rfl

theorem bufPut_one_drop {buf bs : List Byte} {code : Byte} (h : buf.head? = some code) :
    (bufPut buf 1 bs).drop (1 + bs.length) = buf.drop (1 + bs.length) := by
  cases buf with
  | nil => cases h
  | cons x xs => exact bufPut_drop (by simp)

theorem Prepared.refl (s : State) : Prepared s s := ⟨rfl, rfl, rfl, rfl, rfl, rfl, rfl, rfl, rfl, rfl, rfl, rfl⟩

theorem Prepared.trans {a b c : State} (h : Prepared a b) (k : Prepared b c) : Prepared a c :=
  ⟨k.cfg.trans h.cfg, k.control.trans h.control, k.seq.trans h.seq, k.ck.trans h.ck, k.len.trans h.len,
    k.idx.trans h.idx, k.buf.trans h.buf, k.rlen.trans h.rlen, k.tx.trans h.tx, k.exit.trans h.exit,
    k.rx.trans h.rx, k.losses.trans h.losses⟩

/-- What the four fields a command may change become. -/
theorem Prepared.of_update (s : State) (a : Addr) (l : Bool) (e : Option Addr) (p : Port) :
    Prepared s { s with addr := a, leave := l, epage := e, port := p } :=
  ⟨rfl, rfl, rfl, rfl, rfl, rfl, rfl, rfl, rfl, rfl, rfl, rfl⟩

/-- Everything the reply operation does, once. -/
theorem reply_replied {s s1 : State} (h : Prepared s s1) {code : Byte} (hc : s.buf.head? = some code) (bs : List Byte) :
    ∃ t, reply bs s1 = .next t ∧ Replied s t (code :: bs) ∧ t.addr = s1.addr ∧ t.leave = s1.leave
      ∧ t.epage = s1.epage ∧ t.port = s1.port := by
  have hl : (code :: bs).length = 1 + bs.length := by simp; omega
  have ht : (bufPut s.buf 1 bs).take (1 + bs.length) = code :: bs := bufPut_one_take hc
  refine ⟨_, rfl, ⟨?_, ?_, ?_, ?_, ?_, ?_, ?_, ?_, ?_, ?_, ?_, ?_, ?_⟩, rfl, rfl, rfl, rfl⟩
  · simp only [State.sendReply_tx, State.setReply_tx, State.setReply_seq, State.setReply_rlen, State.setReply_buf,
      State.sendReply_rlen, h.tx, h.seq, h.buf]
    congr 2
    rw [← ht, List.take_take, BitVec.toNat_ofNat, Nat.min_eq_left (Nat.mod_le _ _)]
  · simp [h.seq]
  · rfl
  · simp [h.exit]
  · simp [Nat.add_comm]
  · rw [hl]; simpa [h.buf] using ht
  · rw [hl]; simpa [h.buf] using bufPut_one_drop hc
  · simp [h.cfg]
  · simp [h.ck]
  · simp [h.len]
  · simp [h.idx]
  · simp [h.rx]
  · simp [h.losses]

/-- The end of a reading command is the reply of the bytes that stand in BUF. -/
theorem replyRead_eq (s : State) (bytes : List Byte) :
    replyRead bytes.length (s.putBuf 1 (STATUS_OK :: bytes)) = reply ([STATUS_OK] ++ bytes ++ [STATUS_OK]) s := by
  have e := State.putBuf_putBuf s (STATUS_OK :: bytes) [STATUS_OK] 1
  rw [show 1 + (STATUS_OK :: bytes).length = bytes.length + 2 by simp; omega] at e
  rw [replyRead, e, reply]
  simp only [State.setReply, State.putBuf, List.cons_append, List.nil_append, List.length_cons, List.length_append,
    List.length_nil, show 1 + (bytes.length + (0 + 1) + 1) = bytes.length + 3 by omega]

end Sys2Proof.Machine
end

