-- ==== Sys2Proof/Laws/Commands.lean ====
section
/-! SUPPORT. What the commands can do before they reply, said once: a chain of port requests that self-protection allows and
of writes to ADDR, EPAGE and LEAVE. Every frame and every whole-machine rule about commands follows from it. -/

namespace Sys2Proof.Machine

/-- `Work s t`: a command brought `s` to `t` by port requests, each allowed on a legal instance, and by writes to ADDR (always
a wrapped value), EPAGE and LEAVE (only to 1, only with P_LEAVE_ENABLED). -/
inductive Work : State → State → Prop where
  | done (s : State) : Work s s
  | request {s t u : State} (r : PortRequest) (allowed : Legal s.cfg → requestAllowed s.cfg r)
      (ok : s.request r = .ok t) (rest : Work t u) : Work s u
  | addr {s u : State} (n : Nat) (rest : Work { s with addr := wrapAddr s.cfg n } u) : Work s u
  | epage {s u : State} (p : Option Addr) (rest : Work { s with epage := p } u) : Work s u
  | leave {s u : State} (enabled : s.cfg.leaveEnabled = true) (rest : Work { s with leave := true } u) : Work s u

theorem Work.trans {s t u : State} (h : Work s t) (k : Work t u) : Work s u := by
  induction h with
  | done => exact k
  | request r allowed ok _ ih => exact .request r allowed ok (ih k)
  | addr n _ ih => exact .addr n (ih k)
  | epage p _ ih => exact .epage p (ih k)
  | leave enabled _ ih => exact .leave enabled (ih k)

theorem State.request_prepared {s t : State} {r : PortRequest} (h : s.request r = .ok t) : Prepared s t := by
  obtain ⟨q, -, rfl⟩ := State.request_ok h
  exact Prepared.of_update s s.addr s.leave s.epage q

theorem Work.prepared {s t : State} (h : Work s t) : Prepared s t := by
  induction h with
  | done s => exact Prepared.refl s
  | request r _ ok _ ih => exact (State.request_prepared ok).trans ih
  | @addr s u n _ ih => exact (Prepared.of_update s _ s.leave s.epage s.port).trans ih
  | @epage s u p _ ih => exact (Prepared.of_update s s.addr s.leave p s.port).trans ih
  | @leave s u _ _ ih => exact (Prepared.of_update s s.addr _ s.epage s.port).trans ih

/-- The requests of a piece of work: recorded in order, all allowed on a legal instance. -/
theorem Work.log {s t : State} (h : Work s t) :
    ∃ rs, t.port.log = s.port.log ++ rs ∧ (Legal s.cfg → ∀ r ∈ rs, requestAllowed s.cfg r) := by
  induction h with
  | done s => exact ⟨[], by simp, by simp⟩
  | @request s t u r allowed ok _ ih =>
    obtain ⟨rs, h1, h2⟩ := ih
    obtain ⟨q, hq, rfl⟩ := State.request_ok ok
    refine ⟨r :: rs, by rw [h1, show q.log = _ from Port.perform_log hq]; simp, fun hl x hx => ?_⟩
    rcases List.mem_cons.1 hx with rfl | hx
    · exact allowed hl
    · exact h2 hl x hx
  | addr n _ ih => exact ih
  | epage p _ ih => exact ih
  | leave _ _ ih => exact ih

/-- Work on a legal instance leaves flash at and above the boundary alone. -/
theorem Work.boot {s t : State} (h : Work s t) (hl : Legal s.cfg) {b : Nat} (hb : s.cfg.bootBoundary ≤ b) :
    t.port.flash.read b = s.port.flash.read b := by
  induction h with
  | done => rfl
  | request r allowed ok _ ih =>
    obtain ⟨q, hq, rfl⟩ := State.request_ok ok
    exact (ih hl hb).trans (Port.perform_boot hq (allowed hl) hb)
  | addr n _ ih => exact ih hl hb
  | epage p _ ih => exact ih hl hb
  | leave _ _ ih => exact ih hl hb

/-- Work keeps the memories canonical and inside their arrays. -/
theorem Work.memories {s t : State} (h : Work s t) :
    (s.port.flash.wf = true → t.port.flash.wf = true) ∧ (s.port.eeprom.wf = true → t.port.eeprom.wf = true)
      ∧ ((∀ x ∈ s.port.flash, x.1 < s.cfg.flashSize) → ∀ x ∈ t.port.flash, x.1 < s.cfg.flashSize)
      ∧ ((∀ x ∈ s.port.eeprom, x.1 < s.cfg.eepromSize) → ∀ x ∈ t.port.eeprom, x.1 < s.cfg.eepromSize) := by
  induction h with
  | done => exact ⟨id, id, id, id⟩
  | request r _ ok _ ih =>
    obtain ⟨q, hq, rfl⟩ := State.request_ok ok
    have h1 := Port.perform_wf hq
    have h2 := Port.perform_fits hq
    exact ⟨fun h => ih.1 (h1.1 h), fun h => ih.2.1 (h1.2 h), fun h => ih.2.2.1 (h2.1 h), fun h => ih.2.2.2 (h2.2 h)⟩
  | addr n _ ih => exact ih
  | epage p _ ih => exact ih
  | leave _ _ ih => exact ih

/-- Work keeps ADDR within W bits. -/
theorem Work.address {s t : State} (h : Work s t) (ha : s.addr.toNat < 2 ^ s.cfg.addrWidth.bits) :
    t.addr.toNat < 2 ^ s.cfg.addrWidth.bits := by
  induction h with
  | done => exact ha
  | request r _ ok _ ih =>
    obtain ⟨q, -, rfl⟩ := State.request_ok ok
    exact ih ha
  | @addr s u n _ ih =>
    exact ih (by rw [wrapAddr_toNat]; exact Nat.mod_lt _ (two_pow_bits_pos _))
  | epage p _ ih => exact ih ha
  | leave _ _ ih => exact ih ha

/-- Work on an instance that cannot leave keeps LEAVE; it never clears it. -/
theorem Work.leaveFlag {s t : State} (h : Work s t) :
    t.leave = s.leave ∨ (t.leave = true ∧ s.cfg.leaveEnabled = true) := by
  induction h with
  | done => exact .inl rfl
  | request r _ ok _ ih =>
    obtain ⟨q, -, rfl⟩ := State.request_ok ok
    exact ih
  | addr n _ ih => exact ih
  | epage p _ ih => exact ih
  | @leave s u enabled _ ih =>
    rcases ih with ih | ih
    · exact .inr ⟨ih, enabled⟩
    · exact .inr ih

/-! ### The loops of the memory commands are work -/

theorem Work.one {s t : State} {r : PortRequest} (allowed : Legal s.cfg → requestAllowed s.cfg r)
    (ok : s.request r = .ok t) : Work s t := .request r allowed ok (.done t)

theorem Work.advance (s : State) (n : Nat) : Work s (s.advanceAddr n) := .addr _ (.done _)

/-- The erase of the page of a byte below the boundary is allowed. -/
theorem Legal.eraseAllowed {c : Config} (hl : Legal c) {a : Addr} (ha : a.toNat < c.bootBoundary) :
    requestAllowed c (.eraseFlash (pageOf c a)) := by
  have h1 := hl.pageBelow ha
  have h2 := Nat.div_add_mod a.toNat c.pageSize
  refine ⟨by rw [pageOf_toNat]; omega, by rw [pageOf_toNat]; exact h1, ?_⟩
  rw [pageOf_toNat, ← h2, Nat.add_mod, Nat.mul_mod_right]
  simp

/-- The page erase of a byte below the boundary is work; it leaves ADDR alone. -/
theorem erasePageOnce_work {a : Addr} {s t : State} (h : erasePageOnce a s = .ok t)
    (ha : a.toNat < s.cfg.bootBoundary) : Work s t ∧ t.addr = s.addr ∧ t.cfg = s.cfg := by
  unfold erasePageOnce at h
  split at h
  · cases h; exact ⟨.done _, rfl, rfl⟩
  · split at h
    · rename_i s1 ok
      cases h
      obtain ⟨q, hq, rfl⟩ := State.request_ok ok
      exact ⟨.request _ (fun hl => hl.eraseAllowed ha) ok (.epage _ (.done _)), rfl, rfl⟩
    · cases h

theorem wrapAddr_even (c : Config) {n : Nat} (h : n % 2 = 0) : (wrapAddr c n).toNat % 2 = 0 := by
  rw [wrapAddr_toNat]
  have h1 := Nat.div_add_mod n (2 ^ c.addrWidth.bits)
  have h2 := two_pow_bits_even c.addrWidth
  obtain ⟨k, hk⟩ := Nat.dvd_of_mod_eq_zero h2
  rw [hk] at h1 ⊢
  rw [Nat.mul_assoc] at h1
  omega

theorem programWord_work {lo hi : Byte} {s t : State} (h : programWord lo hi s = .ok t) (he : s.addr.toNat % 2 = 0) :
    Work s t ∧ t.addr.toNat % 2 = 0 := by
  unfold programWord at h
  have hodd : (wrapAddr s.cfg (s.addr.toNat + 2)).toNat % 2 = 0 := wrapAddr_even _ (by omega)
  split at h
  · rename_i hb
    split at h
    · rename_i s1 h1
      obtain ⟨w1, a1, c1⟩ := erasePageOnce_work h1 hb
      split at h
      · rename_i s2 h2
        cases h
        obtain ⟨q, hq, rfl⟩ := State.request_ok h2
        refine ⟨w1.trans (.request _ (fun hl => ?_) h2 (Work.advance _ 2)), ?_⟩
        · rw [c1] at hl ⊢
          exact ⟨hb, hl.wordBelow he hb, he⟩
        · simp only [State.advanceAddr_addr, a1, c1]; exact hodd
      · cases h
    · cases h
  · cases h
    exact ⟨Work.advance s 2, hodd⟩

theorem programWords_work {data : List Byte} {s t : State} (h : programWords data s = .ok t)
    (he : s.addr.toNat % 2 = 0) : Work s t := by
  induction data, s using programWords.induct generalizing t with
  | case1 lo hi rest s s1 h1 ih =>
    rw [programWords, h1] at h
    obtain ⟨w1, e1⟩ := programWord_work h1 he
    exact w1.trans (ih h e1)
  | case2 lo hi rest s r h1 => rw [programWords, h1] at h; cases h
  | case3 data s hne =>
    have : programWords data s = .ok s := by
      unfold programWords
      split
      · exact absurd rfl (hne _ _ _)
      · rfl
    rw [this] at h; cases h; exact .done _

theorem programBytes_work {data : List Byte} {s t : State} (h : programBytes data s = .ok t) : Work s t := by
  induction data generalizing s with
  | nil => cases h; exact .done _
  | cons v rest ih =>
    rw [programBytes] at h
    split at h
    · rename_i s1 h1
      exact .request _ (by exact fun _ => trivial) h1 ((Work.advance s1 1).trans (ih h))
    · cases h

/-! ### The reading loops -/

/-- `Reads r ans w s n bytes u`: from `s` to `u` the block made `n` requests `r ADDR`, got the bytes `ans` each time and
advanced ADDR by `w` behind each. What the loops write to BUF is not part of it. -/
inductive Reads (r : Addr → PortRequest) (ans : State → List Byte) (w : Nat) : State → Nat → List Byte → State → Prop where
  | done (s : State) : Reads r ans w s 0 [] s
  | next {s s1 u : State} {n : Nat} {bytes : List Byte} (ok : s.request (r s.addr) = .ok s1)
      (rest : Reads r ans w (s1.advanceAddr w) n bytes u) : Reads r ans w s (n + 1) (ans s ++ bytes) u

/-- The bytes of the flash word at ADDR, as the port answers, low byte first. -/
def wordAnswer (s : State) : List Byte :=
  [loByte (s.port.flashAnswer s.cfg s.addr), hiByte (s.port.flashAnswer s.cfg s.addr)]

/-- The EEPROM byte at ADDR, as the port answers. -/
def byteAnswer (s : State) : List Byte := [s.port.eepromAnswer s.cfg s.addr]

theorem Reads.work {r : Addr → PortRequest} {ans : State → List Byte} {w n : Nat} {s u : State} {bytes : List Byte}
    (h : Reads r ans w s n bytes u) (hr : ∀ c a, requestAllowed c (r a)) : Work s u := by
  induction h with
  | done s => exact .done s
  | next ok _ ih => exact (Work.one (fun _ => hr _ _) ok).trans ((Work.advance _ w).trans ih)

theorem Reads.length {r : Addr → PortRequest} {ans : State → List Byte} {w n : Nat} {s u : State} {bytes : List Byte}
    (h : Reads r ans w s n bytes u) (hw : ∀ s, (ans s).length = w) : bytes.length = w * n := by
  induction h with
  | done s => rfl
  | next ok _ ih => rw [List.length_append, ih, hw, Nat.mul_add, Nat.mul_one, Nat.add_comm]

theorem State.request_withBuf {s t : State} {r : PortRequest} (b : List Byte) (h : s.request r = .ok t) :
    { s with buf := b }.request r = .ok { t with buf := b } := by
  obtain ⟨q, hq, rfl⟩ := State.request_ok h
  exact State.request_of_perform hq

/-- The reads do not depend on BUF. -/
theorem Reads.withBuf {r : Addr → PortRequest} {ans : State → List Byte} {w n : Nat} {s u : State} {bytes : List Byte}
    (h : Reads r ans w s n bytes u) (b : List Byte) (hb : ∀ s : State, ans { s with buf := b } = ans s) :
    Reads r ans w { s with buf := b } n bytes { u with buf := b } := by
  induction h with
  | done s => exact .done _
  | @next s s1 u n bytes ok _ ih => rw [← hb s]; exact .next (State.request_withBuf b ok) ih

/-- A request the port of the instance `c` cannot perform: the reference port's, outside its arrays (20_memory R78). -/
def BadRequest (c : Config) (r : PortRequest) : Prop := c.portKind = .reference ∧ requestInRange c r = false

/-- Everything a reading loop can do: all its reads, or those before one the port cannot perform; either way the bytes read
stand in BUF. -/
def ReadLoop (r : Addr → PortRequest) (ans : State → List Byte) (w off n : Nat) (s : State) (o : Except Fault State) : Prop :=
  ∃ m bytes u, Reads r ans w s m bytes u ∧
    ((m = n ∧ o = .ok (u.putBuf off bytes))
      ∨ (m < n ∧ BadRequest s.cfg (r u.addr) ∧ o = .error (.portFault (r u.addr) (u.putBuf off bytes))))

/-- One more read before a loop's. -/
theorem ReadLoop.next {r : Addr → PortRequest} {ans : State → List Byte} {w off n : Nat} {s s1 : State} {o : Except Fault State}
    (hr : ∀ c a, requestAllowed c (r a)) (hb : ∀ (s : State) b, ans { s with buf := b } = ans s)
    (ok : s.request (r s.addr) = .ok s1)
    (h : ReadLoop r ans w (off + (ans s).length) n ((s1.putBuf off (ans s)).advanceAddr w) o) : ReadLoop r ans w off (n + 1) s o := by
  obtain ⟨m, bytes, u, h1, h2⟩ := h
  have hbuf : u.buf = (s1.putBuf off (ans s)).buf := (h1.work hr).prepared.buf
  have e : u.putBuf (off + (ans s).length) bytes = { u with buf := s1.buf }.putBuf off (ans s ++ bytes) := by
    rw [← State.putBuf_putBuf]
    simp only [State.putBuf]
    rw [hbuf]; rfl
  have hcfg : s1.cfg = s.cfg := (State.request_prepared ok).cfg
  refine ⟨m + 1, _, { u with buf := s1.buf }, .next ok (h1.withBuf s1.buf (fun s => hb s _)), ?_⟩
  rcases h2 with ⟨rfl, rfl⟩ | ⟨hm, hbad, rfl⟩
  · exact .inl ⟨rfl, by rw [e]⟩
  · refine .inr ⟨by omega, ?_, by rw [e]⟩
    rw [← hcfg]; exact hbad

/-- No read done. -/
theorem ReadLoop.error {r : Addr → PortRequest} {ans : State → List Byte} {w off n : Nat} {s : State} {f : Fault}
    (h : s.request (r s.addr) = .error f) : ReadLoop r ans w off (n + 1) s (.error f) := by
  obtain ⟨h1, h2, rfl⟩ := State.request_error h
  exact ⟨0, [], s, .done s, .inr ⟨by omega, ⟨h1, h2⟩, by simp⟩⟩

@[simp] theorem wordAnswer_length (s : State) : (wordAnswer s).length = 2 := rfl

@[simp] theorem byteAnswer_length (s : State) : (byteAnswer s).length = 1 := rfl

theorem wordAnswer_withBuf (s : State) (b : List Byte) : wordAnswer { s with buf := b } = wordAnswer s := rfl

theorem byteAnswer_withBuf (s : State) (b : List Byte) : byteAnswer { s with buf := b } = byteAnswer s := rfl

/-- Self-protection allows every read. -/
theorem readFlash_allowed (c : Config) (a : Addr) : requestAllowed c (.readFlash a) := trivial

theorem readEeprom_allowed (c : Config) (a : Addr) : requestAllowed c (.readEeprom a) := trivial

theorem readWords_read (k n : Nat) (s : State) : ReadLoop .readFlash wordAnswer 2 (2 + k) n s (readWords k n s) := by
  induction n generalizing k s with
  | zero => exact ⟨0, [], s, .done s, .inl ⟨rfl, by simp [readWords]⟩⟩
  | succ n ih =>
    rw [readWords]
    split
    · rename_i s1 ok
      exact .next readFlash_allowed wordAnswer_withBuf ok (ih (k + 2) _)
    · rename_i f h; exact .error h

theorem readBytes_read (k n : Nat) (s : State) : ReadLoop .readEeprom byteAnswer 1 (2 + k) n s (readBytes k n s) := by
  induction n generalizing k s with
  | zero => exact ⟨0, [], s, .done s, .inl ⟨rfl, by simp [readBytes]⟩⟩
  | succ n ih =>
    rw [readBytes]
    split
    · rename_i s1 ok
      exact .next readEeprom_allowed byteAnswer_withBuf ok (ih (k + 1) _)
    · rename_i f h; exact .error h

/-- Everything a reading command that is not malformed can do: all its reads and the reply of their bytes, or PortFault at a
read the port cannot perform, with the status and the bytes read before it in BUF (42_memory R173, R174; 60_exceptions
R245). -/
def ReadRun (r : Addr → PortRequest) (ans : State → List Byte) (w n : Nat) (s : State)
    (o : Host.Outcome State Fault Refusal) : Prop :=
  ∃ m bytes u, Reads r ans w s m bytes u ∧
    ((m = n ∧ o = reply ([STATUS_OK] ++ bytes ++ [STATUS_OK]) u)
      ∨ (m < n ∧ BadRequest s.cfg (r u.addr)
          ∧ o = .fault (.portFault (r u.addr) (u.putBuf 1 (STATUS_OK :: bytes)))))

/-- A reading loop begun behind the status, and what follows it. -/
theorem ReadRun.of_read {r : Addr → PortRequest} {ans : State → List Byte} {w n size : Nat} {s : State}
    {o : Except Fault State} (hr : ∀ c a, requestAllowed c (r a)) (hb : ∀ (s : State) b, ans { s with buf := b } = ans s)
    (hw : ∀ s, (ans s).length = w) (hn : w * n = size) :
    ReadLoop r ans w 2 n (s.putBuf 1 [STATUS_OK]) o → ReadRun r ans w n s (match o with
      | .ok t => replyRead size t
      | .error f => .fault f) := by
  intro ⟨m, bytes, u, h1, h2⟩
  have hbuf : u.buf = (s.putBuf 1 [STATUS_OK]).buf := (h1.work hr).prepared.buf
  have e : u.putBuf 2 bytes = { u with buf := s.buf }.putBuf 1 (STATUS_OK :: bytes) := by
    rw [show STATUS_OK :: bytes = [STATUS_OK] ++ bytes from rfl, ← State.putBuf_putBuf]
    simp only [State.putBuf]
    rw [hbuf]; rfl
  refine ⟨m, bytes, { u with buf := s.buf }, h1.withBuf s.buf (fun s => hb s _), ?_⟩
  rcases h2 with ⟨rfl, rfl⟩ | ⟨hm, hbad, rfl⟩
  · refine .inl ⟨rfl, ?_⟩
    simp only [e]
    rw [← hn, ← h1.length hw, replyRead_eq]
  · exact .inr ⟨hm, hbad, by simp only [e]⟩

theorem execReadFlashIsp_run {n : Half} {s : State} (hm : readFlashMalformed s.cfg n = false) :
    ReadRun .readFlash wordAnswer 2 (n.toNat / 2) s (execReadFlashIsp (some n) s) := by
  have h2 : 2 * (n.toNat / 2) = n.toNat := by
    simp only [readFlashMalformed, Bool.or_eq_false_iff, beq_eq_false_iff_ne] at hm
    omega
  simp only [execReadFlashIsp, hm, Bool.false_eq_true, if_false]
  exact ReadRun.of_read readFlash_allowed wordAnswer_withBuf wordAnswer_length h2 (readWords_read 0 _ _)

theorem execReadEepromIsp_run {n : Half} {s : State} (hm : readEepromMalformed s.cfg n = false) :
    ReadRun .readEeprom byteAnswer 1 n.toNat s (execReadEepromIsp (some n) s) := by
  simp only [execReadEepromIsp, hm, Bool.false_eq_true, if_false]
  exact .of_read readEeprom_allowed byteAnswer_withBuf byteAnswer_length (Nat.one_mul _) (readBytes_read 0 _ _)

/-- A reading command that completes: its reads are work, and the reply is as long as they say. -/
theorem ReadRun.next {r : Addr → PortRequest} {ans : State → List Byte} {w n : Nat} {s t : State}
    (hr : ∀ c a, requestAllowed c (r a)) (hw : ∀ s, (ans s).length = w) (h : ReadRun r ans w n s (.next t)) :
    ∃ bytes u, Reads r ans w s n bytes u ∧ Work s u ∧ bytes.length = w * n
      ∧ reply ([STATUS_OK] ++ bytes ++ [STATUS_OK]) u = .next t := by
  obtain ⟨m, bytes, u, h1, ⟨rfl, h2⟩ | ⟨-, -, h2⟩⟩ := h
  · exact ⟨bytes, u, h1, h1.work hr, h1.length hw, h2.symm⟩
  · cases h2

/-! ### Every command -/

/-- What a command's reply bytes BUF[1..] are: a status first, and they fit the buffer of a legal instance. -/
structure ReplyBytes (c : Config) (bs : List Byte) : Prop where
  status : bs.head? = some 0x00 ∨ bs.head? = some 0xC0
  fits : bs.length ≤ 10 ∨ bs.length + 1 ≤ c.cap

theorem ReplyBytes.ok {c : Config} {bs : List Byte} (h : bs.length ≤ 9) : ReplyBytes c (STATUS_OK :: bs) :=
  ⟨.inl rfl, .inl (by simp; omega)⟩

theorem ReplyBytes.failed (c : Config) : ReplyBytes c [STATUS_FAILED] := ⟨.inr rfl, .inl (by simp)⟩

theorem malformed_next {cmd : Byte} {s t : State} (h : malformed cmd s = .next t) :
    s.cfg.malformedPolicy = .replyFailed ∧ reply [STATUS_FAILED] s = .next t := by
  unfold malformed at h
  split at h
  · rename_i hp; exact ⟨hp, h⟩
  · cases h

/-- What `exec` can do when it completes: some work, then one reply. -/
theorem exec_next {i : Instr} {s t : State} (h : exec i s = .next t) :
    ∃ s1 bs, Work s s1 ∧ reply bs s1 = .next t ∧ ReplyBytes s.cfg bs := by
  have plain : ∀ {bs}, reply bs s = .next t → ReplyBytes s.cfg bs →
      ∃ s1 bs, Work s s1 ∧ reply bs s1 = .next t ∧ ReplyBytes s.cfg bs :=
    fun {bs} h k => ⟨s, bs, .done s, h, k⟩
  have bad : ∀ {cmd}, malformed cmd s = .next t →
      ∃ s1 bs, Work s s1 ∧ reply bs s1 = .next t ∧ ReplyBytes s.cfg bs :=
    fun {cmd} h => plain (malformed_next h).2 (.failed _)
  cases i with
  | signOn => exact plain h (.ok (by decide))
  | setParameter => exact plain h (.ok (by decide))
  | enterProgmodeIsp => exact plain h (.ok (by decide))
  | chipEraseIsp => exact plain h (.ok (by decide))
  | unknown code => exact plain h (.failed _)
  | leaveProgmodeIsp =>
    refine ⟨{ s with leave := leaveAfter s.cfg s.leave }, _, ?_, h, .ok (by decide)⟩
    cases hl : s.cfg.leaveEnabled with
    | true => simpa [leaveAfter, hl] using Work.leave hl (.done _)
    | false => simpa [leaveAfter, hl] using Work.done s
  | getParameter id =>
    cases id with
    | none => exact bad h
    | some id => exact plain h (.ok (by simp))
  | loadAddress word =>
    cases word with
    | none => exact bad h
    | some w => exact ⟨_, _, .addr (wordAddress s.cfg w <<< 1) (.done _), h, .ok (by decide)⟩
  | programFlashIsp size data =>
    cases size with
    | none => exact bad h
    | some n =>
      simp only [exec, execProgramFlashIsp] at h
      split at h
      · exact bad h
      · rename_i hm
        split at h
        · rename_i s1 h1
          refine ⟨s1, _, .epage none (programWords_work h1 ?_), h, .ok (by decide)⟩
          simp only [programFlashMalformed, Bool.or_eq_true, beq_iff_eq, not_or] at hm
          have := hm.1.2
          simp only []
          omega
        · cases h
  | readFlashIsp size =>
    cases size with
    | none => exact bad h
    | some n =>
      by_cases hm : readFlashMalformed s.cfg n = true
      · exact bad (cmd := 0x14) (by simpa [exec, execReadFlashIsp, hm] using h)
      · have run := execReadFlashIsp_run (s := s) (by simpa using hm)
        rw [show execReadFlashIsp (some n) s = .next t from h] at run
        obtain ⟨bytes, u, -, w, l, e⟩ := run.next readFlash_allowed wordAnswer_length
        refine ⟨u, _, w, e, .inl rfl, .inr ?_⟩
        simp only [readFlashMalformed, Bool.or_eq_true, decide_eq_true_eq, not_or] at hm
        simp only [List.length_append, List.length_cons, List.length_nil, l]
        omega
  | programEepromIsp size data =>
    cases size with
    | none => exact bad h
    | some n =>
      simp only [exec, execProgramEepromIsp] at h
      split at h
      · exact bad h
      · split at h
        · rename_i s1 h1
          exact ⟨s1, _, programBytes_work h1, h, .ok (by decide)⟩
        · cases h
  | readEepromIsp size =>
    cases size with
    | none => exact bad h
    | some n =>
      by_cases hm : readEepromMalformed s.cfg n = true
      · exact bad (cmd := 0x16) (by simpa [exec, execReadEepromIsp, hm] using h)
      · have run := execReadEepromIsp_run (s := s) (by simpa using hm)
        rw [show execReadEepromIsp (some n) s = .next t from h] at run
        obtain ⟨bytes, u, -, w, l, e⟩ := run.next readEeprom_allowed byteAnswer_length
        refine ⟨u, _, w, e, .inl rfl, .inr ?_⟩
        simp only [readEepromMalformed, Bool.or_eq_true, decide_eq_true_eq, not_or] at hm
        simp only [List.length_append, List.length_cons, List.length_nil, l]
        omega
  | readFuseIsp cmds =>
    cases cmds with
    | none => exact bad h
    | some c =>
      simp only [exec, execReadFuseIsp] at h
      split at h
      · rename_i s1 h1; exact ⟨s1, _, Work.one (by exact fun _ => trivial) h1, h, .ok (by simp)⟩
      · cases h
  | programLockIsp v =>
    cases v with
    | none => exact bad h
    | some v =>
      simp only [exec, execProgramLockIsp] at h
      split at h
      · rename_i s1 h1; exact ⟨s1, _, Work.one (by exact fun _ => trivial) h1, h, .ok (by decide)⟩
      · cases h
  | readLockIsp =>
    simp only [exec, execReadLockIsp] at h
    split at h
    · rename_i s1 h1; exact ⟨s1, _, Work.one (by exact fun _ => trivial) h1, h, .ok (by simp)⟩
    · cases h
  | readSignatureIsp index =>
    cases index with
    | none => exact bad h
    | some k =>
      simp only [exec, execReadSignatureIsp] at h
      split at h
      · rename_i s1 h1; exact ⟨s1, _, Work.one (by exact fun _ => trivial) h1, h, .ok (by simp)⟩
      · cases h
  | spiMulti tx0 index =>
    cases tx0 with
    | none => exact bad h
    | some t0 =>
      simp only [exec, execSpiMulti] at h
      split at h
      · cases index with
        | none => exact bad h
        | some k =>
          simp only at h
          split at h
          · rename_i s1 h1; exact ⟨s1, _, Work.one (by exact fun _ => trivial) h1, h, .ok (by simp)⟩
          · cases h
      · exact plain h (.ok (by simp))

end Sys2Proof.Machine
end

