-- ==== Sys2Proof/Laws/Step.lean ====
section
/-! SUPPORT. What a step can do, said once: the inversion of `step`, and of the parser on a byte. -/

namespace Sys2Proof.Machine

/-- A step of a legal instance is the block's. -/
theorem step_of_legal {s : State} (h : configLegal s.cfg = true) : step s = blockStep s := by
  simp [step, instanceStep, h]

theorem blockStep_receiving {s : State} (h : s.control.receiving) : blockStep s = receiveStep s := by
  cases hc : s.control <;> simp_all [blockStep, Control.receiving]

theorem blockStep_frameReady {s : State} (h : s.control = .frameReady) :
    blockStep s = executeStep s.loseBytes := by
  simp [blockStep, h]

theorem blockStep_exited {s : State} (h : s.control = .exited) : blockStep s = .next s := by
  simp [blockStep, h]

/-- The nine control states: receiving, FrameReady, Exited. -/
theorem Control.cases (c : Control) : c.receiving ∨ c = .frameReady ∨ c = .exited := by
  cases c <;> simp [Control.receiving]

theorem Control.receiving_ne {c : Control} (h : c.receiving) : c ≠ .frameReady ∧ c ≠ .exited := by
  cases c <;> simp_all [Control.receiving]

/-- What an accepted byte does in each receive state, and that every other byte restarts (40_frame_parser R111 to R117). -/
theorem receiveByte_next {b : Byte} {s t : State} (h : receiveByte b s = .next t) (hr : s.control.receiving) :
    t = s.restart
    ∨ (s.control = .awaitStart ∧ b = START ∧ t = { s with ck := START, control := .awaitSequence })
    ∨ (s.control = .awaitSequence ∧ (b = 1 ∨ b = s.seq)
        ∧ t = { s with seq := b, ck := s.ck ^^^ b, control := .awaitLengthHigh })
    ∨ (s.control = .awaitLengthHigh
        ∧ t = { s with len := b.setWidth 16 <<< 8, ck := s.ck ^^^ b, control := .awaitLengthLow })
    ∨ (s.control = .awaitLengthLow
        ∧ t = { s with len := s.len ||| b.setWidth 16, ck := s.ck ^^^ b, control := .awaitToken })
    ∨ (s.control = .awaitToken ∧ b = TOKEN ∧ 1 ≤ s.len.toNat ∧ s.len.toNat ≤ s.cfg.cap
        ∧ t = { s with ck := s.ck ^^^ b, idx := 0, control := .awaitPayload })
    ∨ (s.control = .awaitPayload ∧ s.idx.toNat < s.cfg.cap
        ∧ t = { s with
            buf := s.buf.set s.idx.toNat b
            ck := s.ck ^^^ b
            idx := s.idx + 1
            control := if s.idx + 1 = s.len then .awaitChecksum else .awaitPayload })
    ∨ (s.control = .awaitChecksum ∧ b = s.ck ∧ t = { s with control := .frameReady }) := by
  cases hc : s.control with
  | awaitStart =>
    simp only [receiveByte, hc, awaitStartByte] at h
    split at h <;> cases h <;> simp_all
  | awaitSequence =>
    simp only [receiveByte, hc, awaitSequenceByte] at h
    split at h
    · rename_i hb
      cases h
      simp only [seqAccepted, Bool.or_eq_true, beq_iff_eq] at hb
      exact .inr (.inr (.inl ⟨rfl, hb, rfl⟩))
    · cases h; exact .inl rfl
  | awaitLengthHigh =>
    simp only [receiveByte, hc, awaitLengthHighByte] at h
    cases h; simp
  | awaitLengthLow =>
    simp only [receiveByte, hc, awaitLengthLowByte] at h
    cases h; simp
  | awaitToken =>
    simp only [receiveByte, hc, awaitTokenByte] at h
    split at h
    · rename_i hb
      cases h
      simp only [lenAccepted, Bool.and_eq_true, decide_eq_true_eq] at hb
      simp [hb.1, hb.2.1, hb.2.2]
    · cases h; simp
  | awaitPayload =>
    simp only [receiveByte, hc, awaitPayloadByte] at h
    split at h
    · cases h; simp_all
    · cases h
  | awaitChecksum =>
    simp only [receiveByte, hc, awaitChecksumByte] at h
    split at h <;> cases h <;> simp_all
  | frameReady => simp [hc, Control.receiving] at hr
  | exited => simp [hc, Control.receiving] at hr

/-- Everything a step can do when it answers a next state. -/
theorem step_next {s t : State} (h : step s = .next t) :
    configLegal s.cfg = true ∧
    ((s.control = .exited ∧ t = s)
      ∨ (s.control = .frameReady ∧ ∃ i, decode s.cfg s.payload = .ok i ∧ exec i s.loseBytes = .next t)
      ∨ (s.control.receiving ∧ s.rx = [] ∧ t = s)
      ∨ (s.control.receiving ∧ ∃ b rest, s.rx = .byte b :: rest ∧ receiveByte b { s with rx := rest } = .next t)
      ∨ (s.control.receiving ∧ ∃ rest, s.rx = .timeout :: rest ∧ s.cfg.timeoutEnabled = true
          ∧ t = { s with rx := rest, leave := true, control := .exited, exit := true })) := by
  by_cases hl : configLegal s.cfg = true
  · refine ⟨hl, ?_⟩
    rw [step_of_legal hl] at h
    rcases Control.cases s.control with hc | hc | hc
    · rw [blockStep_receiving hc] at h
      unfold receiveStep at h
      split at h
      · rename_i hx; cases h; exact .inr (.inr (.inl ⟨hc, hx, rfl⟩))
      · rename_i b rest hx; exact .inr (.inr (.inr (.inl ⟨hc, b, rest, hx, h⟩)))
      · rename_i rest hx
        unfold timeoutEvent at h
        split at h
        · rename_i ht; cases h; exact .inr (.inr (.inr (.inr ⟨hc, rest, hx, ht, rfl⟩)))
        · cases h
    · rw [blockStep_frameReady hc] at h
      unfold executeStep at h
      simp only [State.loseBytes_cfg, State.loseBytes_payload] at h
      split at h
      · rename_i i hi; exact .inr (.inl ⟨hc, i, hi, h⟩)
      · cases h
    · rw [blockStep_exited hc] at h
      cases h; exact .inl ⟨hc, rfl⟩
  · simp [step, instanceStep, hl] at h

/-- An execute step that answers a next state ran the decoded command. -/
theorem step_execute {s t : State} {i : Instr} (hc : s.control = .frameReady) (hd : decode s.cfg s.payload = .ok i)
    (h : step s = .next t) : exec i s.loseBytes = .next t := by
  obtain ⟨-, h⟩ := step_next h
  rcases h with ⟨h, -⟩ | ⟨-, j, hj, h⟩ | ⟨h, -⟩ | ⟨h, -⟩ | ⟨h, -⟩
  · rw [hc] at h; cases h
  · rw [hd] at hj; cases hj; exact h
  all_goals rw [hc] at h; cases h

end Sys2Proof.Machine
end

