-- ==== Sys2Proof/Laws/Stops.lean ====
section
/-! SUPPORT. How a command and a step can end: a next state or one of the named stops. -/

namespace Sys2Proof.Machine

/-- How the work of a command from `s` stops short: PortFault of a request the port cannot perform, in a state reached by
work and by writes to BUF behind the command code (60_exceptions R245). The block would have been allowed that request
too. -/
def PortStop (s : State) (f : Fault) : Prop :=
  ∃ r u bs, f = .portFault r (u.putBuf 1 bs) ∧ Work s u ∧ BadRequest s.cfg r ∧ (Legal s.cfg → requestAllowed s.cfg r)

/-- A stop after some work is a stop. -/
theorem PortStop.after {s t : State} {f : Fault} (w : Work s t) (h : PortStop t f) : PortStop s f := by
  obtain ⟨r, u, bs, e, w', hb, ha⟩ := h
  rw [w.prepared.cfg] at hb ha
  exact ⟨r, u, bs, e, w.trans w', hb, ha⟩

theorem State.request_stop {s : State} {r : PortRequest} {f : Fault} (ha : Legal s.cfg → requestAllowed s.cfg r)
    (h : s.request r = .error f) : PortStop s f := by
  obtain ⟨h1, h2, rfl⟩ := State.request_error h
  exact ⟨r, s, [], by simp, .done s, ⟨h1, h2⟩, ha⟩

theorem erasePageOnce_stop {a : Addr} {s : State} {f : Fault} (h : erasePageOnce a s = .error f)
    (hb : a.toNat < s.cfg.bootBoundary) : PortStop s f := by
  unfold erasePageOnce at h
  split at h
  · cases h
  · split at h
    · cases h
    · rename_i f1 h1
      cases h
      exact State.request_stop (fun hl => hl.eraseAllowed hb) h1

theorem programWord_stop {lo hi : Byte} {s : State} {f : Fault} (h : programWord lo hi s = .error f)
    (he : s.addr.toNat % 2 = 0) : PortStop s f := by
  unfold programWord at h
  split at h
  · rename_i hb
    split at h
    · rename_i s1 h1
      obtain ⟨w, -, hc⟩ := erasePageOnce_work h1 hb
      split at h
      · cases h
      · rename_i f1 h2
        cases h
        refine .after w (State.request_stop (fun hl => ?_) h2)
        rw [hc] at hl ⊢
        exact ⟨hb, hl.wordBelow he hb, he⟩
    · rename_i f1 h1; cases h; exact erasePageOnce_stop h1 hb
  · cases h

theorem programWords_stop {data : List Byte} {s : State} {f : Fault} (h : programWords data s = .error f)
    (he : s.addr.toNat % 2 = 0) : PortStop s f := by
  induction data, s using programWords.induct with
  | case1 lo hi rest s s1 h1 ih =>
    rw [programWords, h1] at h
    obtain ⟨w, he1⟩ := programWord_work h1 he
    exact .after w (ih h he1)
  | case2 lo hi rest s f1 h1 => rw [programWords, h1] at h; cases h; exact programWord_stop h1 he
  | case3 data s hne =>
    unfold programWords at h
    split at h
    · exact absurd rfl (hne _ _ _)
    · cases h

theorem programBytes_stop {data : List Byte} {s : State} {f : Fault} (h : programBytes data s = .error f) :
    PortStop s f := by
  induction data generalizing s with
  | nil => cases h
  | cons v rest ih =>
    rw [programBytes] at h
    split at h
    · rename_i s1 h1
      exact .after ((Work.one (by exact fun _ => trivial) h1).trans (Work.advance s1 1)) (ih h)
    · rename_i f1 h1; cases h; exact State.request_stop (by exact fun _ => trivial) h1

theorem Reads.stop {r : Addr → PortRequest} {ans : State → List Byte} {w n : Nat} {s u : State} {bytes : List Byte}
    (h : Reads r ans w s n bytes u) (hr : ∀ c a, requestAllowed c (r a)) (hb : BadRequest s.cfg (r u.addr))
    (bs : List Byte) : PortStop s (.portFault (r u.addr) (u.putBuf 1 bs)) :=
  ⟨_, u, bs, rfl, h.work hr, hb, fun _ => hr _ _⟩

theorem ReadRun.ending {i : Instr} {r : Addr → PortRequest} {ans : State → List Byte} {w n : Nat} {s : State}
    (hr : ∀ c a, requestAllowed c (r a)) (h : ReadRun r ans w n s (exec i s)) :
    (∃ t, exec i s = .next t) ∨ ∃ f, PortStop s f ∧ exec i s = .fault f := by
  obtain ⟨m, bytes, u, h1, ⟨-, e⟩ | ⟨-, hb, e⟩⟩ := h
  · exact .inl ⟨_, e⟩
  · exact .inr ⟨_, h1.stop hr hb _, e⟩

/-- How a command ends: it completes, or its operands are malformed under the `fault` policy, or its work stops
short. -/
inductive Ending (i : Instr) (s : State) : Prop where
  | completes (t : State) (h : exec i s = .next t)
  | malformed (cmd : Byte) (policy : s.cfg.malformedPolicy = .fault) (h : exec i s = .fault (.malformedOperand cmd))
  | portStop (f : Fault) (stop : PortStop s f) (h : exec i s = .fault f)

theorem malformed_ending {i : Instr} {s : State} {cmd : Byte} (h : exec i s = malformed cmd s) : Ending i s := by
  unfold malformed at h
  split at h
  · exact .completes _ h
  · rename_i hp; exact .malformed cmd hp h

/-- Every command ends in one of the three ways, in every state; none is refused. -/
theorem exec_ending (i : Instr) (s : State) : Ending i s := by
  cases i with
  | signOn => exact .completes _ rfl
  | setParameter => exact .completes _ rfl
  | enterProgmodeIsp => exact .completes _ rfl
  | leaveProgmodeIsp => exact .completes _ rfl
  | chipEraseIsp => exact .completes _ rfl
  | unknown code => exact .completes _ rfl
  | getParameter id =>
    cases id with
    | none => exact malformed_ending rfl
    | some id => exact .completes _ rfl
  | loadAddress word =>
    cases word with
    | none => exact malformed_ending rfl
    | some w => exact .completes _ rfl
  | programFlashIsp size data =>
    cases size with
    | none => exact malformed_ending rfl
    | some n =>
      by_cases hm : programFlashMalformed s.addr n data = true
      · exact malformed_ending (cmd := 0x13) (by simp [exec, execProgramFlashIsp, hm])
      · cases h : programWords (data.take n.toNat) { s with epage := none } with
        | ok s1 => exact .completes _ (by simp only [exec, execProgramFlashIsp, hm]; rw [h]; rfl)
        | error f =>
          refine .portStop f (.after (.epage none (.done _)) (programWords_stop h ?_))
            (by simp only [exec, execProgramFlashIsp, hm]; rw [h]; rfl)
          simp only [programFlashMalformed, Bool.or_eq_true, beq_iff_eq, not_or] at hm
          have := hm.1.2
          simp only []
          omega
  | readFlashIsp size =>
    cases size with
    | none => exact malformed_ending rfl
    | some n =>
      by_cases hm : readFlashMalformed s.cfg n = true
      · exact malformed_ending (cmd := 0x14) (by simp [exec, execReadFlashIsp, hm])
      · rcases ReadRun.ending (i := .readFlashIsp (some n)) (by exact fun _ _ => trivial) (execReadFlashIsp_run (by simpa using hm)) with
          ⟨t, h⟩ | ⟨f, hs, h⟩
        · exact .completes t h
        · exact .portStop f hs h
  | programEepromIsp size data =>
    cases size with
    | none => exact malformed_ending rfl
    | some n =>
      by_cases hm : programEepromMalformed n data = true
      · exact malformed_ending (cmd := 0x15) (by simp [exec, execProgramEepromIsp, hm])
      · cases h : programBytes (data.take n.toNat) s with
        | ok s1 => exact .completes _ (by simp only [exec, execProgramEepromIsp, hm]; rw [h]; rfl)
        | error f => exact .portStop f (programBytes_stop h) (by simp only [exec, execProgramEepromIsp, hm]; rw [h]; rfl)
  | readEepromIsp size =>
    cases size with
    | none => exact malformed_ending rfl
    | some n =>
      by_cases hm : readEepromMalformed s.cfg n = true
      · exact malformed_ending (cmd := 0x16) (by simp [exec, execReadEepromIsp, hm])
      · rcases ReadRun.ending (i := .readEepromIsp (some n)) (by exact fun _ _ => trivial) (execReadEepromIsp_run (by simpa using hm)) with
          ⟨t, h⟩ | ⟨f, hs, h⟩
        · exact .completes t h
        · exact .portStop f hs h
  | readFuseIsp cmds =>
    cases cmds with
    | none => exact malformed_ending rfl
    | some c =>
      cases h : s.request (.readFuse (fuseSelect c.1 c.2)) with
      | ok s1 => exact .completes _ (by simp only [exec, execReadFuseIsp]; rw [h]; rfl)
      | error f => exact .portStop f (State.request_stop (by exact fun _ => trivial) h) (by simp only [exec, execReadFuseIsp]; rw [h])
  | programLockIsp v =>
    cases v with
    | none => exact malformed_ending rfl
    | some v =>
      cases h : s.request (.programLock (lockRequest s.cfg v)) with
      | ok s1 => exact .completes _ (by simp only [exec, execProgramLockIsp]; rw [h]; rfl)
      | error f => exact .portStop f (State.request_stop (by exact fun _ => trivial) h) (by simp only [exec, execProgramLockIsp]; rw [h])
  | readLockIsp =>
    cases h : s.request (.readFuse .lock) with
    | ok s1 => exact .completes _ (by simp only [exec, execReadLockIsp]; rw [h]; rfl)
    | error f => exact .portStop f (State.request_stop (by exact fun _ => trivial) h) (by simp only [exec, execReadLockIsp]; rw [h])
  | readSignatureIsp index =>
    cases index with
    | none => exact malformed_ending rfl
    | some k =>
      cases h : s.request (.readSig (signatureIndex k)) with
      | ok s1 => exact .completes _ (by simp only [exec, execReadSignatureIsp]; rw [h]; rfl)
      | error f => exact .portStop f (State.request_stop (by exact fun _ => trivial) h) (by simp only [exec, execReadSignatureIsp]; rw [h])
  | spiMulti tx0 index =>
    cases tx0 with
    | none => exact malformed_ending rfl
    | some t0 =>
      by_cases h0 : t0 = SPI_READ_SIGNATURE
      · cases index with
        | none => exact malformed_ending (cmd := 0x1D) (by simp [exec, execSpiMulti, h0])
        | some k =>
          cases h : s.request (.readSig (signatureIndex k)) with
          | ok s1 => exact .completes _ (by simp only [exec, execSpiMulti]; rw [if_pos h0, h]; rfl)
          | error f => exact .portStop f (State.request_stop (by exact fun _ => trivial) h) (by simp only [exec, execSpiMulti]; rw [if_pos h0, h])
      · exact .completes _ (by simp only [exec, execSpiMulti]; rw [if_neg h0]; rfl)

/-- Everything a step that ends in PortFault has done. -/
theorem step_portFault {s u : State} {r : PortRequest} (h : step s = .fault (.portFault r u)) :
    Legal s.cfg ∧ s.control = .frameReady ∧ (∃ v bs, Work s.loseBytes v ∧ u = v.putBuf 1 bs) ∧ BadRequest s.cfg r
      ∧ requestAllowed s.cfg r := by
  by_cases hl : configLegal s.cfg = true
  · rw [step_of_legal hl] at h
    rcases Control.cases s.control with hc | hc | hc
    · rw [blockStep_receiving hc, receiveStep] at h
      split at h
      · cases h
      · rename_i b rest hx
        unfold receiveByte at h
        split at h
        · unfold awaitStartByte at h; split at h <;> cases h
        · unfold awaitSequenceByte at h; split at h <;> cases h
        · cases h
        · cases h
        · unfold awaitTokenByte at h; split at h <;> cases h
        · unfold awaitPayloadByte at h; split at h <;> cases h
        · unfold awaitChecksumByte at h; split at h <;> cases h
        · cases h
        · cases h
      · unfold timeoutEvent at h; split at h <;> cases h
    · rw [blockStep_frameReady hc, executeStep] at h
      split at h
      · rename_i i hi
        rcases exec_ending i s.loseBytes with ⟨t, h'⟩ | ⟨cmd, -, h'⟩ | ⟨f, ⟨r', u', bs, rfl, w, hb, ha⟩, h'⟩
        · rw [h'] at h; cases h
        · rw [h'] at h; cases h
        · rw [h'] at h
          cases h
          rw [State.loseBytes_cfg] at hb ha
          exact ⟨legal_of _ hl, hc, ⟨u', bs, w, rfl⟩, hb, ha (legal_of _ hl)⟩
      · cases h
    · rw [blockStep_exited hc] at h; cases h
  · simp [step, instanceStep, hl] at h

end Sys2Proof.Machine
end

