-- ==== Sys2Proof/Laws/Frames.lean ====
section
/-! SUPPORT. Runs of the parser over a whole frame: the header in five steps, the payload in as many as it has bytes. -/

namespace Sys2Proof.Machine

/-- Runs compose. -/
theorem steps_add {m n : Nat} {s t : State} (h : steps m s = .next t) : steps (m + n) s = steps n t := by
  induction m generalizing s with
  | zero => cases h; rw [Nat.zero_add]
  | succ m ih =>
    rw [steps] at h
    rw [Nat.add_right_comm, steps]
    split at h
    · exact ih h
    · cases h
    · cases h

/-- A receive step of a legal instance takes its byte. -/
theorem step_byte {s : State} {b : Byte} {rest : List RxEvent} (hl : configLegal s.cfg = true)
    (hr : s.control.receiving) (hx : s.rx = .byte b :: rest) : step s = receiveByte b { s with rx := rest } := by
  rw [step_of_legal hl, blockStep_receiving hr, receiveStep, hx]

/-- The state after an accepted header. -/
def State.afterHeader (s : State) (seq : Byte) (len : Half) (rest : List RxEvent) : State :=
  { s with
    rx := rest
    seq := seq
    len := len
    ck := xorAll (frameHeader seq len)
    idx := 0
    control := .awaitPayload }

/-- The header of a frame, taken from AwaitStart, when its sequence byte and its length are accepted. -/
theorem header_run {s : State} {seq : Byte} {len : Half} {rest : List RxEvent} (hl : configLegal s.cfg = true)
    (hc : s.control = .awaitStart) (hs : seq = 1 ∨ seq = s.seq) (h1 : 1 ≤ len.toNat) (h2 : len.toNat ≤ s.cfg.cap)
    (hx : s.rx = (frameHeader seq len).map RxEvent.byte ++ rest) :
    steps 5 s = .next (s.afterHeader seq len rest) := by
  have hx' : s.rx = .byte START :: .byte seq :: .byte (hiByte len) :: .byte (loByte len) :: .byte TOKEN :: rest := hx
  have e1 := step_byte hl (by rw [hc]; trivial) hx'
  simp only [receiveByte, hc, awaitStartByte, ↓reduceIte] at e1
  have hq : seqAccepted s.seq seq = true := by simpa [seqAccepted] using hs
  have hn : lenAccepted s.cfg len = true := by simp [lenAccepted, h1, h2]
  rw [steps, e1]
  simp only [steps]
  rw [step_byte (by exact hl) (by trivial) rfl]
  simp only [receiveByte, awaitSequenceByte, hq, ↓reduceIte]
  rw [step_byte (by exact hl) (by trivial) rfl]
  simp only [receiveByte, awaitLengthHighByte]
  rw [step_byte (by exact hl) (by trivial) rfl]
  simp only [receiveByte, awaitLengthLowByte, setWidth_shiftLeft_eq_joinBytes, joinBytes_zero_or, joinBytes_hiByte_loByte]
  rw [step_byte (by exact hl) (by trivial) rfl]
  simp only [receiveByte, awaitTokenByte, hn, and_true, ↓reduceIte, State.afterHeader, frameHeader, xorAll]
  simp only [BitVec.xor_assoc, BitVec.xor_zero, BitVec.ofNat_eq_ofNat]

/-- The payload bytes `bs` of a frame whose declared length they complete, stored from IDX on. -/
theorem payload_run {bs : List Byte} {s : State} {rest : List RxEvent} (hl : configLegal s.cfg = true)
    (hc : s.control = .awaitPayload) (hb : s.buf.length = s.cfg.cap) (hne : bs ≠ [])
    (hn : s.idx.toNat + bs.length = s.len.toNat) (hcap : s.len.toNat ≤ s.cfg.cap)
    (hx : s.rx = bs.map RxEvent.byte ++ rest) :
    steps bs.length s = .next { s with
      rx := rest
      buf := bufPut s.buf s.idx.toNat bs
      ck := s.ck ^^^ xorAll bs
      idx := s.len
      control := .awaitChecksum } := by
  induction bs generalizing s with
  | nil => exact absurd rfl hne
  | cons b bs ih =>
    simp only [List.length_cons] at hn ⊢
    have hi : s.idx.toNat < s.cfg.cap := by omega
    have hx' : s.rx = .byte b :: (bs.map RxEvent.byte ++ rest) := hx
    have e1 := step_byte hl (by rw [hc]; trivial) hx'
    simp only [receiveByte, hc, awaitPayloadByte, hi, ↓reduceIte] at e1
    have hi1 : (s.idx + 1).toNat = s.idx.toNat + 1 := by
      rw [BitVec.toNat_add]
      have := s.len.isLt
      exact Nat.mod_eq_of_lt (by simp; omega)
    have hput : ∀ tl, bufPut (s.buf.set s.idx.toNat b) (s.idx.toNat + 1) tl = bufPut s.buf s.idx.toNat (b :: tl) := by
      intro tl
      have hm : (s.buf.take s.idx.toNat).length = s.idx.toNat := by rw [List.length_take]; omega
      rw [bufPut, bufPut, List.take_set, List.drop_set_of_lt (by omega), List.take_add_one,
        List.getElem?_eq_getElem (by omega), List.set_append_right _ _ (by omega), hm, Nat.sub_self]
      simp [Nat.add_assoc, Nat.add_comm 1]
    rw [steps, e1]
    simp only []
    cases hbs : bs with
    | nil =>
      subst hbs
      have : s.idx + 1 = s.len := BitVec.eq_of_toNat_eq (by rw [hi1]; simpa using hn)
      simp only [List.length_nil, steps, this, ↓reduceIte, List.map_nil, List.nil_append, xorAll]
      have h0 := hput []
      rw [← h0, bufPut]
      simp [BitVec.xor_zero]
    | cons b2 bs2 =>
      rw [← hbs]
      have hne' : s.idx + 1 ≠ s.len := fun e => by
        have := congrArg BitVec.toNat e
        rw [hi1] at this
        simp [hbs] at hn
        omega
      rw [if_neg hne']
      refine (ih (s := { s with
        rx := bs.map RxEvent.byte ++ rest
        buf := s.buf.set s.idx.toNat b
        ck := s.ck ^^^ b
        idx := s.idx + 1
        control := .awaitPayload }) hl rfl (by simpa using hb) (by simp [hbs]) ?_ hcap rfl).trans ?_
      · simp only [hi1]; omega
      · simp only [hi1, hput, xorAll, BitVec.xor_assoc]

end Sys2Proof.Machine
end

