-- ==== Sys2Proof/Laws/Transfer.lean ====
section
/-! SUPPORT. What the loops of the four memory commands do on either port: which bytes they move, from and to which
addresses, and what they leave alone. -/

namespace Sys2Proof.Machine

theorem transferAddr_lt (s : State) (k : Nat) : transferAddr s k < 2 ^ s.cfg.addrWidth.bits :=
  Nat.mod_lt _ (two_pow_bits_pos _)

/-- The addresses of a transfer fit the words of its requests. -/
theorem ofNat_transferAddr_toNat (s : State) (k : Nat) :
    (BitVec.ofNat 32 (transferAddr s k)).toNat = transferAddr s k := by
  rw [BitVec.toNat_ofNat]
  exact Nat.mod_eq_of_lt (Nat.lt_of_lt_of_le (transferAddr_lt s k) (two_pow_bits_le s.cfg.addrWidth))

/-- The first address of a transfer is ADDR. -/
theorem transferAddr_zero {s : State} (h : s.addr.toNat < 2 ^ s.cfg.addrWidth.bits) : transferAddr s 0 = s.addr.toNat :=
  Nat.mod_eq_of_lt h

theorem ofNat_transferAddr_zero {s : State} (h : s.addr.toNat < 2 ^ s.cfg.addrWidth.bits) :
    BitVec.ofNat 32 (transferAddr s 0) = s.addr := by
  rw [transferAddr_zero h]; simp

/-- After advancing by `j`, the transfer goes on where it was. -/
theorem transferAddr_advance {s t : State} {j : Nat} (hc : t.cfg = s.cfg)
    (ha : t.addr.toNat = (s.addr.toNat + j) % 2 ^ s.cfg.addrWidth.bits) (k : Nat) :
    transferAddr t k = transferAddr s (j + k) := by
  rw [transferAddr, transferAddr, hc, ha, Nat.mod_add_mod, Nat.add_assoc]

/-- Addresses of a transfer no longer than the space differ. -/
theorem transferAddr_inj {s : State} {j k n : Nat} (hj : j < n) (hk : k < n) (hn : n ≤ 2 ^ s.cfg.addrWidth.bits)
    (h : transferAddr s j = transferAddr s k) : j = k := by
  have h1 : (s.addr.toNat + j) ≡ (s.addr.toNat + k) [MOD 2 ^ s.cfg.addrWidth.bits] := h
  have h2 := Nat.ModEq.add_left_cancel' _ h1
  exact Nat.ModEq.eq_of_lt_of_lt h2 (by omega) (by omega)

/-- ADDR modulo 2^W after advancing in two pieces. -/
theorem addr_advance_twice {s t : State} {j k : Nat} (hc : t.cfg = s.cfg)
    (ha : t.addr.toNat = (s.addr.toNat + j) % 2 ^ s.cfg.addrWidth.bits) :
    (t.addr.toNat + k) % 2 ^ t.cfg.addrWidth.bits = (s.addr.toNat + (j + k)) % 2 ^ s.cfg.addrWidth.bits := by
  rw [hc, ha, Nat.mod_add_mod, Nat.add_assoc]

/-- `Moved s t n rs`: from `s` to `t` the block made the requests `rs` and advanced ADDR by `n`; of the rest only EPAGE and
the memories may differ. -/
structure Moved (s t : State) (n : Nat) (rs : List PortRequest) : Prop where
  prepared : Prepared s t
  leave : t.leave = s.leave
  addr : t.addr.toNat = (s.addr.toNat + n) % 2 ^ s.cfg.addrWidth.bits
  log : t.port.log = s.port.log ++ rs
  sig : t.port.sig = s.port.sig

theorem Moved.refl {s : State} (h : s.addr.toNat < 2 ^ s.cfg.addrWidth.bits) : Moved s s 0 [] :=
  ⟨Prepared.refl s, rfl, (Nat.mod_eq_of_lt h).symm, by simp, rfl⟩

theorem Moved.trans {s t u : State} {n m : Nat} {rs rs' : List PortRequest} (h : Moved s t n rs) (k : Moved t u m rs') :
    Moved s u (n + m) (rs ++ rs') :=
  ⟨h.prepared.trans k.prepared, k.leave.trans h.leave, k.addr.trans (addr_advance_twice h.prepared.cfg h.addr),
    by rw [k.log, h.log, List.append_assoc], k.sig.trans h.sig⟩

theorem Moved.addr_lt {s t : State} {n : Nat} {rs : List PortRequest} (h : Moved s t n rs) :
    t.addr.toNat < 2 ^ t.cfg.addrWidth.bits := by
  rw [h.addr, h.prepared.cfg]; exact Nat.mod_lt _ (two_pow_bits_pos _)

theorem Moved.transferAddr {s t : State} {n : Nat} {rs : List PortRequest} (h : Moved s t n rs) (k : Nat) :
    transferAddr t k = transferAddr s (n + k) := transferAddr_advance h.prepared.cfg h.addr k

/-- One request and the advance behind it. -/
theorem Moved.one {s s1 : State} {r : PortRequest} (h : s.request r = .ok s1) (j : Nat) :
    Moved s (s1.advanceAddr j) j [r] := by
  obtain ⟨q, hq, rfl⟩ := State.request_ok h
  exact ⟨Prepared.of_update s _ s.leave s.epage q, rfl, by rw [State.advanceAddr_addr, wrapAddr_toNat],
    Port.perform_log hq, Port.perform_sig hq⟩

/-- A list over `n + 1` positions: its first, and the others shifted. -/
theorem map_range_succ {α : Type} (f : Nat → α) (n : Nat) :
    (List.range (n + 1)).map f = f 0 :: (List.range n).map (fun k => f (1 + k)) := by
  rw [List.range_succ_eq_map, List.map_cons, List.map_map]
  congr 1
  exact List.map_congr_left (fun k _ => by simp [Nat.add_comm])

/-! ### The reading loops -/

/-- The requests of the reading loops, and how ADDR and the memories stand behind them. -/
theorem Reads.moved {r : Addr → PortRequest} {ans : State → List Byte} {w n : Nat} {s u : State} {bytes : List Byte}
    (h : Reads r ans w s n bytes u) (ha : s.addr.toNat < 2 ^ s.cfg.addrWidth.bits) :
    Moved s u (w * n) ((List.range n).map (fun j => r (BitVec.ofNat 32 (transferAddr s (w * j))))) := by
  induction h with
  | done s => exact Moved.refl ha
  | @next s s1 u n bytes ok _ ih =>
    have mv := Moved.one ok w
    have := mv.trans (ih mv.addr_lt)
    simp only [mv.transferAddr, List.cons_append, List.nil_append] at this
    rw [map_range_succ, Nat.mul_zero, ofNat_transferAddr_zero ha, Nat.mul_add w n, Nat.mul_one, Nat.add_comm (w * n)]
    simpa only [Nat.mul_add, Nat.mul_one] using this

/-- The bytes a loop reads of EEPROM, on the reference port. -/
theorem Reads.eeprom {n : Nat} {s u : State} {bytes : List Byte} (h : Reads .readEeprom byteAnswer 1 s n bytes u)
    (ha : s.addr.toNat < 2 ^ s.cfg.addrWidth.bits) (hk : s.cfg.portKind = .reference) :
    ∀ k < n, bytes[k]? = some (s.port.eeprom.read (transferAddr s k)) := by
  induction h with
  | done s => intro k hk; omega
  | @next s s1 u n bytes ok _ ih =>
    have mv := Moved.one ok 1
    have e := (State.request_read (by exact trivial) ok).2.1
    have hc : (s1.advanceAddr 1).cfg = s.cfg := mv.prepared.cfg
    intro k hlt
    cases k with
    | zero => simp [byteAnswer, Port.eepromAnswer, hk, transferAddr_zero ha]
    | succ k =>
      have := ih mv.addr_lt (by rw [hc]; exact hk) k (by omega)
      rw [mv.transferAddr, Nat.add_comm 1 k, State.advanceAddr_port, e] at this
      simpa [byteAnswer] using this

/-- The bytes a loop reads of flash, on the reference port. -/
theorem Reads.flash {n : Nat} {s u : State} {bytes : List Byte} (h : Reads .readFlash wordAnswer 2 s n bytes u)
    (ha : s.addr.toNat < 2 ^ s.cfg.addrWidth.bits) (hk : s.cfg.portKind = .reference) :
    ∀ j < n, bytes[2 * j]? = some (s.port.flash.read (transferAddr s (2 * j)))
      ∧ bytes[2 * j + 1]? = some (s.port.flash.read (transferAddr s (2 * j) + 1)) := by
  induction h with
  | done s => intro k hk; omega
  | @next s s1 u n bytes ok _ ih =>
    have mv := Moved.one ok 2
    have e := (State.request_read (by exact trivial) ok).1
    have hc : (s1.advanceAddr 2).cfg = s.cfg := mv.prepared.cfg
    intro j hlt
    cases j with
    | zero => simp [wordAnswer, Port.flashAnswer, hk, flashWord, loByte_joinBytes, hiByte_joinBytes, transferAddr_zero ha]
    | succ j =>
      have := ih mv.addr_lt (by rw [hc]; exact hk) j (by omega)
      rw [mv.transferAddr, Nat.add_comm 2, State.advanceAddr_port, e] at this
      simpa [wordAnswer, Nat.mul_add] using this

/-- A reading command whose every request lies inside the reference port's arrays, or whose port answers everything,
completes. -/
theorem ReadRun.completes {r : Addr → PortRequest} {ans : State → List Byte} {w n : Nat} {s : State}
    {o : Host.Outcome State Fault Refusal} (h : ReadRun r ans w n s o) (ha : s.addr.toNat < 2 ^ s.cfg.addrWidth.bits)
    (hr : s.cfg.portKind = .reference → ∀ j < n,
      requestInRange s.cfg (r (BitVec.ofNat 32 (transferAddr s (w * j)))) = true) :
    ∃ bytes u, Reads r ans w s n bytes u ∧ o = reply ([STATUS_OK] ++ bytes ++ [STATUS_OK]) u := by
  obtain ⟨m, bytes, u, h1, ⟨rfl, e⟩ | ⟨hm, hb, -⟩⟩ := h
  · exact ⟨bytes, u, h1, e⟩
  · have h2 := hr hb.1 m hm
    rw [transferAddr, ← (h1.moved ha).addr, BitVec.ofNat_toNat, BitVec.setWidth_eq, hb.2] at h2
    cases h2

/-- Every read done on the reference port was inside its arrays. -/
theorem Reads.inRange {r : Addr → PortRequest} {ans : State → List Byte} {w n : Nat} {s u : State} {bytes : List Byte}
    (h : Reads r ans w s n bytes u) (ha : s.addr.toNat < 2 ^ s.cfg.addrWidth.bits) (hk : s.cfg.portKind = .reference) :
    ∀ j < n, requestInRange s.cfg (r (BitVec.ofNat 32 (transferAddr s (w * j)))) = true := by
  induction h with
  | done s => intro j hj; omega
  | @next s s1 u n bytes ok _ ih =>
    have mv := Moved.one ok w
    have hc : (s1.advanceAddr w).cfg = s.cfg := mv.prepared.cfg
    intro j hlt
    cases j with
    | zero =>
      rw [Nat.mul_zero, ofNat_transferAddr_zero ha]
      by_contra hne
      rw [State.request_out_of_range hk (by simpa using hne)] at ok
      cases ok
    | succ j =>
      have := ih mv.addr_lt (by rw [hc]; exact hk) j (by omega)
      rwa [hc, mv.transferAddr, Nat.add_comm w, ← Nat.mul_succ] at this

/-- A reading command that comes to a request outside the reference port's arrays stops at the first. -/
theorem ReadRun.stops {r : Addr → PortRequest} {ans : State → List Byte} {w n k : Nat} {s : State}
    {o : Host.Outcome State Fault Refusal} (h : ReadRun r ans w n s o) (ha : s.addr.toNat < 2 ^ s.cfg.addrWidth.bits)
    (hk : s.cfg.portKind = .reference) (hkn : k < n)
    (hbad : requestInRange s.cfg (r (BitVec.ofNat 32 (transferAddr s (w * k)))) = false)
    (hr : ∀ j < k, requestInRange s.cfg (r (BitVec.ofNat 32 (transferAddr s (w * j)))) = true) :
    ∃ bytes u, Reads r ans w s k bytes u
      ∧ o = .fault (.portFault (r (BitVec.ofNat 32 (transferAddr s (w * k)))) (u.putBuf 1 (STATUS_OK :: bytes))) := by
  obtain ⟨m, bytes, u, h1, h2⟩ := h
  have hat : u.addr = BitVec.ofNat 32 (transferAddr s (w * m)) := by rw [transferAddr, ← (h1.moved ha).addr]; simp
  by_cases hm : k < m
  · rw [h1.inRange ha hk k hm] at hbad; cases hbad
  · rcases h2 with ⟨rfl, -⟩ | ⟨hmn, hb, rfl⟩
    · omega
    · rw [hat] at hb ⊢
      rcases Nat.lt_or_ge m k with hlt | hge
      · have := hb.2
        rw [hr m hlt] at this; cases this
      · obtain rfl : m = k := by omega
        exact ⟨bytes, u, h1, rfl⟩

/-! ### EEPROM -/

/-- What programming EEPROM bytes does, on either port; the contents on the reference port, for no more bytes than the space
has. -/
theorem programBytes_completes {data : List Byte} {s : State} (ha : s.addr.toNat < 2 ^ s.cfg.addrWidth.bits)
    (hr : s.cfg.portKind = .reference → ∀ k < data.length, transferAddr s k < s.cfg.eepromSize) :
    ∃ t, programBytes data s = .ok t
      ∧ Moved s t data.length ((List.range data.length).map
          (fun k => .writeEeprom (BitVec.ofNat 32 (transferAddr s k)) (data.getD k 0)))
      ∧ t.epage = s.epage ∧ t.port.flash = s.port.flash ∧ t.port.fuses = s.port.fuses
      ∧ (s.cfg.portKind = .reference → s.port.eeprom.wf = true → data.length ≤ 2 ^ s.cfg.addrWidth.bits →
        (∀ k < data.length, data[k]? = some (t.port.eeprom.read (transferAddr s k)))
          ∧ ∀ a, (∀ k < data.length, transferAddr s k ≠ a) → t.port.eeprom.read a = s.port.eeprom.read a) := by
  induction data generalizing s with
  | nil => exact ⟨s, rfl, Moved.refl ha, rfl, rfl, rfl, by simp⟩
  | cons v rest ih =>
    simp only [List.length_cons] at hr ⊢
    obtain ⟨s1, ok⟩ := State.request_succeeds s (.writeEeprom s.addr v) (fun hk => by
      simpa [requestInRange, transferAddr_zero ha] using hr hk 0 (by omega))
    have mv := Moved.one ok 1
    obtain ⟨q, hq, rfl⟩ := State.request_ok ok
    obtain ⟨t, h1, h2, h3, h4, h5, h6⟩ := ih mv.addr_lt
      (fun hk k hlt => by rw [mv.transferAddr, mv.prepared.cfg]; exact hr (by exact hk) _ (by omega))
    refine ⟨t, by rw [programBytes, ok]; exact h1, ?_, h3, h4.trans (Port.perform_flash hq (by simp) (by simp)),
      h5.trans (Port.perform_fuses hq (by simp)), fun hk hwf hn => ?_⟩
    · rw [map_range_succ, ofNat_transferAddr_zero ha, Nat.add_comm]
      have := mv.trans h2
      simpa [mv.transferAddr, Nat.add_comm 1] using this
    · have e0 : q.eeprom = s.port.eeprom.write s.addr.toNat v := by
        rcases Port.perform_ok hq with ⟨-, -, rfl⟩ | ⟨hd, -⟩
        · rfl
        · rw [hk] at hd; cases hd
      obtain ⟨h7, h8⟩ := h6 (by exact hk) (by exact e0 ▸ Memory.write_wf hwf _ _) (by rw [mv.prepared.cfg]; omega)
      have here : ∀ b, Memory.read (State.advanceAddr { s with port := q } 1).port.eeprom b
          = (s.port.eeprom.write s.addr.toNat v).read b := fun b => congrArg (Memory.read · b) e0
      constructor
      · intro k hlt
        cases k with
        | zero =>
          rw [h8 (transferAddr s 0) (fun k hk' e => by
            rw [mv.transferAddr] at e
            have := transferAddr_inj (by omega) (by omega) hn e
            omega), here, transferAddr_zero ha, List.getElem?_cons_zero, Memory.read_write_self hwf]
        | succ k =>
          have e := h7 k (by omega)
          rw [mv.transferAddr, Nat.add_comm 1 k] at e
          simpa using e
      · intro a hne
        rw [h8 a (fun k hk' e => hne (1 + k) (by omega) (by rw [← mv.transferAddr]; exact e)), here]
        exact Memory.read_write_other _ _ (by have := hne 0 (by omega); rw [transferAddr_zero ha] at this; omega)

/-- A loop cut in two: what the first part did, then the rest, which may stop short. -/
theorem programBytes_append {data more : List Byte} {s t : State} (h : programBytes data s = .ok t) :
    programBytes (data ++ more) s = programBytes more t := by
  induction data generalizing s with
  | nil => cases h; rfl
  | cons v rest ih =>
    rw [programBytes] at h
    rw [List.cons_append, programBytes]
    split at h
    · exact ih h
    · cases h

end Sys2Proof.Machine
end

