-- ==== Sys2Proof/Laws/Keeps.lean ====
section
/-! SUPPORT. What the loops of the four memory commands keep when they complete, on either port: the memories that are not
theirs, LEAVE, and an ADDR advanced by the bytes transferred. -/

namespace Sys2Proof.Machine

/-- From `s` to `t` ADDR advanced by `n`, modulo 2^W; the parameters, LEAVE, the signature and the fuses are the same. -/
structure Kept (s t : State) (n : Nat) : Prop where
  cfg : t.cfg = s.cfg
  leave : t.leave = s.leave
  sig : t.port.sig = s.port.sig
  fuses : t.port.fuses = s.port.fuses
  addr : t.addr.toNat % 2 ^ s.cfg.addrWidth.bits = (s.addr.toNat + n) % 2 ^ s.cfg.addrWidth.bits

theorem Kept.refl (s : State) : Kept s s 0 := ⟨rfl, rfl, rfl, rfl, rfl⟩

theorem Kept.trans {s t u : State} {n m : Nat} (h : Kept s t n) (k : Kept t u m) : Kept s u (n + m) := by
  refine ⟨k.cfg.trans h.cfg, k.leave.trans h.leave, k.sig.trans h.sig, k.fuses.trans h.fuses, ?_⟩
  have e := k.addr
  rw [h.cfg] at e
  rw [e, Nat.add_mod, h.addr, Nat.mod_add_mod, Nat.add_mod_mod, Nat.add_assoc]

/-- A request that is no lock request, and the advance behind it. -/
theorem Kept.request {s t : State} {r : PortRequest} (h : s.request r = .ok t) (hr : ∀ v, r ≠ .programLock v) (n : Nat) :
    Kept s (t.advanceAddr n) n := by
  obtain ⟨q, hq, rfl⟩ := State.request_ok h
  exact ⟨rfl, rfl, Port.perform_sig hq, Port.perform_fuses hq hr, by rw [State.advanceAddr_addr, wrapAddr_toNat]; exact Nat.mod_mod _ _⟩

theorem erasePageOnce_kept {a : Addr} {s t : State} (h : erasePageOnce a s = .ok t) :
    t.cfg = s.cfg ∧ t.addr = s.addr ∧ t.leave = s.leave ∧ t.port.sig = s.port.sig ∧ t.port.fuses = s.port.fuses
      ∧ t.port.eeprom = s.port.eeprom := by
  unfold erasePageOnce at h
  split at h
  · cases h; exact ⟨rfl, rfl, rfl, rfl, rfl, rfl⟩
  · split at h
    · rename_i s1 ok
      cases h
      obtain ⟨q, hq, rfl⟩ := State.request_ok ok
      exact ⟨rfl, rfl, rfl, Port.perform_sig hq, Port.perform_fuses hq (by simp), Port.perform_eeprom hq (by simp)⟩
    · cases h

theorem programWord_kept {lo hi : Byte} {s t : State} (h : programWord lo hi s = .ok t) :
    Kept s t 2 ∧ t.port.eeprom = s.port.eeprom := by
  unfold programWord at h
  split at h
  · split at h
    · rename_i s1 h1
      obtain ⟨e1, e2, e3, e4, e5, e6⟩ := erasePageOnce_kept h1
      split at h
      · rename_i s2 h2
        cases h
        have k := Kept.request h2 (by simp) 2
        obtain ⟨q, hq, rfl⟩ := State.request_ok h2
        exact ⟨⟨k.cfg.trans e1, k.leave.trans e3, k.sig.trans e4, k.fuses.trans e5, by
            rw [State.advanceAddr_addr, wrapAddr_toNat]; simp only [e1, e2]; exact Nat.mod_mod _ _⟩,
          (Port.perform_eeprom hq (by simp)).trans e6⟩
      · cases h
    · cases h
  · cases h
    exact ⟨⟨rfl, rfl, rfl, rfl, by rw [State.advanceAddr_addr, wrapAddr_toNat]; exact Nat.mod_mod _ _⟩, rfl⟩

/-- PROGRAM_FLASH_ISP's loop keeps EEPROM and advances by every byte of its words. -/
theorem programWords_kept {data : List Byte} {s t : State} (h : programWords data s = .ok t) :
    Kept s t (2 * (data.length / 2)) ∧ t.port.eeprom = s.port.eeprom := by
  induction data, s using programWords.induct generalizing t with
  | case1 lo hi rest s s1 h1 ih =>
    rw [programWords, h1] at h
    obtain ⟨k, e⟩ := programWord_kept h1
    obtain ⟨k', e'⟩ := ih h
    refine ⟨?_, e'.trans e⟩
    rw [show 2 * ((lo :: hi :: rest).length / 2) = 2 + 2 * (rest.length / 2) by
      simp only [List.length_cons]; omega]
    exact k.trans k'
  | case2 lo hi rest s r h1 => rw [programWords, h1] at h; cases h
  | case3 data s hne =>
    match data, hne with
    | [], _ => cases h; exact ⟨Kept.refl _, rfl⟩
    | [v], _ => cases h; exact ⟨by simpa using Kept.refl s, rfl⟩
    | lo :: hi :: rest, hne => exact absurd rfl (hne lo hi rest)

/-- PROGRAM_EEPROM_ISP's loop keeps flash and EPAGE. -/
theorem programBytes_kept {data : List Byte} {s t : State} (h : programBytes data s = .ok t) :
    Kept s t data.length ∧ t.port.flash = s.port.flash ∧ t.epage = s.epage := by
  induction data generalizing s with
  | nil => cases h; exact ⟨Kept.refl _, rfl, rfl⟩
  | cons v rest ih =>
    rw [programBytes] at h
    split at h
    · rename_i s1 h1
      have k := Kept.request h1 (by simp) 1
      obtain ⟨k', e1, e2⟩ := ih (s := s1.advanceAddr 1) h
      obtain ⟨q, hq, rfl⟩ := State.request_ok h1
      refine ⟨?_, e1.trans (Port.perform_flash hq (by simp) (by simp)), e2⟩
      rw [List.length_cons, Nat.add_comm]
      exact k.trans k'
    · cases h

/-- The reading loops keep both memories and EPAGE. -/
theorem Reads.kept {r : Addr → PortRequest} {ans : State → List Byte} {w n : Nat} {s u : State} {bytes : List Byte}
    (h : Reads r ans w s n bytes u) (hr : ∀ a, (r a).isRead) :
    Kept s u (w * n) ∧ u.port.flash = s.port.flash ∧ u.port.eeprom = s.port.eeprom ∧ u.epage = s.epage := by
  induction h with
  | done s => exact ⟨Kept.refl _, rfl, rfl, rfl⟩
  | @next s s1 u n bytes ok _ ih =>
    obtain ⟨e1, e2, e3⟩ := State.request_read (hr _) ok
    obtain ⟨k', e4, e5, e6⟩ := ih
    have k := Kept.request ok (fun v e => by have := hr s.addr; rw [e] at this; exact this) w
    obtain ⟨q, -, rfl⟩ := State.request_ok ok
    refine ⟨?_, e4.trans e1, e5.trans e2, e6⟩
    rw [Nat.mul_add, Nat.mul_one, Nat.add_comm]
    exact k.trans k'

end Sys2Proof.Machine
end

