-- ==== Sys2Proof/Laws/Payload.lean ====
section
/-! SUPPORT. When an operand lies within a payload: each operand reader of the decoder against the payload's length. -/

namespace Sys2Proof.Machine

theorem payloadSize_eq_none {p : List Byte} : payloadSize p = none ↔ p.length < 3 := by
  match p with
  | [] => simp [payloadSize]
  | [_] => simp [payloadSize]
  | [_, _] => simp [payloadSize]
  | _ :: _ :: _ :: _ => simp [payloadSize]

/-- A size that is there is the big-endian number of BUF[1] and BUF[2]. -/
theorem payloadSize_eq_some {p : List Byte} {n : Half} (h : payloadSize p = some n) :
    3 ≤ p.length ∧ n.toNat = sizeNumber p := by
  match p, h with
  | [], h => cases h
  | [_], h => cases h
  | [_, _], h => cases h
  | _ :: _ :: _ :: _, h => cases h; simp [sizeNumber, joinBytes_toNat]

theorem payloadData_of_size {p : List Byte} {n : Half} (h : payloadSize p = some n) :
    payloadData p = (p.drop 10).take n.toNat := by simp [payloadData, h]

theorem payloadAddress_eq_none {p : List Byte} : payloadAddress p = none ↔ p.length < 5 := by
  match p with
  | [] => simp [payloadAddress]
  | [_] => simp [payloadAddress]
  | [_, _] => simp [payloadAddress]
  | [_, _, _] => simp [payloadAddress]
  | [_, _, _, _] => simp [payloadAddress]
  | _ :: _ :: _ :: _ :: _ :: _ => simp [payloadAddress]

theorem payloadCmds_eq_none {p : List Byte} : payloadCmds p = none ↔ p.length < 4 := by
  match p with
  | [] => simp [payloadCmds]
  | [_] => simp [payloadCmds]
  | [_, _] => simp [payloadCmds]
  | [_, _, _] => simp [payloadCmds]
  | _ :: _ :: _ :: _ :: _ => simp [payloadCmds]

end Sys2Proof.Machine
end

