-- ==== Sys2Proof/Laws/PerInstr.lean ====
section
/-! SUPPORT. One fact per instruction: its encoding begins with the command code of its row (30_encoding R85, R96). -/

namespace Sys2Proof.Laws.EncodeHead

/-- The first payload byte of the instruction's encoding is its command code. -/
def Statement (i : Instr) : Prop := ∃ rest, encode i = Machine.commandCode i :: rest

theorem signOn : Statement .signOn := ⟨_, rfl⟩

theorem setParameter : Statement .setParameter := ⟨_, rfl⟩

theorem getParameter (id : Option Byte) : Statement (.getParameter id) := by
  cases id <;> exact ⟨_, rfl⟩

theorem loadAddress (word : Option (BitVec 32)) : Statement (.loadAddress word) := by
  cases word <;> exact ⟨_, rfl⟩

theorem enterProgmodeIsp : Statement .enterProgmodeIsp := ⟨_, rfl⟩

theorem leaveProgmodeIsp : Statement .leaveProgmodeIsp := ⟨_, rfl⟩

theorem chipEraseIsp : Statement .chipEraseIsp := ⟨_, rfl⟩

theorem programFlashIsp (size : Option Half) (data : List Byte) : Statement (.programFlashIsp size data) := by
  cases size <;> exact ⟨_, rfl⟩

theorem readFlashIsp (size : Option Half) : Statement (.readFlashIsp size) := by
  cases size <;> exact ⟨_, rfl⟩

theorem programEepromIsp (size : Option Half) (data : List Byte) : Statement (.programEepromIsp size data) := by
  cases size <;> exact ⟨_, rfl⟩

theorem readEepromIsp (size : Option Half) : Statement (.readEepromIsp size) := by
  cases size <;> exact ⟨_, rfl⟩

theorem readFuseIsp (cmds : Option (Byte × Byte)) : Statement (.readFuseIsp cmds) := by
  cases cmds <;> exact ⟨_, rfl⟩

theorem programLockIsp (lockByte : Option Byte) : Statement (.programLockIsp lockByte) := by
  cases lockByte <;> exact ⟨_, rfl⟩

theorem readLockIsp : Statement .readLockIsp := ⟨_, rfl⟩

theorem readSignatureIsp (index : Option Byte) : Statement (.readSignatureIsp index) := by
  cases index <;> exact ⟨_, rfl⟩

theorem spiMulti (tx0 : Option Byte) (index : Option Byte) : Statement (.spiMulti tx0 index) := by
  cases tx0 <;> cases index <;> exact ⟨_, rfl⟩

theorem unknown (code : Byte) : Statement (.unknown code) := ⟨_, rfl⟩

end Sys2Proof.Laws.EncodeHead
end

