-- ==== Sys2Proof/Laws/ProgramFlash.lean ====
section
/-! SUPPORT. What the loop of PROGRAM_FLASH_ISP does on the reference port: the bytes it leaves in flash, and the requests
it makes. The loop is described for any EPAGE, so that its rest is described by the same words. -/

namespace Sys2Proof.Machine

/-! ### Pages -/

/-- Two bytes of the address space share a page base when they share a page number. -/
theorem pageOf_eq_iff {c : Config} (hp : 0 < c.pageSize) {x y : Nat} (hx : x < 2 ^ 32) (hy : y < 2 ^ 32) :
    pageOf c (BitVec.ofNat 32 x) = pageOf c (BitVec.ofNat 32 y) ↔ x / c.pageSize = y / c.pageSize := by
  rw [← BitVec.toNat_inj, pageOf_toNat, pageOf_toNat, BitVec.toNat_ofNat, BitVec.toNat_ofNat,
    Nat.mod_eq_of_lt hx, Nat.mod_eq_of_lt hy]
  have h1 := Nat.div_add_mod x c.pageSize
  have h2 := Nat.div_add_mod y c.pageSize
  constructor
  · intro h
    exact Nat.eq_of_mul_eq_mul_left hp (by omega)
  · intro h
    rw [h] at h1
    omega

/-- A byte lies in the filled range of a page exactly when it is on that page. -/
theorem page_range_iff {p x y : Nat} (hp : 0 < p) : (y - y % p ≤ x ∧ x < y - y % p + p) ↔ x / p = y / p := by
  have h2 := Nat.div_add_mod y p
  have hy : y - y % p = p * (y / p) := by omega
  rw [hy, Nat.div_eq_iff hp, Nat.mul_comm p]
  constructor
  · rintro ⟨h3, h4⟩; constructor <;> omega
  · rintro ⟨h3, h4⟩; constructor <;> omega

/-- EPAGE holds the page of byte `x`. -/
def erasedLast (s : State) (x : Nat) : Prop := s.epage = some (pageOf s.cfg (BitVec.ofNat 32 x))

/-! ### One word -/

/-- A word at or above the boundary only advances ADDR. -/
theorem programWord_above {lo hi : Byte} {s : State} (h : s.cfg.bootBoundary ≤ s.addr.toNat) :
    programWord lo hi s = .ok (s.advanceAddr 2) := by
  rw [programWord, if_neg (by omega)]

/-- The erase a word below the boundary asks for first. -/
def eraseRequests (s : State) : List PortRequest :=
  if s.epage = some (pageOf s.cfg s.addr) then [] else [.eraseFlash (pageOf s.cfg s.addr)]

/-- Flash after that erase. -/
def erasedFlash (s : State) : Memory :=
  if s.epage = some (pageOf s.cfg s.addr) then s.port.flash
  else s.port.flash.fill (pageOf s.cfg s.addr).toNat s.cfg.pageSize s.cfg.erasedByte

/-- A word below the boundary, on the reference port of a legal instance. -/
theorem programWord_below {lo hi : Byte} {s : State} (hl : Legal s.cfg) (hk : s.cfg.portKind = .reference)
    (he : s.addr.toNat % 2 = 0) (h : s.addr.toNat < s.cfg.bootBoundary) :
    programWord lo hi s = .ok { s with
      epage := some (pageOf s.cfg s.addr)
      addr := wrapAddr s.cfg (s.addr.toNat + 2)
      port := { s.port with
        flash := ((erasedFlash s).write s.addr.toNat lo).write (s.addr.toNat + 1) hi
        log := s.port.log ++ (eraseRequests s ++ [.writeFlash s.addr (flashWord lo hi)]) } } := by
  have hb := hl.bootFlash
  have hw := hl.wordBelow he h
  have hp := hl.pageBelow h
  have hpage : requestInRange s.cfg (.eraseFlash (pageOf s.cfg s.addr)) = true := by
    simp only [requestInRange, pageOf_toNat, decide_eq_true_eq]; omega
  have hword : requestInRange s.cfg (.writeFlash s.addr (flashWord lo hi)) = true := by
    simp only [requestInRange, decide_eq_true_eq]; omega
  by_cases hE : s.epage = some (pageOf s.cfg s.addr)
  · have e1 : erasePageOnce s.addr s = .ok s := by rw [erasePageOnce, if_pos hE]
    have e2 := State.request_reference hk hword
    rw [programWord, if_pos h, e1]
    simp only [e2]
    simp only [State.advanceAddr, requestEffect, loByte_joinBytes, hiByte_joinBytes, flashWord]
    rw [eraseRequests, erasedFlash, if_pos hE, if_pos hE, ← hE]
    rfl
  · have e1 : erasePageOnce s.addr s = .ok { s with
        epage := some (pageOf s.cfg s.addr)
        port := { requestEffect s.cfg s.port (.eraseFlash (pageOf s.cfg s.addr)) with
          log := s.port.log ++ [.eraseFlash (pageOf s.cfg s.addr)] } } := by
      rw [erasePageOnce, if_neg hE, State.request_reference hk hpage]
    rw [programWord, if_pos h, e1]
    simp only []
    rw [State.request_reference (by exact hk) (by exact hword)]
    rw [eraseRequests, erasedFlash, if_neg hE, if_neg hE]
    simp only [State.advanceAddr, requestEffect, loByte_joinBytes, hiByte_joinBytes, flashWord, List.append_assoc]

/-- Flash after the erase, read anywhere. -/
theorem erasedFlash_read {s : State} (hp : 0 < s.cfg.pageSize) (hwf : s.port.flash.wf = true) (x : Nat) :
    (erasedFlash s).read x =
      if s.epage ≠ some (pageOf s.cfg s.addr) ∧ x / s.cfg.pageSize = s.addr.toNat / s.cfg.pageSize
      then s.cfg.erasedByte else s.port.flash.read x := by
  rw [erasedFlash]
  split
  · rename_i h; simp [h]
  · rename_i h
    rw [Memory.read_fill hwf, pageOf_toNat]
    simp only [page_range_iff hp, ne_eq, h, not_false_eq_true, true_and]

theorem erasedFlash_wf {s : State} (hwf : s.port.flash.wf = true) : (erasedFlash s).wf = true := by
  rw [erasedFlash]
  split
  · exact hwf
  · exact Memory.fill_wf hwf _ _ _

/-! ### Completion, on either port -/

/-- The erase of a word below the boundary completes on either port of a legal instance. -/
theorem erasePageOnce_completes {s : State} (hl : Legal s.cfg) (h : s.addr.toNat < s.cfg.bootBoundary) :
    ∃ t, erasePageOnce s.addr s = .ok t := by
  rw [erasePageOnce]
  split
  · exact ⟨_, rfl⟩
  · obtain ⟨t, ht⟩ := State.request_succeeds s (.eraseFlash (pageOf s.cfg s.addr)) (fun _ => by
      have := hl.bootFlash
      have := hl.pageBelow h
      simp only [requestInRange, pageOf_toNat, decide_eq_true_eq]; omega)
    rw [ht]; exact ⟨_, rfl⟩

theorem programWord_completes {s : State} (lo hi : Byte) (hl : Legal s.cfg) (he : s.addr.toNat % 2 = 0) :
    ∃ t, programWord lo hi s = .ok t := by
  rw [programWord]
  split
  · rename_i h
    obtain ⟨s1, h1⟩ := erasePageOnce_completes hl h
    obtain ⟨s2, h2⟩ := State.request_succeeds s1 (.writeFlash s.addr (flashWord lo hi)) (fun _ => by
      have := hl.bootFlash
      have := hl.wordBelow he h
      rw [(erasePageOnce_work h1 h).2.2]
      simp only [requestInRange, decide_eq_true_eq]; omega)
    simp only [h1, h2]; exact ⟨_, rfl⟩
  · exact ⟨_, rfl⟩

/-- Under `draws` no request changes the model's copy of flash. -/
theorem State.request_draws {s t : State} {r : PortRequest} (hk : s.cfg.portKind = .draws) (h : s.request r = .ok t) :
    t.port.flash = s.port.flash ∧ t.cfg.portKind = .draws := by
  obtain ⟨q, hq, rfl⟩ := State.request_ok h
  rw [Port.perform_draws hk] at hq
  cases hq
  exact ⟨rfl, hk⟩

theorem erasePageOnce_draws {a : Addr} {s t : State} (hk : s.cfg.portKind = .draws) (h : erasePageOnce a s = .ok t) :
    t.port.flash = s.port.flash ∧ t.cfg.portKind = .draws := by
  unfold erasePageOnce at h
  split at h
  · cases h; exact ⟨rfl, hk⟩
  · split at h
    · rename_i s1 h1; cases h; have e := State.request_draws hk h1; exact e
    · cases h

/-- A word changes no flash byte at or above the boundary or off its page. -/
theorem programWord_outside {lo hi : Byte} {s t : State} (hl : Legal s.cfg) (he : s.addr.toNat % 2 = 0)
    (h : programWord lo hi s = .ok t) {x : Nat}
    (hx : s.cfg.bootBoundary ≤ x ∨ s.addr.toNat / s.cfg.pageSize ≠ x / s.cfg.pageSize) :
    t.port.flash.read x = s.port.flash.read x := by
  have hp : 0 < s.cfg.pageSize := by have := hl.page; omega
  rcases hx with hx | hx
  · exact (programWord_work h he).1.boot hl hx
  · cases hk : s.cfg.portKind with
    | draws =>
      unfold programWord at h
      split at h
      · split at h
        · rename_i s1 h1
          have e1 := erasePageOnce_draws hk h1
          split at h
          · rename_i s2 h2
            cases h
            exact congrArg (Memory.read · x) ((State.request_draws e1.2 h2).1.trans e1.1)
          · cases h
        · cases h
      · cases h; rfl
    | reference =>
      by_cases hb : s.addr.toNat < s.cfg.bootBoundary
      · rw [programWord_below hl hk he hb] at h
        cases h
        have hne : x ≠ s.addr.toNat ∧ x ≠ s.addr.toNat + 1 := by
          constructor
          · rintro rfl; exact hx rfl
          · rintro rfl
            refine hx ?_
            have h1 := Nat.div_add_mod s.addr.toNat s.cfg.pageSize
            have h2 := Nat.mod_lt s.addr.toNat hp
            have h3 : s.addr.toNat % s.cfg.pageSize % 2 = 0 := by
              rw [Nat.mod_mod_of_dvd _ (Nat.dvd_of_mod_eq_zero hl.pageEven)]; exact he
            have h4 := hl.pageEven
            rw [eq_comm, Nat.div_eq_iff hp, Nat.mul_comm]
            constructor <;> omega
        change Memory.read (Memory.write (Memory.write _ _ _) _ _) x = _
        rw [Memory.read_write_other _ _ hne.2, Memory.read_write_other _ _ hne.1, erasedFlash]
        split
        · rfl
        · refine Memory.read_fill_other _ _ _ _ ?_
          rw [pageOf_toNat]
          have := (not_congr (page_range_iff (x := x) (y := s.addr.toNat) hp)).2 (fun e => hx e.symm)
          omega
      · rw [programWord_above (by omega)] at h
        cases h; rfl

/-- The loop completes on either port of a legal instance, from any EPAGE, and changes no flash byte at or above the boundary
or off the pages of its words. -/
theorem programWords_completes {data : List Byte} {s : State} (hl : Legal s.cfg) (he : s.addr.toNat % 2 = 0)
    (ha : s.addr.toNat < 2 ^ s.cfg.addrWidth.bits) :
    ∃ t, programWords data s = .ok t ∧ ∀ x,
      (s.cfg.bootBoundary ≤ x
        ∨ ∀ k, 2 * k + 1 < data.length → transferAddr s (2 * k) / s.cfg.pageSize ≠ x / s.cfg.pageSize) →
      t.port.flash.read x = s.port.flash.read x := by
  induction data using List.twoStepInduction generalizing s with
  | nil => exact ⟨s, rfl, fun _ _ => rfl⟩
  | singleton v => exact ⟨s, rfl, fun _ _ => rfl⟩
  | cons_cons lo hi rest ih =>
    obtain ⟨s1, h1⟩ := programWord_completes lo hi hl he
    obtain ⟨w, he1⟩ := programWord_work h1 he
    have k := (programWord_kept h1).1
    have ha1 : s1.addr.toNat < 2 ^ s1.cfg.addrWidth.bits := by rw [k.cfg]; exact w.address ha
    have k4 := k.addr
    rw [Nat.mod_eq_of_lt (w.address ha)] at k4
    have hsh : ∀ j, transferAddr s1 (2 * j) = transferAddr s (2 * (j + 1)) := fun j => by
      rw [transferAddr_advance k.cfg k4, show 2 + 2 * j = 2 * (j + 1) by omega]
    obtain ⟨t, h2, h3⟩ := ih (s := s1) (by rw [k.cfg]; exact hl) he1 ha1
    refine ⟨t, by rw [programWords, h1]; exact h2, fun x hx => ?_⟩
    rw [h3 x, programWord_outside hl he h1]
    · rcases hx with hx | hx
      · exact .inl hx
      · have := hx 0 (by simp)
        rw [Nat.mul_zero, transferAddr_zero ha] at this
        exact .inr this
    · rw [k.cfg]
      rcases hx with hx | hx
      · exact .inl hx
      · exact .inr fun j hj => by rw [hsh]; exact hx (j + 1) (by simp only [List.length_cons]; omega)

/-! ### All words -/

/-- The transfer does not come back to a page below the boundary that it has left. -/
def NoReturn (s : State) (len : Nat) : Prop :=
  ∀ i j m, i ≤ j → j ≤ m → 2 * m + 1 < len → transferAddr s (2 * i) < s.cfg.bootBoundary →
    transferAddr s (2 * i) / s.cfg.pageSize = transferAddr s (2 * m) / s.cfg.pageSize →
    transferAddr s (2 * j) / s.cfg.pageSize = transferAddr s (2 * i) / s.cfg.pageSize

/-- A transfer that stops short of its first page again never comes back to a page. -/
theorem noReturn_of_room {s : State} {len : Nat} (hc : configLegal s.cfg = true)
    (h : s.addr.toNat % s.cfg.pageSize + len ≤ 2 ^ s.cfg.addrWidth.bits) : NoReturn s len := by
  intro i j m hij hjm hm hb heq
  have hl := legal_of _ hc
  have hp : 0 < s.cfg.pageSize := by have := hl.page; omega
  have hdvd : s.cfg.pageSize ∣ 2 ^ s.cfg.addrWidth.bits := by
    have h1 := ((configLegal_iff _).1 hc).2.2.1
    have h2 : s.cfg.pageSize ≤ 2 ^ s.cfg.addrWidth.bits :=
      le_trans (Nat.le_of_dvd (by have := hl.bootFlash; omega) (Nat.dvd_of_mod_eq_zero hl.flashPage)) hl.flashSpace
    rw [← h1] at h2 ⊢
    exact Nat.pow_dvd_pow 2 ((Nat.pow_le_pow_iff_right (by decide)).1 h2)
  obtain ⟨T, hT⟩ := hdvd
  have key : ∀ k, 2 * k + 1 < len → transferAddr s (2 * k) / s.cfg.pageSize
      = (s.addr.toNat / s.cfg.pageSize + (s.addr.toNat % s.cfg.pageSize + 2 * k) / s.cfg.pageSize) % T
      ∧ (s.addr.toNat % s.cfg.pageSize + 2 * k) / s.cfg.pageSize < T := by
    intro k hk
    constructor
    · rw [transferAddr, hT, Nat.mod_mul_right_div_self, ← Nat.mul_add_div hp, ← Nat.add_assoc, Nat.div_add_mod]
    · rw [Nat.div_lt_iff_lt_mul hp, Nat.mul_comm T, ← hT]; omega
  obtain ⟨ei, li⟩ := key i (by omega)
  obtain ⟨em, lm⟩ := key m hm
  rw [ei, em] at heq
  have hu := Nat.ModEq.eq_of_lt_of_lt (Nat.ModEq.add_left_cancel' _ heq) li lm
  have h1 := Nat.div_le_div_right (c := s.cfg.pageSize) (show s.addr.toNat % s.cfg.pageSize + 2 * i
    ≤ s.addr.toNat % s.cfg.pageSize + 2 * j by omega)
  have h2 := Nat.div_le_div_right (c := s.cfg.pageSize) (show s.addr.toNat % s.cfg.pageSize + 2 * j
    ≤ s.addr.toNat % s.cfg.pageSize + 2 * m by omega)
  rw [(key j (by omega)).1, ei, show (s.addr.toNat % s.cfg.pageSize + 2 * j) / s.cfg.pageSize
    = (s.addr.toNat % s.cfg.pageSize + 2 * i) / s.cfg.pageSize by omega]

/-- Byte `x` is none of the bytes of the first `len / 2` words. -/
def Untouched (s : State) (len x : Nat) : Prop :=
  ∀ k, 2 * k + 1 < len → x ≠ transferAddr s (2 * k) ∧ x ≠ transferAddr s (2 * k) + 1

/-- What the loop did from `s` to `t` with the words `data`, by the requests `rs`. -/
structure Programmed (s t : State) (data : List Byte) (rs : List PortRequest) : Prop where
  moved : Moved s t data.length rs
  eeprom : t.port.eeprom = s.port.eeprom
  fuses : t.port.fuses = s.port.fuses
  written : ∀ k, 2 * k + 1 < data.length → transferAddr s (2 * k) < s.cfg.bootBoundary →
    data[2 * k]? = some (t.port.flash.read (transferAddr s (2 * k)))
      ∧ data[2 * k + 1]? = some (t.port.flash.read (transferAddr s (2 * k) + 1))
  erased : ∀ x < s.cfg.bootBoundary, ∀ k, 2 * k + 1 < data.length →
    transferAddr s (2 * k) / s.cfg.pageSize = x / s.cfg.pageSize → ¬ erasedLast s x → Untouched s data.length x →
    t.port.flash.read x = s.cfg.erasedByte
  kept : ∀ x, Untouched s data.length x →
    (s.cfg.bootBoundary ≤ x
      ∨ (∀ k, 2 * k + 1 < data.length → transferAddr s (2 * k) / s.cfg.pageSize ≠ x / s.cfg.pageSize)
      ∨ erasedLast s x) → t.port.flash.read x = s.port.flash.read x
  kinds : ∀ r ∈ rs, (∃ p, r = .eraseFlash p) ∨ ∃ a w, r = .writeFlash a w
  erases : ∀ p, .eraseFlash p ∈ rs → ∃ k, 2 * k + 1 < data.length
    ∧ p = pageOf s.cfg (BitVec.ofNat 32 (transferAddr s (2 * k))) ∧ ¬ erasedLast s (transferAddr s (2 * k))
  once : ∀ p, rs.count (.eraseFlash p) ≤ 1
  covered : ∀ before a w after, rs = before ++ .writeFlash a w :: after →
    .eraseFlash (pageOf s.cfg a) ∈ before ∨ s.epage = some (pageOf s.cfg a)
  used : ∀ p, .eraseFlash p ∈ rs → ∃ a w, .writeFlash a w ∈ rs ∧ pageOf s.cfg a = p

/-- Behind a byte at or above the boundary EPAGE names no page still to come, if it did not before. -/
def EpageFresh (s : State) (len : Nat) : Prop :=
  ∀ x < 2 ^ 32, erasedLast s x →
    (x / s.cfg.pageSize = transferAddr s 0 / s.cfg.pageSize ∧ transferAddr s 0 < s.cfg.bootBoundary)
      ∨ ∀ k, 2 * k + 1 < len → transferAddr s (2 * k) / s.cfg.pageSize ≠ x / s.cfg.pageSize

/-- The loop on the reference port of a legal instance, from any EPAGE that names no page the transfer returns to. -/
theorem programWords_reference {data : List Byte} {s : State} (hl : Legal s.cfg) (hk : s.cfg.portKind = .reference)
    (hwf : s.port.flash.wf = true) (ha : s.addr.toNat < 2 ^ s.cfg.addrWidth.bits) (he : s.addr.toNat % 2 = 0)
    (hd : data.length % 2 = 0) (hn : data.length ≤ 2 ^ s.cfg.addrWidth.bits) (hret : NoReturn s data.length)
    (hfresh : EpageFresh s data.length) :
    ∃ t rs, programWords data s = .ok t ∧ Programmed s t data rs := by
  induction data using List.twoStepInduction generalizing s with
  | nil =>
    exact ⟨s, [], rfl, Moved.refl ha, rfl, rfl, by simp, by simp, by simp, by simp, by simp, by simp, by simp, by simp⟩
  | singleton v => simp at hd
  | cons_cons lo hi rest ih =>
    simp only [List.length_cons] at hd hn hret hfresh
    have hp : 0 < s.cfg.pageSize := by have := hl.page; omega
    have z := transferAddr_zero ha
    -- the rest, once the first word is known to have led to `s1`
    have later : ∀ (s1 : State) (rs0 : List PortRequest), Moved s s1 2 rs0 → s1.port.flash.wf = true →
        EpageFresh s1 rest.length → ∃ t rs, programWords rest s1 = .ok t ∧ Programmed s1 t rest rs := by
      intro s1 rs0 mv wf1 fr
      have hc := mv.prepared.cfg
      have hsh : ∀ k, transferAddr s1 (2 * k) = transferAddr s (2 * (k + 1)) := fun k => by
        rw [mv.transferAddr, show 2 + 2 * k = 2 * (k + 1) by omega]
      refine ih (by rw [hc]; exact hl) (by rw [hc]; exact hk) wf1 mv.addr_lt ?_ (by omega) (by rw [hc]; omega) ?_ fr
      · rw [mv.addr]
        have h1 := Nat.mod_mod_of_dvd (s.addr.toNat + 2) (Nat.dvd_of_mod_eq_zero (two_pow_bits_even s.cfg.addrWidth))
        omega
      · intro i j m hij hjm hm hb heq
        rw [hc, hsh] at hb
        rw [hc, hsh, hsh] at heq
        rw [hc, hsh, hsh]
        exact hret (i + 1) (j + 1) (m + 1) (by omega) (by omega) (by omega) hb heq
    have hsh : ∀ {s1 : State} {rs0 : List PortRequest}, Moved s s1 2 rs0 →
        ∀ k, transferAddr s1 (2 * k) = transferAddr s (2 * (k + 1)) := fun mv k => by
      rw [mv.transferAddr, show 2 + 2 * k = 2 * (k + 1) by omega]
    have he0 : ∀ k, transferAddr s (2 * k) % 2 = 0 := fun k => by
      have h1 := Nat.mod_mod_of_dvd (s.addr.toNat + 2 * k) (Nat.dvd_of_mod_eq_zero (two_pow_bits_even s.cfg.addrWidth))
      rw [transferAddr]; omega
    have hbl : s.cfg.bootBoundary ≤ 2 ^ 32 :=
      hl.bootFlash.trans (hl.flashSpace.trans (two_pow_bits_le _))
    have hlt : ∀ k, transferAddr s k < 2 ^ 32 := fun k => (transferAddr_lt s k).trans_le (two_pow_bits_le _)
    have side : ∀ x y, x < s.cfg.bootBoundary → x / s.cfg.pageSize = y / s.cfg.pageSize → y < s.cfg.bootBoundary := by
      intro x y hx hxy
      have h1 := hl.pageBelow hx
      have h2 := (page_range_iff (y := x) hp).2 hxy.symm
      omega
    have none_touched : ∀ {s1 : State} {rs0 : List PortRequest}, Moved s s1 2 rs0 → ∀ x,
        Untouched s (rest.length + 2) x → Untouched s1 rest.length x := fun mv x hx k hk' => by
      rw [hsh mv]; exact hx (k + 1) (by omega)
    have hlen : (lo :: hi :: rest).length = 2 + rest.length := by simp; omega
    have same : ∀ x < 2 ^ 32, (pageOf s.cfg (BitVec.ofNat 32 x) = pageOf s.cfg s.addr
        ↔ x / s.cfg.pageSize = s.addr.toNat / s.cfg.pageSize) := by
      intro x hx
      rw [← pageOf_eq_iff hp hx (by omega : s.addr.toNat < 2 ^ 32), BitVec.ofNat_toNat, BitVec.setWidth_eq]
    by_cases hb : s.addr.toNat < s.cfg.bootBoundary
    · -- below the boundary
      have w := programWord_below (lo := lo) (hi := hi) hl hk he hb
      set s1 : State := { s with
        epage := some (pageOf s.cfg s.addr)
        addr := wrapAddr s.cfg (s.addr.toNat + 2)
        port := { s.port with
          flash := ((erasedFlash s).write s.addr.toNat lo).write (s.addr.toNat + 1) hi
          log := s.port.log ++ (eraseRequests s ++ [.writeFlash s.addr (flashWord lo hi)]) } } with hs1
      have wf0 := Memory.write_wf (erasedFlash_wf hwf) s.addr.toNat lo
      have mv : Moved s s1 2 (eraseRequests s ++ [.writeFlash s.addr (flashWord lo hi)]) :=
        ⟨Prepared.of_update s _ s.leave _ _, rfl, by rw [hs1, wrapAddr_toNat], rfl, rfl⟩
      -- EPAGE now names the first word's page
      have last1 : ∀ x < 2 ^ 32, (erasedLast s1 x ↔ x / s.cfg.pageSize = s.addr.toNat / s.cfg.pageSize) := by
        intro x hx
        rw [erasedLast, ← same x hx]
        simp only [hs1, Option.some.injEq]
        exact eq_comm
      have read1 : ∀ x, s1.port.flash.read x = if x = s.addr.toNat + 1 then hi else if x = s.addr.toNat then lo
          else (erasedFlash s).read x := by
        intro x
        change Memory.read (Memory.write (Memory.write _ _ _) _ _) x = _
        split
        · rename_i h; rw [h, Memory.read_write_self wf0]
        · rw [Memory.read_write_other _ _ (by assumption)]
          split
          · rename_i h; rw [h, Memory.read_write_self (erasedFlash_wf hwf)]
          · rw [Memory.read_write_other _ _ (by assumption)]
      obtain ⟨t, rs, h1, h2⟩ := later s1 _ mv (Memory.write_wf wf0 _ _) (by
        intro x hx hE
        have hxp := (last1 x hx).1 hE
        have hcfg : s1.cfg = s.cfg := rfl
        have e0 := hsh mv 0
        simp only [Nat.mul_zero] at e0
        rw [e0, hcfg]
        by_cases h : x / s.cfg.pageSize = transferAddr s (2 * (0 + 1)) / s.cfg.pageSize
        · exact .inl ⟨h, side _ _ hb (hxp.symm.trans h)⟩
        · refine .inr (fun k hk' e => h ?_)
          rw [hsh mv] at e
          have := hret 0 1 (k + 1) (by omega) (by omega) (by omega) (by rw [Nat.mul_zero, z]; exact hb)
            (by rw [Nat.mul_zero, z, e, hxp])
          rw [Nat.mul_zero, z] at this
          rw [hxp, ← this])
      have un0 : Untouched s1 rest.length s.addr.toNat ∧ Untouched s1 rest.length (s.addr.toNat + 1) := by
        have ne : ∀ k, 2 * k + 1 < rest.length → transferAddr s (2 * (k + 1)) ≠ s.addr.toNat := fun k hk' e => by
          rw [← z] at e
          have := transferAddr_inj (n := rest.length + 2) (by omega) (by omega) hn e
          omega
        constructor <;> intro k hk' <;> rw [hsh mv] <;> have := ne k hk' <;> have := he0 (k + 1) <;> omega
      have hE' : erasedLast s s.addr.toNat ↔ s.epage = some (pageOf s.cfg s.addr) := by
        rw [erasedLast, BitVec.ofNat_toNat, BitVec.setWidth_eq]
      have memE : ∀ p, .eraseFlash p ∈ eraseRequests s →
          p = pageOf s.cfg s.addr ∧ ¬ s.epage = some (pageOf s.cfg s.addr) := by
        intro p hm
        rw [eraseRequests] at hm
        split at hm
        · simp at hm
        · exact ⟨by simpa using hm, by assumption⟩
      refine ⟨t, (eraseRequests s ++ [.writeFlash s.addr (flashWord lo hi)]) ++ rs, by rw [programWords, w]; exact h1,
        by rw [hlen]; exact mv.trans h2.moved, h2.eeprom, h2.fuses, ?_, ?_, ?_, ?_, ?_, ?_, ?_, ?_⟩
      · intro k hk' hkb
        cases k with
        | zero =>
          rw [Nat.mul_zero, z]
          have k0 := h2.kept _ un0.1 (.inr (.inr ((last1 _ (by omega)).2 rfl)))
          have k1 := h2.kept _ un0.2 (.inr (.inr ((last1 _ (by omega)).2 (by
            have := Nat.div_add_mod s.addr.toNat s.cfg.pageSize
            have h5 := hl.pageEven
            have h6 := Nat.mod_lt s.addr.toNat hp
            have h7 : s.addr.toNat % s.cfg.pageSize % 2 = 0 := by
              rw [Nat.mod_mod_of_dvd _ (Nat.dvd_of_mod_eq_zero h5)]; exact he
            rw [Nat.div_eq_iff hp, Nat.mul_comm]
            constructor <;> omega))))
          rw [k0, k1, read1, read1]
          simp
        | succ k =>
          have e := h2.written k (by simp at hk'; omega) (by rw [hsh mv]; exact hkb)
          rw [hsh mv] at e
          simpa [Nat.mul_add] using e
      · intro x hx k hk' hkx hne hun
        by_cases hx0 : x / s.cfg.pageSize = s.addr.toNat / s.cfg.pageSize
        · rw [h2.kept x (none_touched mv x hun) (.inr (.inr ((last1 x (by omega)).2 hx0))), read1]
          have := hun 0 (by simp)
          rw [Nat.mul_zero, z] at this
          have hE : s.epage ≠ some (pageOf s.cfg s.addr) := fun hE =>
            hne (by rw [erasedLast, hE, (same x (by omega)).2 hx0])
          rw [if_neg this.2, if_neg this.1, erasedFlash_read hp hwf, if_pos ⟨hE, hx0⟩]
        · cases k with
          | zero => rw [Nat.mul_zero, z] at hkx; exact absurd hkx.symm hx0
          | succ k =>
            exact h2.erased x hx k (by simp at hk'; omega) (by rw [hsh mv]; exact hkx)
              (fun hE => hx0 ((last1 x (by omega)).1 hE)) (none_touched mv x hun)
      · intro x hun hor
        have h0 := hun 0 (by simp)
        rw [Nat.mul_zero, z] at h0
        have unt := none_touched mv x hun
        have old : s1.port.flash.read x = (erasedFlash s).read x := by rw [read1, if_neg h0.2, if_neg h0.1]
        -- either the first word's page was erased before, or `x` is not on it
        have out : x / s.cfg.pageSize ≠ s.addr.toNat / s.cfg.pageSize → s1.port.flash.read x = s.port.flash.read x :=
          fun h => by rw [old, erasedFlash_read hp hwf, if_neg (fun h' => h h'.2)]
        rcases Nat.lt_or_ge x s.cfg.bootBoundary with hx | hx
        · have away : (∀ k, 2 * k + 1 < rest.length + 2 →
              transferAddr s (2 * k) / s.cfg.pageSize ≠ x / s.cfg.pageSize) →
              t.port.flash.read x = s.port.flash.read x := by
            intro h
            rw [h2.kept x unt (.inr (.inl fun k hk' => by rw [hsh mv]; exact h (k + 1) (by omega)))]
            refine out (fun e => h 0 (by omega) ?_)
            rw [Nat.mul_zero, z, e]
          rcases hor with h | h | h
          · omega
          · exact away h
          · rcases hfresh x (by omega) h with h' | h'
            · rw [z] at h'
              rw [h2.kept x unt (.inr (.inr ((last1 x (by omega)).2 h'.1))), old, erasedFlash_read hp hwf]
              refine if_neg (fun h'' => h''.1 ?_)
              rw [← (same x (by omega)).2 h'.1]
              exact h
            · exact away h'
        · rw [h2.kept x unt (.inl hx)]
          exact out (fun e => absurd (side _ x hb e.symm) (by omega))
      · intro r hr
        rcases List.mem_append.1 hr with hr | hr
        · rcases List.mem_append.1 hr with hr | hr
          · rw [eraseRequests] at hr
            split at hr
            · simp at hr
            · exact .inl ⟨_, by simpa using hr⟩
          · exact .inr ⟨_, _, by simpa using hr⟩
        · exact h2.kinds r hr
      · intro p hm
        rcases List.mem_append.1 hm with hm | hm
        · rcases List.mem_append.1 hm with hm | hm
          · obtain ⟨e1, e2⟩ := memE p hm
            refine ⟨0, by simp, ?_, ?_⟩
            · rw [Nat.mul_zero, z, BitVec.ofNat_toNat, BitVec.setWidth_eq, e1]
            · rw [Nat.mul_zero, z, hE']; exact e2
          · simp at hm
        · obtain ⟨k, hk', e1, e2⟩ := h2.erases p hm
          rw [hsh mv] at e1 e2
          refine ⟨k + 1, by simp; omega, e1, fun hE => ?_⟩
          rcases hfresh _ (hlt _) hE with h | h
          · rw [z] at h
            exact e2 ((last1 _ (hlt _)).2 h.1)
          · exact h (k + 1) (by omega) rfl
      · intro p
        rw [List.count_append, List.count_append]
        have h0 : List.count (.eraseFlash p) [PortRequest.writeFlash s.addr (flashWord lo hi)] = 0 := by
          simp
        have h3 := h2.once p
        by_cases hm : .eraseFlash p ∈ eraseRequests s
        · have h4 : List.count (.eraseFlash p) rs = 0 := by
            refine List.count_eq_zero.2 (fun hm' => ?_)
            obtain ⟨k, hk', e1, e2⟩ := h2.erases p hm'
            rw [(memE p hm).1] at e1
            exact e2 ((last1 _ (by rw [hsh mv]; exact hlt _)).2 ((same _ (by rw [hsh mv]; exact hlt _)).1 e1.symm))
          have h5 : List.count (.eraseFlash p) (eraseRequests s) ≤ 1 := by
            refine List.count_le_length.trans ?_
            rw [eraseRequests]; split <;> simp
          omega
        · have h5 := List.count_eq_zero.2 hm
          omega
      · intro before a v after e
        -- an erase that is due stands first
        have tail : ∀ before', rs = before' ++ .writeFlash a v :: after →
            .eraseFlash (pageOf s.cfg a) ∈ before' ∨ pageOf s.cfg s.addr = pageOf s.cfg a := by
          intro before' e'
          rcases h2.covered before' a v after e' with h | h
          · exact .inl h
          · exact .inr (Option.some.inj h)
        by_cases hE : s.epage = some (pageOf s.cfg s.addr)
        · rw [eraseRequests, if_pos hE] at e
          cases before with
          | nil =>
            simp only [List.nil_append, List.cons_append, List.cons.injEq, PortRequest.writeFlash.injEq] at e
            rw [← e.1.1]; exact .inr hE
          | cons r before =>
            simp only [List.nil_append, List.cons_append, List.cons.injEq] at e
            rcases tail before e.2 with h | h
            · exact .inl (List.mem_cons_of_mem _ h)
            · rw [← h]; exact .inr hE
        · rw [eraseRequests, if_neg hE] at e
          cases before with
          | nil => simp at e
          | cons r before =>
            simp only [List.nil_append, List.cons_append, List.cons.injEq] at e
            obtain ⟨rfl, e⟩ := e
            left
            cases before with
            | nil =>
              simp only [List.nil_append, List.cons.injEq, PortRequest.writeFlash.injEq] at e
              rw [← e.1.1]; exact List.mem_cons_self
            | cons r before =>
              simp only [List.cons_append, List.cons.injEq] at e
              rcases tail before e.2 with h | h
              · exact List.mem_cons_of_mem _ (List.mem_cons_of_mem _ h)
              · rw [← h]; exact List.mem_cons_self
      · intro p hm
        rcases List.mem_append.1 hm with hm | hm
        · rcases List.mem_append.1 hm with hm | hm
          · exact ⟨s.addr, flashWord lo hi, by simp, (memE p hm).1.symm⟩
          · simp at hm
        · obtain ⟨a, v, h3, h4⟩ := h2.used p hm
          exact ⟨a, v, List.mem_append_right _ h3, h4⟩
    · -- at or above it
      have w := programWord_above (lo := lo) (hi := hi) (by omega : s.cfg.bootBoundary ≤ s.addr.toNat)
      have mv : Moved s (s.advanceAddr 2) 2 [] :=
        ⟨Prepared.of_update s _ s.leave _ _, rfl, by rw [State.advanceAddr_addr, wrapAddr_toNat], by simp [State.advanceAddr], rfl⟩
      obtain ⟨t, rs, h1, h2⟩ := later _ _ mv hwf (by
        intro x hx hE
        rcases hfresh x hx hE with h | h
        · rw [z] at h; omega
        · exact .inr (fun k hk' => by rw [hsh mv]; exact h (k + 1) (by omega)))
      refine ⟨t, rs, by rw [programWords, w]; exact h1, by rw [hlen]; exact mv.trans h2.moved, h2.eeprom,
        h2.fuses, ?_, ?_, ?_, h2.kinds, ?_, h2.once, h2.covered, h2.used⟩
      · intro k hk' hkb
        cases k with
        | zero => rw [Nat.mul_zero, z] at hkb; omega
        | succ k =>
          have e := h2.written k (by simp at hk'; omega) (by rw [hsh mv]; exact hkb)
          rw [hsh mv] at e
          simpa [Nat.mul_add] using e
      · intro x hx k hk' hkx hne hun
        cases k with
        | zero => rw [Nat.mul_zero, z] at hkx; exact absurd (side x _ hx hkx.symm) hb
        | succ k =>
          exact h2.erased x hx k (by simp at hk'; omega) (by rw [hsh mv]; exact hkx) hne (none_touched mv x hun)
      · intro x hun hor
        refine h2.kept x (none_touched mv x hun) ?_
        rcases hor with h | h | h
        · exact .inl h
        · exact .inr (.inl fun k hk' => by rw [hsh mv]; exact h (k + 1) (by simp; omega))
        · exact .inr (.inr h)
      · intro p hm
        obtain ⟨k, hk', e1, e2⟩ := h2.erases p hm
        rw [hsh mv] at e1 e2
        exact ⟨k + 1, by simp; omega, e1, e2⟩

/-! ### The requests are the block's, whichever port answers -/

/-- What one word does that the port has no say in. -/
theorem programWord_trace {lo hi : Byte} {s t : State} (h : programWord lo hi s = .ok t) :
    t.cfg = s.cfg ∧ t.addr = wrapAddr s.cfg (s.addr.toNat + 2)
      ∧ t.epage = (if s.addr.toNat < s.cfg.bootBoundary then some (pageOf s.cfg s.addr) else s.epage)
      ∧ t.port.log = s.port.log ++ (if s.addr.toNat < s.cfg.bootBoundary
          then eraseRequests s ++ [.writeFlash s.addr (flashWord lo hi)] else []) := by
  unfold programWord at h
  split at h
  · rename_i hb
    simp only [hb, ↓reduceIte]
    split at h
    · rename_i s1 h1
      split at h
      · rename_i s2 h2
        cases h
        obtain ⟨q, hq, rfl⟩ := State.request_ok h2
        have l2 := Port.perform_log hq
        unfold erasePageOnce at h1
        split at h1
        · rename_i hE
          cases h1
          exact ⟨rfl, rfl, hE, by rw [eraseRequests, if_pos hE]; exact l2⟩
        · rename_i hE
          split at h1
          · rename_i s3 h3
            cases h1
            obtain ⟨q3, hq3, rfl⟩ := State.request_ok h3
            have l3 := Port.perform_log hq3
            refine ⟨rfl, rfl, rfl, ?_⟩
            rw [eraseRequests, if_neg hE, ← List.append_assoc, ← l3]
            exact l2
          · cases h1
      · cases h
    · cases h
  · rename_i hb
    simp only [hb, ↓reduceIte, List.append_nil]
    cases h
    exact ⟨rfl, rfl, rfl, rfl⟩

/-- EPAGE when PROGRAM_FLASH_ISP started at `s` comes to its word `i`: the page of its last word below the boundary. -/
def epageAt (s : State) (i : Nat) : Option Addr :=
  (lastBelow s i).map (fun j => pageOf s.cfg (BitVec.ofNat 32 (transferAddr s (2 * j))))

theorem flashWord_eq (lo hi : Byte) : flashWord lo hi = BitVec.ofNat 16 (256 * hi.toNat + lo.toNat) := by
  rw [← joinBytes_toNat, BitVec.ofNat_toNat, BitVec.setWidth_eq]; rfl

/-- The requests of word `i`, as the block makes them in the state `u` it has reached. -/
theorem wordRequests_eq {s u : State} {data : List Byte} {i : Nat} (hp : 0 < s.cfg.pageSize) (hc : u.cfg = s.cfg)
    (ha : u.addr.toNat = transferAddr s (2 * i)) (hE : u.epage = epageAt s i) :
    wordRequests s data i = if u.addr.toNat < u.cfg.bootBoundary
      then eraseRequests u ++ [.writeFlash u.addr (flashWord (data.getD (2 * i) 0) (data.getD (2 * i + 1) 0))] else [] := by
  have ha' : u.addr = BitVec.ofNat 32 (transferAddr s (2 * i)) := by
    rw [← ha, BitVec.ofNat_toNat, BitVec.setWidth_eq]
  have lt : ∀ k, transferAddr s k < 2 ^ 32 := fun k => (transferAddr_lt s k).trans_le (two_pow_bits_le _)
  have hpage : pageOf u.cfg u.addr
      = BitVec.ofNat 32 (transferAddr s (2 * i) - transferAddr s (2 * i) % s.cfg.pageSize) := by rw [pageOf, ha, hc]
  rw [wordRequests, hc, ha, flashWord_eq]
  by_cases hb : s.cfg.bootBoundary ≤ transferAddr s (2 * i)
  · rw [if_pos hb, if_neg (by omega)]
  · have hlt : transferAddr s (2 * i) < s.cfg.bootBoundary := by omega
    rw [if_neg hb, if_pos hlt, eraseRequests, hE, hpage, ha', epageAt]
    unfold eraseDue
    cases lastBelow s i with
    | none => rfl
    | some j =>
      have e := pageOf_eq_iff (c := s.cfg) hp (lt (2 * j)) (lt (2 * i))
      rw [← hpage, ha', hc]
      simp only [Option.map_some, Option.some.injEq, e, bne_iff_ne, ne_eq, ite_not]

/-- The requests of a command's words do not depend on the EPAGE it found. -/
theorem wordRequests_epage (s : State) (e : Option Addr) (data : List Byte) (k : Nat) :
    wordRequests { s with epage := e } data k = wordRequests s data k := by
  have h : ∀ k, lastBelow { s with epage := e } k = lastBelow s k := by
    intro k
    induction k with
    | zero => rfl
    | succ k ih => unfold lastBelow; rw [ih]; rfl
  unfold wordRequests eraseDue
  rw [h]
  rfl

/-- The requests of the loop, on either port, from word `i` of `data` on. -/
theorem programWords_log {s u t : State} {data rest : List Byte} {i : Nat} (hp : 0 < s.cfg.pageSize)
    (hd : data.drop (2 * i) = rest) (hc : u.cfg = s.cfg) (ha : u.addr.toNat = transferAddr s (2 * i))
    (hE : u.epage = epageAt s i) (h : programWords rest u = .ok t) :
    t.port.log = u.port.log ++ (List.range (rest.length / 2)).flatMap (fun k => wordRequests s data (i + k)) := by
  induction rest using List.twoStepInduction generalizing u i with
  | nil => cases h; simp
  | singleton v => cases h; simp
  | cons_cons lo hi rest ih =>
    rw [programWords] at h
    split at h
    · rename_i u1 h1
      obtain ⟨a1, a2, a3, a4⟩ := programWord_trace h1
      have g : ∀ k : Nat, (data.drop (2 * i))[k]? = (lo :: hi :: rest)[k]? := fun k => by rw [hd]
      have g0 : data.getD (2 * i) 0 = lo := by
        have := g 0; rw [List.getElem?_drop] at this; simpa [List.getD] using congrArg (Option.getD · 0) this
      have g1 : data.getD (2 * i + 1) 0 = hi := by
        have := g 1; rw [List.getElem?_drop] at this; simpa [List.getD] using congrArg (Option.getD · 0) this
      have hE1 : u1.epage = epageAt s (i + 1) := by
        rw [a3, hc, ha, epageAt, lastBelow]
        split
        · rw [Option.map_some, pageOf, pageOf, ha, BitVec.toNat_ofNat, Nat.mod_eq_of_lt
            ((transferAddr_lt s _).trans_le (two_pow_bits_le _))]
        · exact hE
      have e := ih (i := i + 1) (by rw [show 2 * (i + 1) = 2 * i + 2 by omega, ← List.drop_drop, hd]; rfl)
        (a1.trans hc) (by
          rw [a2, wrapAddr_toNat, hc, ha, transferAddr, transferAddr, Nat.mod_add_mod, Nat.add_assoc]; rfl) hE1 h
      rw [e, a4, show (lo :: hi :: rest).length / 2 = rest.length / 2 + 1 by simp only [List.length_cons]; omega,
        List.range_succ_eq_map, List.flatMap_cons, List.flatMap_map, show i + 0 = i from rfl,
        wordRequests_eq (data := data) hp hc ha hE, g0, g1, List.append_assoc]
      simp only [Nat.add_assoc, Nat.add_comm 1, Nat.succ_eq_add_one]
    · cases h

/-- The instance `s'` is `s` in front of the reference port, as far as the block can tell before it reads. -/
structure Alike (s s' : State) : Prop where
  cfg : s'.cfg = { s.cfg with portKind := .reference }
  addr : s'.addr = s.addr
  epage : s'.epage = s.epage
  log : s'.port.log = s.port.log

theorem wrapAddr_portKind (c : Config) (k : PortKind) (n : Nat) : wrapAddr { c with portKind := k } n = wrapAddr c n := rfl

theorem Legal.withReference {c : Config} (h : Legal c) : Legal { c with portKind := .reference } :=
  ⟨h.cap, h.page, h.pageEven, h.bootPage, h.flashPage, h.bootFlash, h.flashSpace, h.eeprom⟩

/-- The loop makes the same requests of either port. -/
theorem programWords_alike {data : List Byte} {s s' t : State} (hl : Legal s.cfg) (he : s.addr.toNat % 2 = 0)
    (r : Alike s s') (h : programWords data s = .ok t) : ∃ t', programWords data s' = .ok t' ∧ Alike t t' := by
  induction data using List.twoStepInduction generalizing s s' with
  | nil => cases h; exact ⟨s', rfl, r⟩
  | singleton v => cases h; exact ⟨s', rfl, r⟩
  | cons_cons lo hi rest ih =>
    rw [programWords] at h
    split at h
    · rename_i s1 h1
      obtain ⟨s1', h1'⟩ := programWord_completes (s := s') lo hi (by rw [r.cfg]; exact hl.withReference)
        (by rw [r.addr]; exact he)
      obtain ⟨a1, a2, a3, a4⟩ := programWord_trace h1
      obtain ⟨b1, b2, b3, b4⟩ := programWord_trace h1'
      have r1 : Alike s1 s1' := by
        refine ⟨by rw [b1, a1, r.cfg], by rw [b2, a2, r.cfg, r.addr]; rfl, ?_, ?_⟩
        · rw [b3, a3, r.cfg, r.addr, r.epage]; rfl
        · rw [b4, a4, eraseRequests, eraseRequests, r.cfg, r.addr, r.epage, r.log]; rfl
      obtain ⟨t', h2, r2⟩ := ih (by rw [a1]; exact hl) (programWord_work h1 he).2 r1 h
      exact ⟨t', by rw [programWords, h1']; exact h2, r2⟩
    · cases h

/-- `s` in front of an empty reference port with the same requests made. -/
def State.withReference (s : State) : State :=
  { s with cfg := { s.cfg with portKind := .reference }, port := { s.port with flash := [] } }

/-- The requests the loop makes on a legal instance, of either port, are those of a loop on the reference port. -/
theorem programWords_requests {data : List Byte} {s t : State} (hl : Legal s.cfg)
    (ha : s.addr.toNat < 2 ^ s.cfg.addrWidth.bits) (he : s.addr.toNat % 2 = 0)
    (hd : data.length % 2 = 0) (hn : data.length ≤ 2 ^ s.cfg.addrWidth.bits) (hret : NoReturn s data.length)
    (hfresh : EpageFresh s data.length) (h : programWords data s = .ok t) :
    ∃ u rs, t.port.log = s.port.log ++ rs ∧ Programmed s.withReference u data rs := by
  obtain ⟨t', h1, r⟩ := programWords_alike (s' := s.withReference) hl he ⟨rfl, rfl, rfl, rfl⟩ h
  obtain ⟨u, rs, h2, h3⟩ := programWords_reference (s := s.withReference) hl.withReference rfl rfl ha he hd hn hret hfresh
  rw [h1] at h2
  cases h2
  exact ⟨t', rs, by rw [← r.log, h3.moved.log]; rfl, h3⟩

end Sys2Proof.Machine
end

