-- ==== Sys2Proof/Tests/Slice0.lean ====
section
/-! SUPPORT. Tests with expected values from the spec's encodings (30_encoding R87) and its test vectors
(95_test_vectors, named in each docstring), and for every statement with hypotheses a witness that meets them. -/

namespace Sys2Proof.Tests

open Sys2Proof.Machine

-- one theorem after another: each kernel evaluation otherwise holds a thread of its own
set_option Elab.async false

/-! ### Well-formedness: an ill-formed term for each check -/

theorem test_wf_known_code : Instr.wellFormed Config.test (.unknown 0x13) = false := by decide

theorem test_wf_other_code : Instr.wellFormed Config.test (.unknown 0x17) = true := by decide

theorem test_wf_lock_disabled :
    Instr.wellFormed { Config.test with lockProgEnabled := false } (.programLockIsp (some 0)) = false := by decide

theorem test_wf_data_without_size : Instr.wellFormed Config.test (.programFlashIsp none [1]) = false := by decide

theorem test_wf_data_beyond_size : Instr.wellFormed Config.test (.programEepromIsp (some 1) [1, 2]) = false := by decide

theorem test_wf_data_beyond_buffer :
    Instr.wellFormed { Config.test with cap := 12 } (.programFlashIsp (some 4) [1, 2, 3]) = false := by decide

theorem test_wf_index_unread : Instr.wellFormed Config.test (.spiMulti (some 0x58) (some 1)) = false := by decide

/-! ### Decoding: payloads written out from 30_encoding R87 -/

theorem test_decode_signOn : decode Config.test [0x01, 0xFF] = .ok .signOn := by decide

theorem test_decode_setParameter : decode Config.test [0x02, 0x98, 0x01] = .ok .setParameter := by decide

theorem test_decode_getParameter : decode Config.test [0x03, 0x92] = .ok (.getParameter (some 0x92)) := by decide

/-- Below MINLEN (41_dispatch R141). -/
theorem test_decode_getParameter_short : decode Config.test [0x03] = .ok (.getParameter none) := by decide

theorem test_decode_loadAddress :
    decode Config.test [0x06, 0x01, 0x23, 0x45, 0x67] = .ok (.loadAddress (some 0x01234567)) := by decide

theorem test_decode_enterProgmode :
    decode Config.test [0x10, 0xC8, 0x64, 0x19, 0x20, 0x00, 0x53, 0x03, 0xAC, 0x53, 0x00, 0x00]
      = .ok .enterProgmodeIsp := by decide

theorem test_decode_leaveProgmode : decode Config.test [0x11, 0x01, 0x01] = .ok .leaveProgmodeIsp := by decide

theorem test_decode_chipErase :
    decode Config.test [0x12, 0x37, 0x00, 0xAC, 0x80, 0x00, 0x00] = .ok .chipEraseIsp := by decide

/-- Size big-endian, data from BUF[10] on, a byte behind the data ignored. -/
theorem test_decode_programFlash :
    decode Config.test [0x13, 0x00, 0x02, 9, 9, 9, 9, 9, 9, 9, 0xA1, 0xB2, 0xC3]
      = .ok (.programFlashIsp (some 2) [0xA1, 0xB2]) := by decide

theorem test_decode_readFlash : decode Config.test [0x14, 0x01, 0x02, 0x20] = .ok (.readFlashIsp (some 0x0102)) := by
  decide

/-- Fewer data bytes than the size. -/
theorem test_decode_programEeprom :
    decode Config.test [0x15, 0x00, 0x03, 0, 0, 0, 0, 0, 0, 0, 0xAA] = .ok (.programEepromIsp (some 3) [0xAA]) := by
  decide

theorem test_decode_readEeprom : decode Config.test [0x16, 0x00, 0x02, 0xA0] = .ok (.readEepromIsp (some 2)) := by
  decide

theorem test_decode_readFuse :
    decode Config.test [0x18, 0x00, 0x58, 0x08, 0x00, 0x00] = .ok (.readFuseIsp (some (0x58, 0x08))) := by decide

theorem test_decode_programLock :
    decode Config.test [0x19, 0xAC, 0xE0, 0x00, 0xCF] = .ok (.programLockIsp (some 0xCF)) := by decide

theorem test_decode_readLock : decode Config.test [0x1A, 0x00, 0x58, 0x00] = .ok .readLockIsp := by decide

theorem test_decode_readSignature :
    decode Config.test [0x1B, 0x00, 0x30, 0x00, 0x01, 0x00] = .ok (.readSignatureIsp (some 0x01)) := by decide

theorem test_decode_spiMulti :
    decode Config.test [0x1D, 0x04, 0x04, 0x00, 0x58, 0x00, 0x07, 0x00] = .ok (.spiMulti (some 0x58) none) := by decide

theorem test_decode_unknown : decode Config.test [0x17, 0, 0, 0, 0] = .ok (.unknown 0x17) := by decide

theorem test_decode_empty : decode Config.test [] = .error .emptyPayload := by decide

/-- The opcode table's words: SPI_MULTI's code in the low byte, zeros behind it. -/
theorem test_decodeTableWord : decodeTableWord 8 0x1D = some (.spiMulti (some 0) none) := by decide

/-! ### One execute step, with the reply the test vectors give -/

/-- After reset: a validated frame with this sequence number and payload, and this ADDR. -/
def ready (seq : Byte) (addr : Addr) (payload : List Byte) : State :=
  { State.reset.withPayload payload with seq := seq, addr := addr }

/-- What the step sent, and ADDR, after a next state. -/
def sent (o : Host.Outcome State Fault Refusal) : Option (List Byte × Nat) :=
  match o with
  | .next t => some (t.tx, t.addr.toNat)
  | .fault _ => none
  | .refused _ => none

/-- The requests made by the step. -/
def requests (o : Host.Outcome State Fault Refusal) : Option (List PortRequest) :=
  match o with
  | .next t => some t.port.log
  | .fault _ => none
  | .refused _ => none

/-- V1. -/
theorem test_signOn : sent (step (ready 1 0 [0x01])) =
    some ([0x1B, 0x01, 0x00, 0x0B, 0x0E, 0x01, 0x00, 0x08, 0x41, 0x56, 0x52, 0x49, 0x53, 0x50, 0x5F, 0x32, 0x74], 0) := by
  decide +kernel

/-- S2. -/
theorem test_setParameter : sent (step (ready 1 0 [0x02, 0x98, 0x01])) =
    some ([0x1B, 0x01, 0x00, 0x02, 0x0E, 0x02, 0x00, 0x14], 0) := by decide +kernel

/-- S3. -/
theorem test_getParameter : sent (step (ready 1 0 [0x03, 0x90])) =
    some ([0x1B, 0x01, 0x00, 0x03, 0x0E, 0x03, 0x00, 0x0F, 0x1B], 0) := by decide +kernel

/-- S4. -/
theorem test_getParameter_short : sent (step (ready 1 0 [0x03])) =
    some ([0x1B, 0x01, 0x00, 0x02, 0x0E, 0x03, 0xC0, 0xD5], 0) := by decide +kernel

/-- M1. -/
theorem test_loadAddress : sent (step (ready 1 0 [0x06, 0x00, 0x00, 0x00, 0x10])) =
    some ([0x1B, 0x01, 0x00, 0x02, 0x0E, 0x06, 0x00, 0x10], 0x20) := by decide +kernel

/-- M2: the top bit is lost, and BUF[1..2] are ignored with W = 16. -/
theorem test_loadAddress_wraps : sent (step (ready 1 0 [0x06, 0x80, 0x12, 0x80, 0x00])) =
    some ([0x1B, 0x01, 0x00, 0x02, 0x0E, 0x06, 0x00, 0x10], 0) := by decide +kernel

/-- S6. -/
theorem test_enterProgmode : sent (step (ready 1 0 [0x10, 0xC8, 0x64])) =
    some ([0x1B, 0x01, 0x00, 0x02, 0x0E, 0x10, 0x00, 0x06], 0) := by decide +kernel

/-- S7. -/
theorem test_leaveProgmode : sent (step (ready 1 0 [0x11, 0x01, 0x01])) =
    some ([0x1B, 0x01, 0x00, 0x02, 0x0E, 0x11, 0x00, 0x07], 0) := by decide +kernel

/-- S7: Exited with LEAVE and EXIT. -/
theorem test_leaveProgmode_exits : (match step (ready 1 0 [0x11]) with
    | .next t => decide (t.control = .exited ∧ t.leave = true ∧ t.exit = true ∧ t.seq = 2)
    | .fault _ => false
    | .refused _ => false) = true := by decide +kernel

/-- S9. -/
theorem test_chipErase : requests (step (ready 1 0 [0x12, 0x37])) = some [] := by decide +kernel

/-- M5: the reply, ADDR. -/
theorem test_programFlash :
    sent (step (ready 1 0x100 [0x13, 0x00, 0x04, 0, 0, 0, 0, 0, 0, 0, 0x11, 0x22, 0x33, 0x44])) =
    some ([0x1B, 0x01, 0x00, 0x02, 0x0E, 0x13, 0x00, 0x05], 0x104) := by decide +kernel

/-- M6: each page erased once, before its first word. -/
theorem test_programFlash_pages :
    requests (step (ready 1 0x1FC [0x13, 0x00, 0x08, 0, 0, 0, 0, 0, 0, 0, 1, 2, 3, 4, 5, 6, 7, 8])) =
    some [.eraseFlash 0x100, .writeFlash 0x1FC 0x0201, .writeFlash 0x1FE 0x0403, .eraseFlash 0x200,
      .writeFlash 0x200 0x0605, .writeFlash 0x202 0x0807] := by decide +kernel

/-- `s` with these bytes in flash and EEPROM. -/
def withMemory (flash eeprom : Memory) (s : State) : State :=
  { s with port := { s.port with flash := flash, eeprom := eeprom } }

/-- V3. -/
theorem test_readFlash :
    sent (step (withMemory [(0x20, 0xDE), (0x21, 0xAD), (0x22, 0xBE), (0x23, 0xEF)] []
      (ready 2 0x20 [0x14, 0x00, 0x04, 0x20]))) =
    some ([0x1B, 0x02, 0x00, 0x07, 0x0E, 0x14, 0x00, 0xDE, 0xAD, 0xBE, 0xEF, 0x00, 0x26], 0x24) := by decide +kernel

/-- M17b: past the flash array. -/
theorem test_readFlash_fault : (match step { ready 2 0x8000 [0x14, 0x00, 0x02, 0x20] with
      cfg := { Config.test with flashSize := 0x8000, bootBoundary := 0x7000 } } with
    | .fault (.portFault r u) => decide (r = .readFlash 0x8000 ∧ u.port.log = [] ∧ u.addr = 0x8000)
    | .next _ => false
    | .fault (.malformedOperand _) => false
    | .fault (.bufferOverrun _) => false
    | .refused _ => false) = true := by decide +kernel

/-- M11. -/
theorem test_programEeprom :
    requests (step (ready 1 0x10 [0x15, 0x00, 0x03, 0, 0, 0, 0, 0, 0, 0, 0xAA, 0xBB, 0xCC])) =
    some [.writeEeprom 0x10 0xAA, .writeEeprom 0x11 0xBB, .writeEeprom 0x12 0xCC] := by decide +kernel

/-- 60_exceptions R245: of two bytes at the last address of EEPROM the first has been written when the second faults. -/
theorem test_programEeprom_fault :
    (match step (ready 1 0x7FF [0x15, 0x00, 0x02, 0, 0, 0, 0, 0, 0, 0, 0xAA, 0xBB]) with
    | .fault (.portFault r u) => decide (r = .writeEeprom 0x800 0xBB ∧ u.port.eeprom = [(0x7FF, 0xAA)]
        ∧ u.port.log = [.writeEeprom 0x7FF 0xAA] ∧ u.addr = 0x800 ∧ u.tx = [])
    | .next _ => false
    | .fault (.malformedOperand _) => false
    | .fault (.bufferOverrun _) => false
    | .refused _ => false) = true := by decide +kernel

/-- M13. -/
theorem test_readEeprom :
    sent (step (withMemory [] [(0x10, 0xAA), (0x11, 0xBB)] (ready 1 0x10 [0x16, 0x00, 0x02, 0xA0]))) =
    some ([0x1B, 0x01, 0x00, 0x05, 0x0E, 0x16, 0x00, 0xAA, 0xBB, 0x00, 0x16], 0x12) := by decide +kernel

/-- 42_memory R174 in the order of 00_scope R14: of two bytes at the last address of EEPROM the first stands in BUF behind
the status when the read of the second faults; BUF[3] is still as received. -/
theorem test_readEeprom_fault :
    (match step (withMemory [] [(0x7FF, 0xEE)] (ready 1 0x7FF [0x16, 0x01, 0x02, 0xA0])) with
    | .fault (.portFault r u) => decide (r = .readEeprom 0x800 ∧ u.buf.take 4 = [0x16, 0x00, 0xEE, 0xA0]
        ∧ u.addr = 0x800 ∧ u.tx = [])
    | .next _ => false
    | .fault (.malformedOperand _) => false
    | .fault (.bufferOverrun _) => false
    | .refused _ => false) = true := by decide +kernel

/-- DV2: the extended fuse. -/
theorem test_readFuse : sent (step (ready 3 0 [0x18, 0x00, 0x50, 0x08, 0x00, 0x00])) =
    some ([0x1B, 0x03, 0x00, 0x04, 0x0E, 0x18, 0x00, 0xFD, 0x00, 0xF7], 0) := by decide +kernel

/-- DV2: 58 00 selects the high fuse. -/
theorem test_readFuse_high : sent (step (ready 4 0 [0x18, 0x00, 0x58, 0x00, 0x00, 0x00])) =
    some ([0x1B, 0x04, 0x00, 0x04, 0x0E, 0x18, 0x00, 0xDC, 0x00, 0xD1], 0) := by decide +kernel

/-- DV4: the reply of three bytes. -/
theorem test_programLock : sent (step (ready 1 0 [0x19, 0xAC, 0xE0, 0x00, 0xCF])) =
    some ([0x1B, 0x01, 0x00, 0x03, 0x0E, 0x19, 0x00, 0x00, 0x0E], 0) := by decide +kernel

/-- DV4: v = (~CF) & 3C = 30. -/
theorem test_programLock_mask : requests (step (ready 1 0 [0x19, 0xAC, 0xE0, 0x00, 0xCF])) =
    some [.programLock 0x30] := by decide +kernel

/-- DV3. -/
theorem test_readLock : sent (step (ready 2 0 [0x1A])) =
    some ([0x1B, 0x02, 0x00, 0x04, 0x0E, 0x1A, 0x00, 0xFF, 0x00, 0xF6], 0) := by decide +kernel

/-- DV1: index 5 reads byte 2. -/
theorem test_readSignature : sent (step (ready 4 0 [0x1B, 0x00, 0x30, 0x00, 0x05, 0x00])) =
    some ([0x1B, 0x04, 0x00, 0x04, 0x0E, 0x1B, 0x00, 0x09, 0x00, 0x07], 0) := by decide +kernel

/-- DV5: read signature byte 2. -/
theorem test_spiMulti : sent (step (ready 1 0 [0x1D, 0x04, 0x04, 0x00, 0x30, 0x00, 0x02, 0x00])) =
    some ([0x1B, 0x01, 0x00, 0x07, 0x0E, 0x1D, 0x00, 0x00, 0x30, 0x00, 0x09, 0x00, 0x37], 0) := by decide +kernel

/-- DV5: any other instruction. -/
theorem test_spiMulti_dummy : sent (step (ready 3 0 [0x1D, 0x04, 0x04, 0x00, 0x58, 0x00, 0x00, 0x00])) =
    some ([0x1B, 0x03, 0x00, 0x07, 0x0E, 0x1D, 0x00, 0x00, 0x58, 0x00, 0x00, 0x00, 0x54], 0) := by decide +kernel

/-- V4. -/
theorem test_unknown : sent (step (ready 1 0 [0x99])) =
    some ([0x1B, 0x01, 0x00, 0x02, 0x0E, 0x99, 0xC0, 0x4F], 0) := by decide +kernel

/-- A table word placed by `withFetchWord` is the instruction the next step runs: PROGRAM_LOCK_ISP of byte 0, the last
request of DV4. -/
theorem test_withFetchWord : requests (step (State.reset.withFetchWord 8 0x19)) = some [.programLock 0x3C] := by
  decide +kernel

/-! ### Single parser steps -/

/-- The parser in a state with one byte to take. -/
def parsing (c : Control) (ck : Byte) (len idx : Half) (b : Byte) : State :=
  { State.reset with control := c, ck := ck, len := len, idx := idx, rx := [.byte b] }

/-- Where the step led, with CK and IDX. -/
def parsed (o : Host.Outcome State Fault Refusal) : Option (Control × Byte × Nat) :=
  match o with
  | .next t => some (t.control, t.ck, t.idx.toNat)
  | .fault _ => none
  | .refused _ => none

/-- P10: 1B is a sequence byte here, neither 1 nor SEQ. -/
theorem test_sequence_start : parsed (step (parsing .awaitSequence 0x1B 0 0 0x1B)) =
    some (.awaitStart, 0x1B, 0) := by decide +kernel

/-- P7: LEN = P_CAP + 1. -/
theorem test_length_too_long : parsed (step (parsing .awaitToken 0 0x011E 0 0x0E)) =
    some (.awaitStart, 0, 0) := by decide +kernel

/-- P8: LEN = P_CAP. -/
theorem test_length_cap : parsed (step (parsing .awaitToken 0 0x011D 0 0x0E)) =
    some (.awaitPayload, 0x0E, 0) := by decide +kernel

/-- V1b: the second of two payload bytes, CK 00. -/
theorem test_payload_last : parsed (step (parsing .awaitPayload 0x17 2 1 0x17)) =
    some (.awaitChecksum, 0x00, 2) := by decide +kernel

/-- P9. -/
theorem test_checksum_bad : parsed (step (parsing .awaitChecksum 0x14 1 1 0x15)) =
    some (.awaitStart, 0x14, 1) := by decide +kernel

/-- 70_reset R276: of the bytes sent in two execute steps the kept ones stay in the order they were sent, and a Timeout is no
byte to lose. -/
theorem test_lost_bytes : dropLost [true, false] (dropLost [false, true, false] [.byte 1, .byte 2, .byte 3, .byte 4]) =
      [.byte 3, .byte 4]
    ∧ dropLost [true, true] [.timeout, .byte 1] = [.timeout] := by decide

/-! ### Witnesses: states and operands that meet the statements' hypotheses -/

/-- The smallest instance: a buffer of 14 bytes, pages of 4, the boundary at 8 in 16 bytes of flash, 4 bytes of EEPROM. -/
def small : Config where
  addrWidth := .w16
  cap := 14
  pageSize := 4
  bootBoundary := 8
  flashSize := 16
  eepromSize := 4
  leaveEnabled := true
  lockProgEnabled := true
  timeoutEnabled := true
  paramTable := [(0x80, 0x05)]
  appEntry := 0
  portKind := .reference

/-- Reset of the small instance. -/
def smallReset : State := State.resetWith small Port.test

/-- The small instance in FrameReady with this ADDR and payload. -/
def small1 (addr : Addr) (payload : List Byte) : State := { smallReset.withPayload payload with addr := addr }

/-- The small instance in a receive state, SEQ 5, with these bytes to take. -/
def smallRx (c : Control) (rx : List RxEvent) : State := { smallReset with control := c, seq := 5, rx := rx }

theorem small_legal : configLegal small = true := by decide

/-! #### Encoding -/

/-- O2, at the largest and the smallest operands of a programming command. -/
theorem witness_DecodeOfEncode : Instr.wellFormed small (.programFlashIsp (some 4) [1, 2, 3, 4]) = true
    ∧ Instr.wellFormed small (.programFlashIsp (some 0) []) = true := by decide

/-- O3, at LEN 1 and LEN P_CAP. -/
theorem witness_DecodedIsWellFormed : configLegal small = true
    ∧ (1 ≤ [(0x99 : Byte)].length ∧ [(0x99 : Byte)].length ≤ small.maxLen)
    ∧ (List.replicate 14 (0x13 : Byte)).length = small.maxLen := by decide

/-- O4: another reading of the unread bytes. -/
theorem witness_UnreadBytesIgnored :
    decode small [0x16, 0x00, 0x02, 0xA0] = .ok (.readEepromIsp (some 2)) ∧ isComplete (.readEepromIsp (some 2))
      ∧ ∀ k ∈ readIndices (.readEepromIsp (some 2)), [(0x16 : Byte), 0x00, 0x02][k]? = [(0x16 : Byte), 0x00, 0x02, 0xA0][k]? :=
  ⟨by decide, by simp [isComplete], by decide⟩

/-! #### The step -/

/-- O6: without losses, and with one of the two bytes sent meanwhile lost. -/
theorem witness_StepRunsDecodedCommand : configLegal small = true ∧ (small1 0 [0x01]).control = .frameReady
    ∧ decode small ((small1 0 [0x01]).buf.take (small1 0 [0x01]).len.toNat) = .ok .signOn
    ∧ (small1 0 [0x01]).losses = []
    ∧ { small1 0 [0x01] with rx := [.byte 7, .byte 8], losses := [[false, true]] }.losses = [false, true] :: [] := by
  decide

/-- O7: each constraint of 00_scope R9 and R10 broken alone by the least step. -/
theorem witness_IllegalConfigurationRefused :
    configLegal { small with cap := 11 } = false ∧ configLegal { small with pageSize := 1 } = false
      ∧ configLegal { small with pageSize := 6, bootBoundary := 6, flashSize := 12 } = false
      ∧ configLegal { small with bootBoundary := 6 } = false ∧ configLegal { small with flashSize := 10 } = false
      ∧ configLegal { small with flashSize := 4 } = false ∧ configLegal { small with flashSize := 0x10004 } = false
      ∧ configLegal { small with eepromSize := 0 } = false ∧ configLegal { small with cap := 12, eepromSize := 1 } = true := by
  decide

/-- O8: waiting, and Exited. -/
theorem witness_NoEnabledStepKeepsState :
    configLegal small = true ∧ smallReset.Waiting ∧ (smallRx .exited [.byte 0x1B]).control = .exited :=
  ⟨by decide, ⟨trivial, rfl⟩, rfl⟩

/-! #### The parser: each rule with an accepted and a rejected byte -/

/-- O9 to O15: the state and its input, for each rule. -/
theorem witness_receive_states (c : Control) (b : Byte) :
    configLegal (smallRx c [.byte b]).cfg = true ∧ (smallRx c [.byte b]).control = c
      ∧ (smallRx c [.byte b]).rx = .byte b :: [] := ⟨small_legal, rfl, rfl⟩

/-- O9: START, and the byte below it. -/
theorem witness_AwaitStartRule : (0x1B : Byte) = 0x1B ∧ (0x1A : Byte) ≠ 0x1B := by decide

/-- O10: 1, SEQ, and neither. -/
theorem witness_AwaitSequenceRule : (5 : Byte) = (smallRx .awaitSequence []).seq ∧ (4 : Byte) ≠ 1
    ∧ (4 : Byte) ≠ (smallRx .awaitSequence []).seq := by decide

/-- O11: one byte in each of the two states, and two bytes in a row, at their largest. -/
theorem witness_LengthBytesRule : configLegal small = true
    ∧ (smallRx .awaitLengthHigh [.byte 0xFF]).rx = .byte 0xFF :: []
    ∧ (smallRx .awaitLengthLow [.byte 0xFF]).control = .awaitLengthLow
    ∧ (smallRx .awaitLengthHigh [.byte 0xFF, .byte 0xFF]).control = .awaitLengthHigh
    ∧ (smallRx .awaitLengthHigh [.byte 0xFF, .byte 0xFF]).rx = .byte 0xFF :: .byte 0xFF :: [] := by decide

/-- O12: LEN 1 and LEN P_CAP accepted; LEN 0, LEN P_CAP + 1 and a wrong token rejected. -/
theorem witness_AwaitTokenRule : (1 ≤ (1 : Half).toNat ∧ (14 : Half).toNat ≤ small.cap) ∧ ¬ 1 ≤ (0 : Half).toNat
    ∧ ¬ (15 : Half).toNat ≤ small.cap ∧ (0x0F : Byte) ≠ 0x0E := by decide

/-- O13: the last index inside the buffer and the first outside. -/
theorem witness_AwaitPayloadRule : (13 : Half).toNat < small.cap ∧ small.cap ≤ (14 : Half).toNat := by decide

/-- O14: CK is 0 here. -/
theorem witness_AwaitChecksumRule : (0 : Byte) = (smallRx .awaitChecksum []).ck ∧ (1 : Byte) ≠ (smallRx .awaitChecksum []).ck := by
  decide

/-- O15: with the timeout and without. -/
theorem witness_TimeoutRule : configLegal small = true ∧ configLegal { small with timeoutEnabled := false } = true
    ∧ small.timeoutEnabled = true ∧ (smallRx .awaitPayload [.timeout]).rx = .timeout :: []
    ∧ (smallRx .awaitPayload [.timeout]).control = .awaitPayload := by decide

/-- O16: SIGN_ON's frame of V1, and a payload of P_CAP bytes. -/
theorem witness_ValidFrameReachesFrameReady :
    configLegal small = true ∧ smallReset.buf.length = small.cap ∧ smallReset.control = .awaitStart
      ∧ 1 ≤ [(0x01 : Byte)].length ∧ [(0x01 : Byte)].length ≤ small.maxLen
      ∧ (List.replicate 14 (0 : Byte)).length ≤ small.maxLen
      ∧ encodeFrame 1 [0x01] = [0x1B, 0x01, 0x00, 0x01, 0x0E, 0x01, 0x14] := by decide

/-- O17: P9's checksum. -/
theorem witness_CorruptChecksumIsSilent :
    (0x15 : Byte) ≠ xorAll (frameHeader 1 (BitVec.ofNat 16 [(0x01 : Byte)].length) ++ [0x01]) := by decide

/-- The invariant holds in a waiting, a FrameReady and an AwaitChecksum state. -/
theorem witness_Inv : Inv smallReset ∧ Inv (small1 2 [0x01])
    ∧ Inv { smallRx .awaitChecksum [.byte 0x10] with len := 1, idx := 1, ck := 0x10 } := by
  refine ⟨⟨?_, ?_, ?_, ?_, ?_, ?_, ?_, ?_, ?_, ?_, ?_⟩, ⟨?_, ?_, ?_, ?_, ?_, ?_, ?_, ?_, ?_, ?_, ?_⟩,
    ⟨?_, ?_, ?_, ?_, ?_, ?_, ?_, ?_, ?_, ?_, ?_⟩⟩
  any_goals decide
  · trivial
  · exact (by decide : 1 ≤ (small1 2 [0x01]).len.toNat ∧ (small1 2 [0x01]).len.toNat ≤ small.cap)
  · exact (by decide : 1 ≤ (1 : Half).toNat ∧ (1 : Half).toNat ≤ small.cap ∧ (1 : Half) = 1)

/-- O18, O19: AwaitChecksum with SEQ 5 and the payload byte 01 in BUF: CK = 10, the byte 10 comes, and the step enters
FrameReady. -/
def covered : State :=
  { smallRx .awaitChecksum [.byte 0x10] with len := 1, idx := 1, ck := 0x10, buf := 0x01 :: List.replicate 13 0 }

theorem witness_ChecksumCoverageKept : ckCoversFrame covered ∧ covered.control ≠ .frameReady := by
  refine ⟨?_, by decide⟩
  exact (by decide : covered.ck = xorAll (frameHeader covered.seq covered.len ++ covered.payload))

theorem witness_ReadyFrameChecksumLaw : ∃ t, step covered = .next t ∧ t.control = .frameReady := ⟨_, rfl, rfl⟩

/-- O20, O21: a framing error; a receive step, an execute step that loses a byte, Exited. -/
theorem witness_ReceiveStepsAreSilent : ∃ t, step (smallRx .awaitStart [.byte 0x1A]) = .next t := ⟨_, rfl⟩

theorem witness_EachEventConsumedOnce : (∃ t, step (smallRx .awaitStart [.byte 0x1B, .byte 1]) = .next t)
    ∧ (∃ t, step { small1 0 [0x02] with rx := [.byte 3, .byte 4, .byte 5], losses := [[false, true]] } = .next t
      ∧ t.rx = [.byte 3, .byte 5])
    ∧ ∃ t, step (smallRx .exited [.byte 3]) = .next t := ⟨⟨_, rfl⟩, ⟨_, rfl, rfl⟩, _, rfl⟩

/-- O23. -/
theorem witness_InvariantAtReset : configLegal small = true ∧ Port.test.flash.wf = true ∧ Port.test.eeprom.wf = true
    ∧ (∀ x ∈ Port.test.flash, x.1 < small.flashSize) ∧ ∀ x ∈ Port.test.eeprom, x.1 < small.eepromSize := by decide

/-- O24, O25: a step of a state with the invariant. -/
theorem witness_InvariantKept : ∃ t, step (small1 2 [0x01]) = .next t := ⟨_, rfl⟩

/-- GET_PARAMETER without its id, under the `fault` policy. -/
def faultState : State := { small1 2 [0x03] with cfg := { small with malformedPolicy := .fault } }

/-- READ_EEPROM_ISP of the byte behind the array. -/
def outsideState : State := small1 4 [0x16, 0x00, 0x01]

/-- O25: MalformedOperand and PortFault, each from a state with the invariant. -/
theorem witness_OnlyNamedStops : step faultState = .fault (.malformedOperand 0x03) ∧ Inv faultState
    ∧ (∃ u, step outsideState = .fault (.portFault (.readEeprom 4) u)) ∧ Inv outsideState
    ∧ requestInRange small (.readEeprom 4) = false := by
  refine ⟨rfl, ⟨?_, ?_, ?_, ?_, ?_, ?_, ?_, ?_, ?_, ?_, ?_⟩, ⟨_, rfl⟩, ⟨?_, ?_, ?_, ?_, ?_, ?_, ?_, ?_, ?_, ?_, ?_⟩, by decide⟩
  any_goals decide
  · exact (by decide : 1 ≤ faultState.len.toNat ∧ faultState.len.toNat ≤ small.cap)
  · exact (by decide : 1 ≤ outsideState.len.toNat ∧ outsideState.len.toNat ≤ small.cap)

/-! #### Commands -/

/-- O26 to O29: a command that completes. -/
theorem witness_command : configLegal small = true ∧ small.cap ≤ 0xFFFF ∧ (small1 0 [0x02]).buf ≠ []
    ∧ ∃ t, exec .setParameter (small1 0 [0x02]) = .next t := ⟨by decide, by decide, by decide, _, rfl⟩

/-- O27: a parser that takes the reply 1B 01 00 02 0E 02 00 14 of S2. -/
theorem witness_ReplyIsAcceptedByParser :
    (∃ t, exec .setParameter (small1 0 [0x02]) = .next t
      ∧ t.tx = (small1 0 [0x02]).tx ++ [0x1B, 0x01, 0x00, 0x02, 0x0E, 0x02, 0x00, 0x14])
    ∧ (smallRx .awaitStart []).cfg = (small1 0 [0x02]).cfg ∧ (smallRx .awaitStart []).buf.length = small.cap
    ∧ (small1 0 [0x02]).seq = 1 := ⟨⟨_, rfl, by decide⟩, by decide, by decide, by decide⟩

/-- Every command code may stand at BUF[0]. -/
theorem witness_buffer_head : ∀ code ∈ commandCodes, (small1 0 [code]).buf.head? = some code := by decide

/-- O32: an id in the table, and one that is not. -/
theorem witness_GetParameterReplies : small.paramTable.lookup 0x80 = some 0x05 ∧ small.paramTable.lookup 0x81 = none := by
  decide

/-- O33: LEAVE enabled and not. -/
theorem witness_LeaveProgmodeReplies : (small1 0 [0x11]).cfg.leaveEnabled = true
    ∧ { small with leaveEnabled := false }.leaveEnabled = false ∧ (small1 0 [0x11]).buf.head? = some 0x11 := by decide

/-- O34: a code that is no command's. -/
theorem witness_UnknownRepliesFailed : (small1 0 [0x99]).buf.head? = some 0x99 := by decide

/-- O35, O36: malformed and good operands under each policy; the size at its limits. -/
theorem witness_malformed : isMalformed small 0 (.readFlashIsp (some 12)) ∧ ¬ isMalformed small 0 (.readFlashIsp (some 10))
    ∧ isMalformed small 1 (.programFlashIsp (some 2) [1, 2]) ∧ isMalformed small 0 (.programEepromIsp (some 2) [1])
    ∧ small.malformedPolicy = .replyFailed ∧ (small1 0 [0x14, 0, 12]).buf.head? = some (commandCode (.readFlashIsp (some 12)))
    ∧ { small with malformedPolicy := .fault }.malformedPolicy = .fault := by
  simp only [isMalformed]
  decide

/-- O37: both widths; two words with the same low 16 bits. -/
theorem witness_LoadAddressSetsAddr : (small1 0 [0x06]).cfg.addrWidth = .w16
    ∧ (0x80120010 : BitVec 32).toNat % 2 ^ 16 = (0x00000010 : BitVec 32).toNat % 2 ^ 16
    ∧ configLegal { small with addrWidth := .w32 } = true ∧ (small1 0 [0x06]).buf.head? = some 0x06 := by decide

/-- Four bytes from ADDR 6: one word on the last page below the boundary, one word above it. -/
def flashState : State := small1 6 [0x13, 0x00, 0x04, 0, 0, 0, 0, 0, 0, 0, 1, 2, 3, 4]

/-- O38 to O40: the hypotheses, and a next state. -/
theorem witness_ProgramFlash : configLegal flashState.cfg = true ∧ flashState.cfg.portKind = .reference
    ∧ flashState.port.flash.wf = true ∧ flashState.addr.toNat < 2 ^ flashState.cfg.addrWidth.bits
    ∧ ¬ isMalformed flashState.cfg flashState.addr (.programFlashIsp (some 4) [1, 2, 3, 4])
    ∧ flashState.addr.toNat % flashState.cfg.pageSize + (4 : Half).toNat ≤ 2 ^ flashState.cfg.addrWidth.bits
    ∧ flashState.buf.head? = some 0x13 := by
  simp only [isMalformed]
  decide

theorem witness_ProgramFlash_runs : ∃ t, exec (.programFlashIsp (some 4) [1, 2, 3, 4]) flashState = .next t := ⟨_, rfl⟩

/-- O39: ADDR 6 is below the boundary, ADDR 8 is not, and byte 4 is an untransferred byte of the page written. -/
theorem witness_ProgramFlashContents : transferAddr flashState 0 < small.bootBoundary
    ∧ ¬ transferAddr flashState 2 < small.bootBoundary
    ∧ transferAddr flashState 0 / small.pageSize = 4 / small.pageSize ∧ ∀ k < 4, transferAddr flashState k ≠ 4 := by decide

/-- O40: the requests of M6, and of four words around the boundary of the small instance, the last two behind a wrap of ADDR:
page 0 is a new page (42_memory R171). -/
theorem witness_wordRequests :
    (List.range 4).flatMap (wordRequests (ready 1 0x1FC [0x13]) [1, 2, 3, 4, 5, 6, 7, 8]) =
      [.eraseFlash 0x100, .writeFlash 0x1FC 0x0201, .writeFlash 0x1FE 0x0403, .eraseFlash 0x200,
        .writeFlash 0x200 0x0605, .writeFlash 0x202 0x0807]
    ∧ (List.range 2).flatMap (wordRequests flashState [1, 2, 3, 4]) = [.eraseFlash 4, .writeFlash 6 0x0201]
    ∧ (List.range 2).flatMap (wordRequests (small1 0xFFFE [0x13]) [1, 2, 3, 4]) = [.eraseFlash 0, .writeFlash 0 0x0403] := by
  decide

/-- O41: at the boundary, and ending exactly at 2^W. -/
theorem witness_ProgramFlashAboveBoundary : small.bootBoundary ≤ (small1 8 [0x13]).addr.toNat
    ∧ (small1 8 [0x13]).addr.toNat + (4 : Half).toNat ≤ 2 ^ small.addrWidth.bits
    ∧ (small1 0xFFFC [0x13]).addr.toNat + (4 : Half).toNat = 2 ^ small.addrWidth.bits
    ∧ ¬ isMalformed small 8 (.programFlashIsp (some 4) [1, 2, 3, 4]) := by
  simp only [isMalformed]
  decide

/-- The small instance in front of the port of free answers. -/
def drawing (s : State) : State := { s with cfg := { small with portKind := .draws } }

/-- O42 to O44 under draws: commands far outside the reference port's arrays complete. -/
theorem witness_draws : (drawing (small1 0xFFFE [0x14])).cfg.portKind ≠ .reference
    ∧ (∃ t, exec (.readFlashIsp (some 4)) (drawing (small1 0xFFFE [0x14])) = .next t)
    ∧ (∃ t, exec (.programEepromIsp (some 2) [1, 2]) (drawing (small1 0xFFFF [0x15])) = .next t)
    ∧ ∃ t, exec (.readEepromIsp (some 2)) (drawing (small1 0xFFFF [0x16])) = .next t :=
  ⟨by decide, ⟨_, rfl⟩, ⟨_, rfl⟩, _, rfl⟩

/-- O42: the last word of flash, read from an odd ADDR too. -/
theorem witness_ReadFlashReplies : ¬ isMalformed small 14 (.readFlashIsp (some 2))
    ∧ (∀ j < (2 : Half).toNat / 2, transferAddr (small1 14 [0x14]) (2 * j) + 1 < small.flashSize)
    ∧ (∀ j < (2 : Half).toNat / 2, transferAddr (small1 13 [0x14]) (2 * j) + 1 < small.flashSize)
    ∧ (small1 14 [0x14]).buf.head? = some 0x14 := by
  simp only [isMalformed]
  decide

/-- O43, O44: the last byte of EEPROM. -/
theorem witness_Eeprom : ¬ isMalformed small 3 (.programEepromIsp (some 1) [0xAA])
    ∧ ¬ isMalformed small 3 (.readEepromIsp (some 1)) ∧ (small1 3 [0x15]).port.eeprom.wf = true
    ∧ (∀ k < (1 : Half).toNat, transferAddr (small1 3 [0x15]) k < small.eepromSize)
    ∧ (small1 3 [0x15]).buf.head? = some 0x15 ∧ (small1 3 [0x16]).buf.head? = some 0x16 := by
  simp only [isMalformed]
  decide

/-- O45: the byte behind the last one of each array; the bytes before it are inside. -/
theorem witness_PortFault : small.eepromSize ≤ transferAddr (small1 3 [0x16]) 1
    ∧ (∀ j < 1, transferAddr (small1 3 [0x16]) j < small.eepromSize)
    ∧ ¬ isMalformed small 3 (.readEepromIsp (some 2)) ∧ ¬ isMalformed small 3 (.programEepromIsp (some 2) [1, 2])
    ∧ ¬ isMalformed small 14 (.readFlashIsp (some 4)) ∧ small.flashSize ≤ transferAddr (small1 14 [0x14]) 2 + 1
    ∧ ∀ j < 2, j % 2 = 0 → transferAddr (small1 14 [0x14]) j + 1 < small.flashSize := by
  simp only [isMalformed]
  decide

/-- O46: two bytes at 6, up to the boundary, and a read of the same range in the state the programming left. -/
theorem witness_FlashRoundTrip : ¬ isMalformed small 6 (.programFlashIsp (some 2) [1, 2])
    ∧ ¬ isMalformed small 6 (.readFlashIsp (some 2))
    ∧ (small1 6 [0x13]).addr.toNat + (2 : Half).toNat ≤ small.bootBoundary := by
  simp only [isMalformed]
  decide

theorem witness_FlashRoundTrip_runs : ∃ t v, exec (.programFlashIsp (some 2) [1, 2]) (small1 6 [0x13]) = .next t
    ∧ exec (.readFlashIsp (some 2)) { (small1 6 [0x14]) with port := t.port } = .next v := ⟨_, _, rfl, rfl⟩

/-- O47: the execute step of a read of two bytes, a step of the parser, then a malformed command by itself. -/
theorem witness_AddressContinuity : ∃ t, Transfers (small1 6 [0x14, 0x00, 0x02]) 2 t := by
  refine ⟨_, .transfer (.readFlashIsp (some 2)) _ _ _ 0 ?_ (by simp) (.inr ⟨rfl, by decide, rfl⟩)
    (.receive _ _ _ 0 (by decide) rfl (.failed (.getParameter none) _ _ _ 0 ?_ (.inl rfl) (.done _)))⟩
  · simp only [isMalformed]; decide
  · rfl

/-- O48. -/
theorem witness_AnsweringPortNeverStops : { small with portKind := .draws }.portKind = .draws
    ∧ { small with portKind := .draws }.malformedPolicy = .replyFailed := by decide

/-- O49: the port performs a write of the last word, of the last byte and an erase of the last page. -/
theorem witness_PortReadsLastWrite : (∃ q, Port.test.perform small (.writeFlash 14 0x0201) = .ok q)
    ∧ (∃ q, Port.test.perform small (.writeEeprom 3 0xAA) = .ok q)
    ∧ ∃ q, Port.test.perform small (.eraseFlash 12) = .ok q := ⟨⟨_, rfl⟩, ⟨_, rfl⟩, _, rfl⟩

/-- O50 to O54: BUF[0] holds the command's code; SPI_MULTI's other instruction is not 0x30. -/
theorem witness_device : (small1 0 [0x1B]).buf.head? = some 0x1B ∧ (small1 0 [0x18]).buf.head? = some 0x18
    ∧ (small1 0 [0x1A]).buf.head? = some 0x1A ∧ (small1 0 [0x19]).buf.head? = some 0x19
    ∧ (small1 0 [0x1D]).buf.head? = some 0x1D ∧ (0x31 : Byte) ≠ 0x30 := by decide

/-! #### Whole-machine rules -/

/-- O55, O56: a step that programs flash, and one that ends in PortFault behind a write. -/
theorem witness_SelfProtection : (∃ t, step flashState = .next t ∧ t.port.log ≠ [])
    ∧ ∃ bad u, step (small1 3 [0x15, 0, 2, 0, 0, 0, 0, 0, 0, 0, 1, 2]) = .fault (.portFault bad u) ∧ u.port.log ≠ [] :=
  ⟨⟨_, rfl, by decide⟩, _, _, rfl, by decide⟩

/-- O57: the session ends by a timeout, and by LEAVE_PROGMODE_ISP. -/
theorem witness_SessionEnds : (∃ t, step (smallRx .awaitStart [.timeout]) = .next t ∧ t.control = .exited)
    ∧ ∃ t, step (small1 0 [0x11]) = .next t ∧ t.control = .exited := ⟨⟨_, rfl, rfl⟩, _, rfl, rfl⟩

/-- O58: SEQ 2, so that the repeated byte is neither 1 nor the new SEQ 3. -/
theorem witness_ExecutedFrameSentAgain : ∃ t, exec .signOn { small1 0 [0x01] with seq := 2 } = .next t
    ∧ { small1 0 [0x01] with seq := 2 }.seq ≠ 1 ∧ t.leave = false ∧ t.seq = 3 := ⟨_, rfl, by decide, by decide, by decide⟩

/-- O59: MINLEN of every row of 30_encoding R87. -/
theorem witness_minLen : commandCodes.map (fun code => minLen [code]) = [1, 1, 2, 5, 1, 1, 1, 3, 3, 3, 3, 4, 5, 1, 5, 5]
    ∧ minLen [0x1D, 0, 0, 0, 0x30] = 7 ∧ minLen [0x1D, 0, 0, 0, 0x31] = 5 ∧ minLen [0x17] = 1 := by decide

/-- O59: a payload one byte short of its operands, and one that holds them; data one byte short of its size. -/
theorem witness_OperandsAbsentBelowMinLen :
    decode small [0x06, 0, 0, 0] = .ok (.loadAddress none) ∧ decode small [0x06, 0, 0, 0, 0] = .ok (.loadAddress (some 0))
      ∧ decode small [0x1D, 0, 0, 0, 0x30, 0] = .ok (.spiMulti (some 0x30) none)
      ∧ decode small [0x13, 0, 2, 0, 0, 0, 0, 0, 0, 0, 1] = .ok (.programFlashIsp (some 2) [1])
      ∧ sizeNumber [0x13, 0x01, 0x02] = 258 ∧ small.lockProgEnabled = true := by decide

/-- O60: a malformed command, LOAD_ADDRESS, and a transfer. -/
theorem witness_AddressAfterExecuteStep : (∃ t, step (small1 6 [0x03]) = .next t ∧ t.addr = 6)
    ∧ (∃ t, step (small1 6 [0x06, 0, 0, 0, 2]) = .next t ∧ t.addr = 4)
    ∧ (∃ t, step (small1 6 [0x14, 0, 2]) = .next t ∧ t.addr = 8)
    ∧ decode small (small1 6 [0x14, 0, 2]).payload = .ok (.readFlashIsp (some 2)) :=
  ⟨⟨_, rfl, by decide⟩, ⟨_, rfl, by decide⟩, ⟨_, rfl, by decide⟩, by decide⟩

end Sys2Proof.Tests
end

section
/-! SUPPORT. What parameters, reset and the ways a step can end come to: the scope of the model (00_scope R9, R10, R16). -/

namespace Sys2Proof.Machine

/-! ### The parameters 00_scope R9 and R10 admit -/

/-- The check of `isPowerOfTwo` against what a power of two is. -/
theorem two_pow_log2_eq_iff (n : Nat) : 2 ^ Nat.log2 n = n ↔ ∃ k, n = 2 ^ k := by
  constructor
  · intro h; exact ⟨_, h.symm⟩
  · rintro ⟨k, rfl⟩; rw [Nat.log2_two_pow]

/-- The parameters that are not legal, one disjunct per legal value or constraint broken (00_scope R9, R10). -/
theorem configLegal_eq_false_iff (c : Config) :
    configLegal c = false ↔
      c.cap < 12 ∨ c.pageSize < 2 ∨ (∀ k, c.pageSize ≠ 2 ^ k) ∨ c.bootBoundary % c.pageSize ≠ 0
        ∨ c.flashSize % c.pageSize ≠ 0 ∨ c.flashSize < c.bootBoundary ∨ 2 ^ c.addrWidth.bits < c.flashSize
        ∨ c.eepromSize = 0 := by
  rw [← Bool.not_eq_true, configLegal_iff, two_pow_log2_eq_iff]
  simp only [not_and_or, not_le, not_exists, Nat.lt_one_iff, ne_eq]

/-! ### Every ending of a step -/

/-- How a step ends: the next state, or one of the faults and refusals, each with what it takes. -/
inductive StepEnding (s : State) : Prop where
  | next (t : State) (h : step s = .next t)
  | illegalConfiguration (illegal : configLegal s.cfg = false) (h : step s = .refused .illegalConfiguration)
  | bufferOverrun (control : s.control = .awaitPayload) (index : s.cfg.cap ≤ s.idx.toNat)
      (h : step s = .fault (.bufferOverrun s.idx.toNat))
  | timeoutNotEnabled (input : .timeout ∈ s.rx) (disabled : s.cfg.timeoutEnabled = false)
      (h : step s = .refused .timeoutNotEnabled)
  | emptyPayload (control : s.control = .frameReady) (empty : s.payload = []) (h : step s = .refused .emptyPayload)
  | malformedOperand (control : s.control = .frameReady) (policy : s.cfg.malformedPolicy = .fault) (cmd : Byte)
      (h : step s = .fault (.malformedOperand cmd))
  | portFault (control : s.control = .frameReady) (r : PortRequest) (u : State) (bad : BadRequest s.cfg r)
      (silent : u.tx = s.tx) (h : step s = .fault (.portFault r u))

/-- A byte is taken by the rule of the state; only AwaitPayload can stop, with IDX outside the buffer (log entry 14). -/
theorem receiveByte_ending (b : Byte) (s : State) :
    (∃ t, receiveByte b s = .next t)
      ∨ (s.control = .awaitPayload ∧ s.cfg.cap ≤ s.idx.toNat
          ∧ receiveByte b s = .fault (.bufferOverrun s.idx.toNat)) := by
  cases hc : s.control with
  | awaitPayload =>
    by_cases hi : s.idx.toNat < s.cfg.cap
    · exact .inl ⟨_, by simp only [receiveByte, hc, awaitPayloadByte, if_pos hi]; rfl⟩
    · exact .inr ⟨rfl, by omega, by simp only [receiveByte, hc, awaitPayloadByte, if_neg hi]⟩
  | awaitStart => left; simp only [receiveByte, hc, awaitStartByte]; split <;> exact ⟨_, rfl⟩
  | awaitSequence => left; simp only [receiveByte, hc, awaitSequenceByte]; split <;> exact ⟨_, rfl⟩
  | awaitToken => left; simp only [receiveByte, hc, awaitTokenByte]; split <;> exact ⟨_, rfl⟩
  | awaitChecksum => left; simp only [receiveByte, hc, awaitChecksumByte]; split <;> exact ⟨_, rfl⟩
  | awaitLengthHigh => exact .inl ⟨_, by simp only [receiveByte, hc, awaitLengthHighByte]; rfl⟩
  | awaitLengthLow => exact .inl ⟨_, by simp only [receiveByte, hc, awaitLengthLowByte]; rfl⟩
  | frameReady => exact .inl ⟨_, by simp only [receiveByte, hc]; rfl⟩
  | exited => exact .inl ⟨_, by simp only [receiveByte, hc]; rfl⟩

/-- PortFault names a request the port cannot perform, and nothing was sent before it (60_exceptions R245). -/
theorem PortStop.silent {s : State} {f : Fault} (h : PortStop s f) :
    ∃ r u, f = .portFault r u ∧ BadRequest s.cfg r ∧ u.tx = s.tx := by
  obtain ⟨r, u, bs, rfl, work, bad, -⟩ := h
  exact ⟨r, _, rfl, bad, work.prepared.tx⟩

/-- A step of a legal configuration in a receive state: its input is exhausted, or its next event is a byte or a Timeout. -/
theorem stepEnding_of_receiving {s : State} (hs : step s = receiveStep s) : StepEnding s := by
  match hx : s.rx with
  | [] => exact .next s (by rw [hs, receiveStep, hx])
  | .byte b :: rest =>
    have he : step s = receiveByte b { s with rx := rest } := by rw [hs, receiveStep, hx]
    rcases receiveByte_ending b { s with rx := rest } with ⟨t, h⟩ | ⟨hc, hi, h⟩
    · exact .next t (he.trans h)
    · exact .bufferOverrun hc hi (he.trans h)
  | .timeout :: rest =>
    have he : step s = timeoutEvent { s with rx := rest } := by rw [hs, receiveStep, hx]
    cases ht : s.cfg.timeoutEnabled with
    | true => exact .next _ (he.trans (if_pos ht))
    | false => exact .timeoutNotEnabled (by simp [hx]) ht (he.trans (if_neg (by simp [ht])))

/-- A step of a legal configuration in FrameReady ends as its command does. -/
theorem stepEnding_of_frameReady {s : State} (hc : s.control = .frameReady) (hs : step s = executeStep s.loseBytes) :
    StepEnding s := by
  match hp : s.payload with
  | [] => exact .emptyPayload hc hp (by simp [hs, executeStep, hp, decode])
  | code :: rest =>
    have he : step s = exec (decodeCommand s.cfg code (code :: rest)) s.loseBytes := by
      simp [hs, executeStep, hp, decode]
    cases exec_ending (decodeCommand s.cfg code (code :: rest)) s.loseBytes with
    | completes t h => exact .next t (he.trans h)
    | malformed cmd policy h => exact .malformedOperand hc (by simpa using policy) cmd (he.trans h)
    | portStop f stop h =>
      obtain ⟨r, u, rfl, bad, silent⟩ := stop.silent
      exact .portFault hc r u (by simpa using bad) (by simpa using silent) (he.trans h)

/-- Every step ends in one of these ways. -/
theorem step_ending (s : State) : StepEnding s := by
  cases hl : configLegal s.cfg with
  | false => exact .illegalConfiguration hl (by simp [step, instanceStep, hl])
  | true =>
    have hs := step_of_legal hl
    rcases Control.cases s.control with hc | hc | hc
    · exact stepEnding_of_receiving (hs.trans (blockStep_receiving hc))
    · exact stepEnding_of_frameReady hc (hs.trans (blockStep_frameReady hc))
    · exact .next s (hs.trans (blockStep_exited hc))

/-- The refusal of a configuration is raised for no other reason (log entry 12). -/
theorem step_eq_refused_illegalConfiguration_iff (s : State) :
    step s = .refused .illegalConfiguration ↔ configLegal s.cfg = false := by
  constructor
  · intro h
    cases step_ending s with
    | illegalConfiguration illegal _ => exact illegal
    | _ => simp_all
  · intro h
    simp [step, instanceStep, h]

/-! ### What the invariant says of the payload and its index -/

/-- A frame that is ready has a payload: LEN is at least 1, and the buffer has P_CAP bytes (40_frame_parser R115). -/
theorem Inv.payload_ne_nil {s : State} (inv : Inv s) (hc : s.control = .frameReady) : s.payload ≠ [] := by
  have hlen : 1 ≤ s.len.toNat ∧ s.len.toNat ≤ s.cfg.cap := by simpa [lengthsOk, hc] using inv.lengths
  have hlength : s.payload.length = s.len.toNat := by
    rw [State.payload, List.length_take, inv.buffer, Nat.min_eq_left hlen.2]
  exact List.ne_nil_of_length_pos (by omega)

/-- IDX lies within the buffer while the payload comes (40_frame_parser R116). -/
theorem Inv.idx_lt_cap {s : State} (inv : Inv s) (hc : s.control = .awaitPayload) : s.idx.toNat < s.cfg.cap := by
  have h : 1 ≤ s.len.toNat ∧ s.len.toNat ≤ s.cfg.cap ∧ s.idx.toNat < s.len.toNat := by
    simpa [lengthsOk, hc] using inv.lengths
  omega

/-! ### Reset -/

/-- Reset of a legal configuration in front of canonical memories that fit (70_reset R270, R271). -/
theorem inv_resetWith {c : Config} {p : Port} (legal : configLegal c = true) (flashForm : p.flash.wf = true)
    (eepromForm : p.eeprom.wf = true) (flashFits : ∀ x ∈ p.flash, x.1 < c.flashSize)
    (eepromFits : ∀ x ∈ p.eeprom, x.1 < c.eepromSize) : Inv (State.resetWith c p) where
  legal := legal
  buffer := List.length_replicate
  address := two_pow_bits_pos _
  flashForm := flashForm
  flashFits := flashFits
  eepromForm := eepromForm
  eepromFits := eepromFits
  leaveExit := rfl
  exitControl := by simp [State.resetWith]
  lengths := trivial
  input := fun _ => List.not_mem_nil

/-! ### The statements -/

/-- Settles O25: of the endings of a step, the invariant shuts out every one the spec does not name. -/
theorem onlyNamedStops : Obligations.OnlyNamedStops := by
  intro s inv
  cases step_ending s with
  | next t h => exact .inl ⟨t, h⟩
  | malformedOperand control policy cmd h => exact .inr (.inl ⟨control, policy, cmd, h⟩)
  | portFault control r u bad silent h => exact .inr (.inr ⟨control, bad.1, r, u, bad.2, h, silent⟩)
  | illegalConfiguration illegal _ => exact absurd inv.legal (by simp [illegal])
  | bufferOverrun control index _ => exact absurd (inv.idx_lt_cap control) (by omega)
  | timeoutNotEnabled input disabled _ => exact absurd input (inv.input disabled)
  | emptyPayload control empty _ => exact absurd empty (inv.payload_ne_nil control)

/-- Settles O7: the refusal is raised exactly for the parameters `configLegal` shuts out. -/
theorem illegalConfigurationRefused : Obligations.IllegalConfigurationRefused := fun s =>
  (configLegal_eq_false_iff s.cfg).symm.trans (step_eq_refused_illegalConfiguration_iff s).symm

/-- Settles O23: nothing has arrived and nothing has been sent, so only the parameters and the memories matter. -/
theorem invariantAtReset : Obligations.InvariantAtReset :=
  ⟨inv_resetWith (by decide) rfl rfl (by decide) (by decide),
    fun _ _ legal flashForm eepromForm flashFits eepromFits =>
      ⟨inv_resetWith legal flashForm eepromForm flashFits eepromFits, trivial⟩⟩

end Sys2Proof.Machine
end

section
/-! SUPPORT. The machine's state over its runs: what a step keeps of the invariant, what a command's reply is made of, which
command writes which register and memory, and how the session ends (10_state R35 to R42). -/

namespace Sys2Proof.Machine

/-! ### What taking and losing input leaves alone -/

/-- From `s` to `t` the block took or lost input and wrote no register but SEQ, CK, LEN, IDX and the bytes of BUF: what the
parser does with a byte (40_frame_parser R122), and what the environment does during an execute step (70_reset R276). -/
structure InputTaken (s t : State) : Prop where
  cfg : t.cfg = s.cfg
  addr : t.addr = s.addr
  leave : t.leave = s.leave
  exit : t.exit = s.exit
  port : t.port = s.port
  buffer : t.buf.length = s.buf.length
  rx : t.rx.Sublist s.rx
  ended : t.control = .exited ↔ s.control = .exited

theorem InputTaken.loseBytes (s : State) : InputTaken s s.loseBytes where
  cfg := by simp
  addr := by simp
  leave := by simp
  exit := by simp
  port := by simp
  buffer := by simp
  rx := by rw [State.loseBytes_rx]; exact dropLost_sublist _ _
  ended := by simp

/-- What the registers that the parser writes become. -/
theorem InputTaken.of_update (s : State) {c : Control} (seq ck : Byte) (len idx : Half) {buf : List Byte}
    (hs : s.control.receiving) (hc : c ≠ .exited) (hbuf : buf.length = s.buf.length) :
    InputTaken s { s with control := c, seq := seq, ck := ck, len := len, idx := idx, buf := buf } :=
  ⟨rfl, rfl, rfl, rfl, rfl, hbuf, List.Sublist.refl _, iff_of_false hc (Control.receiving_ne hs).2⟩

/-- A byte of the receive stream, whatever the parser does with it. -/
theorem receiveByte_taken {b : Byte} {s t : State} (h : receiveByte b s = .next t) (hr : s.control.receiving) :
    InputTaken s t := by
  rcases receiveByte_next h hr with rfl | ⟨-, -, rfl⟩ | ⟨-, -, rfl⟩ | ⟨-, rfl⟩ | ⟨-, rfl⟩ | ⟨-, -, -, -, rfl⟩ | ⟨-, -, rfl⟩
    | ⟨-, -, rfl⟩
  any_goals exact .of_update s _ _ _ _ hr nofun rfl
  exact .of_update s _ _ _ _ hr (by split <;> decide) List.length_set

/-! ### The invariant in the receive states -/

/-- Input taken or lost keeps the invariant, LEN and IDX being as the parser keeps them. -/
theorem Inv.of_taken {s t : State} (inv : Inv s) (h : InputTaken s t) (lengths : lengthsOk t) : Inv t where
  legal := by rw [h.cfg]; exact inv.legal
  buffer := by rw [h.cfg, h.buffer]; exact inv.buffer
  address := by rw [h.cfg, h.addr]; exact inv.address
  flashForm := by rw [h.port]; exact inv.flashForm
  flashFits := by rw [h.cfg, h.port]; exact inv.flashFits
  eepromForm := by rw [h.port]; exact inv.eepromForm
  eepromFits := by rw [h.cfg, h.port]; exact inv.eepromFits
  leaveExit := by rw [h.leave, h.exit]; exact inv.leaveExit
  exitControl := by rw [h.exit, h.ended]; exact inv.exitControl
  lengths := lengths
  input := fun disabled m => inv.input (h.cfg ▸ disabled) (h.rx.subset m)

/-- The next IDX, while the payload still comes. -/
theorem idx_succ_toNat {idx len : Half} (h : idx.toNat < len.toNat) : (idx + 1).toNat = idx.toNat + 1 := by
  bv_omega

/-- The parser keeps LEN and IDX in order (10_state R37, 40_frame_parser R113 to R116). -/
theorem receiveByte_lengthsOk {b : Byte} {s t : State} (h : receiveByte b s = .next t) (hr : s.control.receiving)
    (lengths : lengthsOk s) : lengthsOk t := by
  rcases receiveByte_next h hr with rfl | ⟨-, -, rfl⟩ | ⟨-, -, rfl⟩ | ⟨-, rfl⟩ | ⟨-, rfl⟩ | ⟨-, -, h1, h2, rfl⟩ | ⟨hc, -, rfl⟩
    | ⟨hc, -, rfl⟩
  · exact trivial
  · exact trivial
  · exact trivial
  · change loByte (b.setWidth 16 <<< 8) = 0
    rw [setWidth_shiftLeft_eq_joinBytes, loByte_joinBytes]
  · exact trivial
  · exact ⟨h1, h2, h1⟩
  · obtain ⟨h1, h2, h3⟩ : 1 ≤ s.len.toNat ∧ s.len.toNat ≤ s.cfg.cap ∧ s.idx.toNat < s.len.toNat := by
      simpa only [lengthsOk, hc] using lengths
    by_cases hlast : s.idx + 1 = s.len
    · simpa only [lengthsOk, if_pos hlast] using ⟨h1, h2, hlast⟩
    · have hne : s.idx.toNat + 1 ≠ s.len.toNat := fun e =>
        hlast (BitVec.eq_of_toNat_eq ((idx_succ_toNat h3).trans e))
      simp only [lengthsOk, if_neg hlast, idx_succ_toNat h3]
      exact ⟨h1, h2, by omega⟩
  · obtain ⟨h1, h2, -⟩ : 1 ≤ s.len.toNat ∧ s.len.toNat ≤ s.cfg.cap ∧ s.idx = s.len := by
      simpa only [lengthsOk, hc] using lengths
    exact ⟨h1, h2⟩

/-- The event at the head of the input is gone. -/
theorem Inv.dropEvent {s : State} (inv : Inv s) {e : RxEvent} {rest : List RxEvent} (hx : s.rx = e :: rest) :
    Inv { s with rx := rest } :=
  inv.of_taken ⟨rfl, rfl, rfl, rfl, rfl, rfl, hx ▸ List.sublist_cons_self e rest, Iff.rfl⟩ inv.lengths

/-- The Timeout event sets LEAVE and EXIT and ends in Exited (40_frame_parser R120). -/
theorem Inv.timeout {s : State} (inv : Inv s) : Inv { s with leave := true, control := .exited, exit := true } :=
  { inv with leaveExit := rfl, exitControl := by simp, lengths := trivial }

/-! ### A command's reply -/

theorem reply_eq_next {bs : List Byte} {s t : State} (h : reply bs s = .next t) : t = (s.setReply bs).sendReply := by
  cases h; rfl

/-- A reply of a legal configuration lies within the buffer (10_state R38, R39). -/
theorem ReplyBytes.length_le {c : Config} {bs : List Byte} (h : ReplyBytes c bs) (hl : Legal c) :
    1 + bs.length ≤ c.cap := by
  have := hl.cap
  rcases h.fits with h | h <;> omega

/-- A reply has its status byte. -/
theorem ReplyBytes.length_pos {c : Config} {bs : List Byte} (h : ReplyBytes c bs) : 0 < bs.length := by
  cases bs with
  | nil => exact absurd h.status (by simp)
  | cons b bs => simp

/-- The first byte written behind the command code. -/
theorem bufPut_one_getElem?_one {buf bs : List Byte} (hbuf : buf ≠ []) (hbs : 0 < bs.length) :
    (bufPut buf 1 bs)[1]? = bs.head? := by
  cases buf with
  | nil => exact absurd rfl hbuf
  | cons code rest => cases bs with
    | nil => cases hbs
    | cons b bs => rfl

/-- Before the session's end EXIT is clear (10_state R41). -/
theorem Inv.exit_eq_false {s : State} (inv : Inv s) (hc : s.control ≠ .exited) : s.exit = false := by
  rw [← Bool.not_eq_true, inv.exitControl]; exact hc

/-- A reply behind work keeps the invariant: it fits the buffer, and EXIT and Exited follow LEAVE (44_reply_encoder R220 to
R226). -/
theorem Inv.reply {s s1 : State} (inv : Inv s) (hc : s.control ≠ .exited) (work : Work s s1) {bs : List Byte}
    (hbs : ReplyBytes s.cfg bs) : Inv (s1.setReply bs).sendReply := by
  have hcfg : s1.cfg = s.cfg := work.prepared.cfg
  have hbuf : s1.buf = s.buf := work.prepared.buf
  have hrx : s1.rx = s.rx := work.prepared.rx
  have hexit : s1.exit = false := work.prepared.exit.trans (inv.exit_eq_false hc)
  have fits : 1 + bs.length ≤ s.buf.length := inv.buffer ▸ hbs.length_le (legal_of _ inv.legal)
  obtain ⟨flashForm, eepromForm, flashFits, eepromFits⟩ := work.memories
  exact {
    legal := by simpa [hcfg] using inv.legal
    buffer := by rw [State.sendReply_buf, State.setReply_buf, hbuf, bufPut_length fits, inv.buffer]; simp [hcfg]
    address := by simpa [hcfg] using work.address inv.address
    flashForm := flashForm inv.flashForm
    flashFits := by simpa [hcfg] using flashFits inv.flashFits
    eepromForm := eepromForm inv.eepromForm
    eepromFits := by simpa [hcfg] using eepromFits inv.eepromFits
    leaveExit := by simp [hexit]
    exitControl := by cases hl : s1.leave <;> simp [hexit, hl, controlAfterReply]
    lengths := by cases hl : s1.leave <;> simp [lengthsOk, hl, controlAfterReply]
    input := by simpa [hcfg, hrx] using inv.input }

/-- A command that completes keeps the invariant. -/
theorem exec_inv {i : Instr} {s t : State} (inv : Inv s) (hc : s.control ≠ .exited) (h : exec i s = .next t) :
    Inv t := by
  obtain ⟨s1, bs, work, hreply, hbs⟩ := exec_next h
  rw [reply_eq_next hreply]
  exact inv.reply hc work hbs

/-- Settles O24, by the cases of a step. -/
theorem invariantKept : Obligations.InvariantKept := by
  intro s t inv h
  rcases (step_next h).2 with ⟨-, rfl⟩ | ⟨hc, i, -, he⟩ | ⟨-, -, rfl⟩ | ⟨hr, b, rest, hx, hb⟩ | ⟨-, rest, hx, -, rfl⟩
  · exact inv
  · have lost : Inv s.loseBytes := inv.of_taken (.loseBytes s) (by simpa [lengthsOk] using inv.lengths)
    exact exec_inv lost (by simp [hc]) he
  · exact inv
  · have taken := inv.dropEvent hx
    exact taken.of_taken (receiveByte_taken hb hr) (receiveByte_lengthsOk hb hr taken.lengths)
  · exact (inv.dropEvent hx).timeout

/-- Settles O28: the reply is the command code and the bytes `exec_next` speaks of. -/
theorem replyLengthAndStatus : Obligations.ReplyLengthAndStatus := by
  intro i s t legal hcap hbuf h
  obtain ⟨s1, bs, work, hreply, hbs⟩ := exec_next h
  have hle := hbs.length_le (legal_of _ legal)
  have hpos := hbs.length_pos
  have hrlen : t.rlen.toNat = 1 + bs.length := by
    rw [reply_eq_next hreply, State.sendReply_rlen, State.setReply_rlen, BitVec.toNat_ofNat]
    exact Nat.mod_eq_of_lt (by omega)
  have hstatus : t.buf[1]? = bs.head? := by
    rw [reply_eq_next hreply, State.sendReply_buf, State.setReply_buf, work.prepared.buf]
    exact bufPut_one_getElem?_one hbuf hpos
  refine ⟨by omega, by omega, ?_⟩
  rw [hstatus]
  exact hbs.status

/-! ### Which command writes what -/

/-- ADDR, LEAVE, EPAGE and every memory are the same. -/
structure Unwritten (s t : State) : Prop where
  addr : t.addr = s.addr
  leave : t.leave = s.leave
  epage : t.epage = s.epage
  flash : t.port.flash = s.port.flash
  eeprom : t.port.eeprom = s.port.eeprom
  fuses : t.port.fuses = s.port.fuses
  sig : t.port.sig = s.port.sig

theorem Unwritten.trans {s t u : State} (h : Unwritten s t) (k : Unwritten t u) : Unwritten s u :=
  ⟨k.addr.trans h.addr, k.leave.trans h.leave, k.epage.trans h.epage, k.flash.trans h.flash, k.eeprom.trans h.eeprom,
    k.fuses.trans h.fuses, k.sig.trans h.sig⟩

/-- The reply writes none of them (41_dispatch R149). -/
theorem reply_unwritten {bs : List Byte} {s t : State} (h : reply bs s = .next t) : Unwritten s t := by
  rw [reply_eq_next h]; exact ⟨rfl, rfl, rfl, rfl, rfl, rfl, rfl⟩

theorem malformed_unwritten {cmd : Byte} {s t : State} (h : malformed cmd s = .next t) : Unwritten s t :=
  reply_unwritten (malformed_next h).2

/-- A request that only reads (20_memory R67). -/
theorem State.request_unwritten {s t : State} {r : PortRequest} (hr : r.isRead) (h : s.request r = .ok t) :
    Unwritten s t := by
  obtain ⟨flash, eeprom, fuses⟩ := State.request_read hr h
  obtain ⟨q, hq, rfl⟩ := State.request_ok h
  exact ⟨rfl, rfl, rfl, flash, eeprom, fuses, Port.perform_sig hq⟩

/-- No request changes a fuse byte but the lock byte (20_memory R59, R77). -/
theorem Port.perform_lockOnly {c : Config} {p q : Port} {r : PortRequest} (h : p.perform c r = .ok q) :
    q.fuses.low = p.fuses.low ∧ q.fuses.high = p.fuses.high ∧ q.fuses.ext = p.fuses.ext := by
  rcases Port.perform_ok h with ⟨-, -, rfl⟩ | ⟨-, rfl⟩
  · cases r <;> exact ⟨rfl, rfl, rfl⟩
  · exact ⟨rfl, rfl, rfl⟩

/-- A command that goes on with the state its port requests led to completes only if they were performed. -/
theorem requests_then_next {o : Except Fault State} {next : State → Host.Outcome State Fault Refusal} {t : State}
    (h : (match o with
      | .ok s1 => next s1
      | .error f => .fault f) = .next t) : ∃ s1, o = .ok s1 ∧ next s1 = .next t := by
  cases o with
  | ok s1 => exact ⟨s1, rfl, h⟩
  | error f => cases h

/-- A command that makes one reading request and replies. -/
theorem request_then_reply_unwritten {r : PortRequest} {bs : List Byte} {s t : State} (hr : r.isRead)
    (h : (match s.request r with
      | .ok s1 => reply bs s1
      | .error f => .fault f) = .next t) : Unwritten s t := by
  obtain ⟨s1, ok, hreply⟩ := requests_then_next h
  exact (State.request_unwritten hr ok).trans (reply_unwritten hreply)

/-- From `s` to `t` nothing changed but what command `i` may write: the memories, and the registers ADDR, LEAVE and EPAGE
(10_state R35, R36, R40; 20_memory R50). -/
structure WritesOnlyItsOwn (i : Instr) (s t : State) : Prop where
  flash : t.port.flash = s.port.flash ∨ ∃ n data, i = .programFlashIsp n data
  epage : t.epage = s.epage ∨ ∃ n data, i = .programFlashIsp n data
  eeprom : t.port.eeprom = s.port.eeprom ∨ ∃ n data, i = .programEepromIsp n data
  fuses : t.port.fuses = s.port.fuses ∨ ∃ v, i = .programLockIsp v
  lockOnly : t.port.fuses.low = s.port.fuses.low ∧ t.port.fuses.high = s.port.fuses.high
    ∧ t.port.fuses.ext = s.port.fuses.ext
  sig : t.port.sig = s.port.sig
  addr : t.addr = s.addr ∨ (∃ w, i = .loadAddress w) ∨ (∃ n data, i = .programFlashIsp n data)
    ∨ (∃ n data, i = .programEepromIsp n data) ∨ (∃ n, i = .readFlashIsp n) ∨ ∃ n, i = .readEepromIsp n
  leave : t.leave = s.leave ∨ i = .leaveProgmodeIsp

theorem WritesOnlyItsOwn.of_unwritten {i : Instr} {s t : State} (h : Unwritten s t) : WritesOnlyItsOwn i s t :=
  ⟨.inl h.flash, .inl h.epage, .inl h.eeprom, .inl h.fuses, by simp [h.fuses], h.sig, .inl h.addr, .inl h.leave⟩

/-- The reply behind a command's work. -/
theorem WritesOnlyItsOwn.reply {i : Instr} {s s1 t : State} {bs : List Byte} (h : WritesOnlyItsOwn i s s1)
    (hreply : reply bs s1 = .next t) : WritesOnlyItsOwn i s t := by
  rw [reply_eq_next hreply]; exact { h with }

/-- PROGRAM_FLASH_ISP writes flash, EPAGE and ADDR. -/
theorem execProgramFlashIsp_writes {size : Option Half} {data : List Byte} {s t : State}
    (h : execProgramFlashIsp size data s = .next t) : WritesOnlyItsOwn (.programFlashIsp size data) s t := by
  cases size with
  | none => exact .of_unwritten (malformed_unwritten h)
  | some n =>
    rw [execProgramFlashIsp] at h
    split at h
    · exact .of_unwritten (malformed_unwritten h)
    · obtain ⟨s1, h1, hreply⟩ := requests_then_next h
      obtain ⟨kept, eeprom⟩ := programWords_kept h1
      exact .reply ⟨.inr ⟨_, _, rfl⟩, .inr ⟨_, _, rfl⟩, .inl eeprom, .inl kept.fuses, by simp [kept.fuses], kept.sig,
        .inr (.inr (.inl ⟨_, _, rfl⟩)), .inl kept.leave⟩ hreply

/-- PROGRAM_EEPROM_ISP writes EEPROM and ADDR. -/
theorem execProgramEepromIsp_writes {size : Option Half} {data : List Byte} {s t : State}
    (h : execProgramEepromIsp size data s = .next t) : WritesOnlyItsOwn (.programEepromIsp size data) s t := by
  cases size with
  | none => exact .of_unwritten (malformed_unwritten h)
  | some n =>
    rw [execProgramEepromIsp] at h
    split at h
    · exact .of_unwritten (malformed_unwritten h)
    · obtain ⟨s1, h1, hreply⟩ := requests_then_next h
      obtain ⟨kept, flash, epage⟩ := programBytes_kept h1
      exact .reply ⟨.inl flash, .inl epage, .inr ⟨_, _, rfl⟩, .inl kept.fuses, by simp [kept.fuses], kept.sig,
        .inr (.inr (.inr (.inl ⟨_, _, rfl⟩))), .inl kept.leave⟩ hreply

/-- A reading command that completes writes ADDR alone. -/
theorem ReadRun.writes {i : Instr} {r : Addr → PortRequest} {ans : State → List Byte} {w n : Nat} {s t : State}
    (run : ReadRun r ans w n s (.next t)) (hr : ∀ a, (r a).isRead) (allowed : ∀ c a, requestAllowed c (r a))
    (hw : ∀ s, (ans s).length = w) (hi : (∃ n, i = .readFlashIsp n) ∨ ∃ n, i = .readEepromIsp n) :
    WritesOnlyItsOwn i s t := by
  obtain ⟨bytes, u, reads, -, -, hreply⟩ := run.next allowed hw
  obtain ⟨kept, flash, eeprom, epage⟩ := reads.kept hr
  exact .reply ⟨.inl flash, .inl epage, .inl eeprom, .inl kept.fuses, by simp [kept.fuses], kept.sig,
    .inr (.inr (.inr (.inr hi))), .inl kept.leave⟩ hreply

theorem execReadFlashIsp_writes {size : Option Half} {s t : State} (h : execReadFlashIsp size s = .next t) :
    WritesOnlyItsOwn (.readFlashIsp size) s t := by
  cases size with
  | none => exact .of_unwritten (malformed_unwritten h)
  | some n =>
    cases hm : readFlashMalformed s.cfg n with
    | true => exact .of_unwritten (malformed_unwritten (by rw [← h, execReadFlashIsp, if_pos hm]))
    | false =>
      exact (h ▸ execReadFlashIsp_run hm).writes (fun _ => trivial) readFlash_allowed wordAnswer_length (.inl ⟨_, rfl⟩)

theorem execReadEepromIsp_writes {size : Option Half} {s t : State} (h : execReadEepromIsp size s = .next t) :
    WritesOnlyItsOwn (.readEepromIsp size) s t := by
  cases size with
  | none => exact .of_unwritten (malformed_unwritten h)
  | some n =>
    cases hm : readEepromMalformed s.cfg n with
    | true => exact .of_unwritten (malformed_unwritten (by rw [← h, execReadEepromIsp, if_pos hm]))
    | false =>
      exact (h ▸ execReadEepromIsp_run hm).writes (fun _ => trivial) readEeprom_allowed byteAnswer_length (.inr ⟨_, rfl⟩)

/-- PROGRAM_LOCK_ISP writes the lock byte. -/
theorem execProgramLockIsp_writes {lockByte : Option Byte} {s t : State} (h : execProgramLockIsp lockByte s = .next t) :
    WritesOnlyItsOwn (.programLockIsp lockByte) s t := by
  cases lockByte with
  | none => exact .of_unwritten (malformed_unwritten h)
  | some v =>
    obtain ⟨s1, ok, hreply⟩ := requests_then_next h
    obtain ⟨q, hq, rfl⟩ := State.request_ok ok
    have flash : q.flash = s.port.flash := Port.perform_flash hq (by simp) (by simp)
    have eeprom : q.eeprom = s.port.eeprom := Port.perform_eeprom hq (by simp)
    exact .reply (s1 := { s with port := q }) ⟨.inl flash, .inl rfl, .inl eeprom, .inr ⟨_, rfl⟩,
      Port.perform_lockOnly hq, Port.perform_sig hq, .inl rfl, .inl rfl⟩ hreply

theorem execReadFuseIsp_unwritten {cmds : Option (Byte × Byte)} {s t : State} (h : execReadFuseIsp cmds s = .next t) :
    Unwritten s t := by
  cases cmds with
  | none => exact malformed_unwritten h
  | some cmds => exact request_then_reply_unwritten (by exact trivial) h

theorem execReadSignatureIsp_unwritten {index : Option Byte} {s t : State}
    (h : execReadSignatureIsp index s = .next t) : Unwritten s t := by
  cases index with
  | none => exact malformed_unwritten h
  | some k => exact request_then_reply_unwritten (by exact trivial) h

theorem execSpiMulti_unwritten {tx0 index : Option Byte} {s t : State} (h : execSpiMulti tx0 index s = .next t) :
    Unwritten s t := by
  cases tx0 with
  | none => exact malformed_unwritten h
  | some t0 =>
    simp only [execSpiMulti] at h
    split at h
    · cases index with
      | none => exact malformed_unwritten h
      | some k => exact request_then_reply_unwritten (by exact trivial) h
    · exact reply_unwritten h

/-- Every command that completes writes only its own. -/
theorem exec_writesOnlyItsOwn {i : Instr} {s t : State} (h : exec i s = .next t) : WritesOnlyItsOwn i s t := by
  cases i with
  | signOn => exact .of_unwritten (reply_unwritten h)
  | setParameter => exact .of_unwritten (reply_unwritten h)
  | enterProgmodeIsp => exact .of_unwritten (reply_unwritten h)
  | chipEraseIsp => exact .of_unwritten (reply_unwritten h)
  | unknown code => exact .of_unwritten (reply_unwritten h)
  | leaveProgmodeIsp =>
    exact .reply (s1 := { s with leave := leaveAfter s.cfg s.leave })
      ⟨.inl rfl, .inl rfl, .inl rfl, .inl rfl, ⟨rfl, rfl, rfl⟩, rfl, .inl rfl, .inr rfl⟩ h
  | getParameter id =>
    cases id with
    | none => exact .of_unwritten (malformed_unwritten h)
    | some id => exact .of_unwritten (reply_unwritten h)
  | loadAddress word =>
    cases word with
    | none => exact .of_unwritten (malformed_unwritten h)
    | some w =>
      exact .reply (s1 := { s with addr := loadedAddress s.cfg w })
        ⟨.inl rfl, .inl rfl, .inl rfl, .inl rfl, ⟨rfl, rfl, rfl⟩, rfl, .inr (.inl ⟨_, rfl⟩), .inl rfl⟩ h
  | programFlashIsp size data => exact execProgramFlashIsp_writes h
  | readFlashIsp size => exact execReadFlashIsp_writes h
  | programEepromIsp size data => exact execProgramEepromIsp_writes h
  | readEepromIsp size => exact execReadEepromIsp_writes h
  | readFuseIsp cmds => exact .of_unwritten (execReadFuseIsp_unwritten h)
  | programLockIsp lockByte => exact execProgramLockIsp_writes h
  | readLockIsp => exact .of_unwritten (request_then_reply_unwritten (by exact trivial) h)
  | readSignatureIsp index => exact .of_unwritten (execReadSignatureIsp_unwritten h)
  | spiMulti tx0 index => exact .of_unwritten (execSpiMulti_unwritten h)

/-- Settles O29: what `exec_writesOnlyItsOwn` says of every command, field by field. -/
theorem onlyItsCommandWrites : Obligations.OnlyItsCommandWrites := by
  intro i s t h
  obtain ⟨flash, epage, eeprom, fuses, ⟨low, high, ext⟩, sig, addr, leave⟩ := exec_writesOnlyItsOwn h
  exact ⟨flash, epage, eeprom, fuses, low, high, ext, sig, addr, leave⟩

/-! ### The end of the session -/

/-- A command that completes in Exited has set LEAVE, or found it set (44_reply_encoder R225, R226). -/
theorem exec_exited {i : Instr} {s t : State} (h : exec i s = .next t) (ht : t.control = .exited) : t.leave = true := by
  obtain ⟨s1, bs, -, hreply, -⟩ := exec_next h
  rw [reply_eq_next hreply] at ht ⊢
  cases hl : s1.leave with
  | true => exact hl
  | false => simp [controlAfterReply, hl] at ht

/-- LEAVE is written by LEAVE_PROGMODE_ISP alone, and only with P_LEAVE_ENABLED (41_dispatch R147). -/
theorem exec_sets_leave {i : Instr} {s t : State} (h : exec i s = .next t) (hs : s.leave = false) (ht : t.leave = true) :
    i = .leaveProgmodeIsp ∧ s.cfg.leaveEnabled = true := by
  obtain ⟨s1, bs, work, hreply, -⟩ := exec_next h
  have changed : t.leave ≠ s.leave := by simp [hs, ht]
  have hleave : t.leave = s1.leave := (reply_unwritten hreply).leave
  exact ⟨(exec_writesOnlyItsOwn h).leave.resolve_left changed,
    (work.leaveFlag.resolve_left (hleave ▸ changed)).2⟩

/-- Settles O57: before Exited the invariant has LEAVE clear, so the command that ends the session has set it. -/
theorem sessionEndsOnlyByLeaveOrTimeout : Obligations.SessionEndsOnlyByLeaveOrTimeout := by
  intro s t inv h
  rcases (step_next h).2 with ⟨hc, rfl⟩ | ⟨hc, i, hd, he⟩ | ⟨-, -, rfl⟩ | ⟨hr, b, rest, -, hb⟩ | ⟨hr, rest, hx, -, rfl⟩
  · exact ⟨fun _ => rfl, fun hne => absurd hc hne⟩
  · refine ⟨fun hx => ?_, fun hne ht => .inr ?_⟩
    · rw [hc] at hx; cases hx
    · have leaveClear : s.leave = false := inv.leaveExit.trans (inv.exit_eq_false hne)
      obtain ⟨rfl, enabled⟩ := exec_sets_leave he (by simpa using leaveClear) (exec_exited he ht)
      exact ⟨hc, hd, by simpa using enabled⟩
  · exact ⟨fun _ => rfl, fun hne ht => absurd ht hne⟩
  · have notExited := (Control.receiving_ne hr).2
    exact ⟨fun hx => absurd hx notExited, fun _ ht => absurd ((receiveByte_taken hb hr).ended.1 ht) notExited⟩
  · exact ⟨fun hc => absurd hc (Control.receiving_ne hr).2, fun _ _ => .inl ⟨hr, by rw [hx]; rfl, rfl, rfl⟩⟩

/-! ### Timeout and reset -/

/-- A receive step of a legal configuration takes a Timeout. -/
theorem step_timeout {s : State} {rest : List RxEvent} (legal : configLegal s.cfg = true) (hr : s.control.receiving)
    (hx : s.rx = .timeout :: rest) : step s = timeoutEvent { s with rx := rest } := by
  rw [step_of_legal legal, blockStep_receiving hr, receiveStep, hx]

/-- Settles O15: the step is `timeoutEvent` in each of the seven receive states. -/
theorem timeoutRule : Obligations.TimeoutRule := by
  intro s rest legal hr hx
  rw [step_timeout legal hr hx]
  exact ⟨fun enabled => if_pos enabled, fun disabled => if_neg (by simp [disabled])⟩

/-- Settles O22: each is a field of `State.resetWith`. -/
theorem resetValues : Obligations.ResetValues :=
  fun _ _ => ⟨rfl, rfl, rfl, rfl, rfl, rfl, rfl, rfl, rfl, rfl⟩

end Sys2Proof.Machine
end

section
/-! SUPPORT. The memory port over the machine's steps: what self-protection keeps (20_memory R61), where a memory command
faults (R78, 60_exceptions R245), the port that answers everything (R60), and what the reference port reads back (R74 to
R76). -/

namespace Sys2Proof.Machine

/-! ### Self-protection -/

/-- The memory port of `t` is as a command's work from `s` leaves it. The input lost meanwhile is no part of the port. -/
def PortWorked (s t : State) : Prop := ∃ v, Work s.loseBytes v ∧ t.port = v.port

theorem PortWorked.of_port_eq {s t : State} (h : t.port = s.port) : PortWorked s t :=
  ⟨s.loseBytes, .done _, by rw [h, State.loseBytes_port]⟩

/-- A step reaches the port by a command's work only, if at all (40_frame_parser R122). -/
theorem step_next_portWorked {s t : State} (h : step s = .next t) : Legal s.cfg ∧ PortWorked s t := by
  obtain ⟨legal, h⟩ := step_next h
  refine ⟨legal_of _ legal, ?_⟩
  rcases h with ⟨-, rfl⟩ | ⟨-, i, -, he⟩ | ⟨-, -, rfl⟩ | ⟨hr, b, rest, -, hb⟩ | ⟨-, rest, -, -, rfl⟩
  · exact .of_port_eq rfl
  · obtain ⟨s1, bs, work, hreply, -⟩ := exec_next he
    exact ⟨s1, work, by rw [reply_eq_next hreply, State.sendReply_port, State.setReply_port]⟩
  · exact .of_port_eq rfl
  · exact .of_port_eq (receiveByte_taken hb hr).port
  · exact .of_port_eq rfl

/-- So does a step that ends in PortFault, before the request that failed. -/
theorem step_portFault_portWorked {s u : State} {r : PortRequest} (h : step s = .fault (.portFault r u)) :
    Legal s.cfg ∧ PortWorked s u ∧ requestAllowed s.cfg r := by
  obtain ⟨legal, -, ⟨v, bs, work, rfl⟩, -, allowed⟩ := step_portFault h
  exact ⟨legal, ⟨v, work, rfl⟩, allowed⟩

theorem PortWorked.log {s t : State} (h : PortWorked s t) (legal : Legal s.cfg) :
    ∃ rs, t.port.log = s.port.log ++ rs ∧ ∀ r ∈ rs, requestAllowed s.cfg r := by
  obtain ⟨v, work, hport⟩ := h
  obtain ⟨rs, hlog, allowed⟩ := work.log
  rw [State.loseBytes_port] at hlog
  rw [State.loseBytes_cfg] at allowed
  exact ⟨rs, by rw [hport, hlog], allowed legal⟩

theorem PortWorked.boot {s t : State} (h : PortWorked s t) (legal : Legal s.cfg) {a : Nat}
    (ha : s.cfg.bootBoundary ≤ a) : t.port.flash.read a = s.port.flash.read a := by
  obtain ⟨v, work, hport⟩ := h
  rw [hport, work.boot (by rwa [State.loseBytes_cfg]) (by rwa [State.loseBytes_cfg]), State.loseBytes_port]

/-- Settles O55: a step reaches the port only by work, whose requests are all allowed. -/
theorem selfProtectionRequests : Obligations.SelfProtectionRequests := by
  refine fun s => ⟨fun t h => ?_, fun bad u h => ?_⟩
  · obtain ⟨legal, worked⟩ := step_next_portWorked h
    exact worked.log legal
  · obtain ⟨legal, worked, allowed⟩ := step_portFault_portWorked h
    exact ⟨allowed, worked.log legal⟩

/-- Settles O56: a step reaches the port only by work, which leaves the flash at and above the boundary alone. -/
theorem bootloaderFlashNeverChanges : Obligations.BootloaderFlashNeverChanges := by
  refine fun s => ⟨fun t h a ha => ?_, fun bad u h a ha => ?_⟩
  · obtain ⟨legal, worked⟩ := step_next_portWorked h
    exact worked.boot legal ha
  · obtain ⟨legal, worked, -⟩ := step_portFault_portWorked h
    exact worked.boot legal ha

/-! ### The operand checks of the memory commands against 41_dispatch R141 -/

theorem half_eq_zero_iff (n : Half) : n = 0 ↔ n.toNat = 0 := BitVec.toNat_inj.symm

theorem readEepromMalformed_iff (c : Config) (addr : Addr) (n : Half) :
    readEepromMalformed c n = true ↔ isMalformed c addr (.readEepromIsp (some n)) := by
  simp only [readEepromMalformed, isMalformed, Bool.or_eq_true, beq_iff_eq, half_eq_zero_iff, decide_eq_true_eq]

theorem readFlashMalformed_iff (c : Config) (addr : Addr) (n : Half) :
    readFlashMalformed c n = true ↔ isMalformed c addr (.readFlashIsp (some n)) := by
  simp only [readFlashMalformed, isMalformed, Bool.or_eq_true, beq_iff_eq, half_eq_zero_iff, decide_eq_true_eq,
    or_assoc]

theorem programEepromMalformed_iff (c : Config) (addr : Addr) (n : Half) (data : List Byte) :
    programEepromMalformed n data = true ↔ isMalformed c addr (.programEepromIsp (some n) data) := by
  simp only [programEepromMalformed, isMalformed, Bool.or_eq_true, beq_iff_eq, half_eq_zero_iff, decide_eq_true_eq]

/-! ### PortFault of the memory commands -/

/-- BUF where a reading command faults: the status and the bytes read, the rest as received (42_memory R173, R174). -/
theorem putBuf_status_eq {s u : State} (h : u.buf = s.buf) (bytes : List Byte) :
    u.putBuf 1 (STATUS_OK :: bytes)
      = { u with buf := s.buf.take 1 ++ [0x00] ++ bytes ++ s.buf.drop (2 + bytes.length) } := by
  have hlen : 1 + (bytes.length + 1) = 2 + bytes.length := by omega
  simp [State.putBuf, bufPut, h, hlen, STATUS_OK]

/-- Where a reading command that comes to a request outside the arrays has come to, and with which BUF it stops: `k` reads of
`w` bytes done. -/
theorem ReadRun.fault_at {r : Addr → PortRequest} {ans : State → List Byte} {w n k : Nat} {s : State}
    {o : Host.Outcome State Fault Refusal} (h : ReadRun r ans w n s o) (ha : s.addr.toNat < 2 ^ s.cfg.addrWidth.bits)
    (hk : s.cfg.portKind = .reference) (hread : ∀ a, (r a).isRead)
    (hw : ∀ s, (ans s).length = w) (hkn : k < n)
    (hbad : requestInRange s.cfg (r (BitVec.ofNat 32 (transferAddr s (w * k)))) = false)
    (hr : ∀ j < k, requestInRange s.cfg (r (BitVec.ofNat 32 (transferAddr s (w * j)))) = true) :
    ∃ u bytes, Reads r ans w s k bytes u
      ∧ o = .fault (.portFault (r (BitVec.ofNat 32 (transferAddr s (w * k))))
          { u with buf := s.buf.take 1 ++ [0x00] ++ bytes ++ s.buf.drop (2 + w * k) })
      ∧ bytes.length = w * k ∧ Prepared s u ∧ u.leave = s.leave ∧ u.epage = s.epage
      ∧ u.addr.toNat = transferAddr s (w * k)
      ∧ OnlyAsked s u ((List.range k).map (fun j => r (BitVec.ofNat 32 (transferAddr s (w * j))))) := by
  obtain ⟨bytes, u, reads, rfl⟩ := h.stops ha hk hkn hbad hr
  have moved := reads.moved ha
  have length := reads.length hw
  obtain ⟨kept, flash, eeprom, epage⟩ := reads.kept hread
  refine ⟨u, bytes, reads, ?_, length, moved.prepared, moved.leave, epage, moved.addr,
    ⟨flash, eeprom, moved.sig, kept.fuses, moved.log⟩⟩
  rw [putBuf_status_eq moved.prepared.buf, length]

/-- Requests at an address of a transfer, inside or outside the reference port's arrays (20_memory R78). -/
theorem requestInRange_readEeprom (s : State) (k : Nat) :
    requestInRange s.cfg (.readEeprom (BitVec.ofNat 32 (transferAddr s k)))
      = decide (transferAddr s k < s.cfg.eepromSize) := by
  rw [requestInRange, ofNat_transferAddr_toNat]

theorem requestInRange_writeEeprom (s : State) (k : Nat) (v : Byte) :
    requestInRange s.cfg (.writeEeprom (BitVec.ofNat 32 (transferAddr s k)) v)
      = decide (transferAddr s k < s.cfg.eepromSize) := by
  rw [requestInRange, ofNat_transferAddr_toNat]

theorem requestInRange_readFlash (s : State) (k : Nat) :
    requestInRange s.cfg (.readFlash (BitVec.ofNat 32 (transferAddr s k)))
      = decide (transferAddr s k + 1 < s.cfg.flashSize) := by
  rw [requestInRange, ofNat_transferAddr_toNat]

/-- The loop of PROGRAM_EEPROM_ISP stops at a byte outside the array when it has written those before it. -/
theorem programBytes_fault {data : List Byte} {s u : State} {k : Nat} {rs : List PortRequest}
    (hu : programBytes (data.take k) s = .ok u) (moved : Moved s u k rs) (hk : s.cfg.portKind = .reference)
    (hkl : k < data.length) (hbad : s.cfg.eepromSize ≤ transferAddr s k) :
    programBytes data s
      = .error (.portFault (.writeEeprom (BitVec.ofNat 32 (transferAddr s k)) (data.getD k 0)) u) := by
  have haddr : u.addr = BitVec.ofNat 32 (transferAddr s k) := by rw [transferAddr, ← moved.addr]; simp
  have outside : u.request (.writeEeprom u.addr (data.getD k 0))
      = .error (.portFault (.writeEeprom u.addr (data.getD k 0)) u) := by
    refine State.request_out_of_range (moved.prepared.cfg ▸ hk) ?_
    rw [haddr, moved.prepared.cfg, requestInRange_writeEeprom]
    exact decide_eq_false (by omega)
  have cut : data = data.take k ++ data.getD k 0 :: data.drop (k + 1) := by
    rw [List.getD_eq_getElem _ _ hkl, List.getElem_cons_drop, List.take_append_drop]
  calc programBytes data s
      = programBytes (data.getD k 0 :: data.drop (k + 1)) u := by rw [← programBytes_append hu, ← cut]
    _ = .error (.portFault (.writeEeprom u.addr (data.getD k 0)) u) := by rw [programBytes, outside]
    _ = _ := by rw [haddr]

theorem getD_take {data : List Byte} {j k : Nat} (h : j < k) : (data.take k).getD j 0 = data.getD j 0 := by
  rw [List.getD_eq_getElem?_getD, List.getElem?_take_of_lt h, ← List.getD_eq_getElem?_getD]

/-- PROGRAM_EEPROM_ISP stops where its loop does: `data` may be longer than the size. -/
theorem execProgramEepromIsp_fault {s u : State} {n : Half} {data : List Byte} {k : Nat} {rs : List PortRequest}
    (hu : programBytes (data.take k) s = .ok u) (moved : Moved s u k rs) (hk : s.cfg.portKind = .reference)
    (hkn : k < n.toNat) (hlen : n.toNat ≤ data.length) (hm : programEepromMalformed n data = false)
    (hbad : s.cfg.eepromSize ≤ transferAddr s k) :
    exec (.programEepromIsp (some n) data) s
      = .fault (.portFault (.writeEeprom (BitVec.ofNat 32 (transferAddr s k)) (data.getD k 0)) u) := by
  have fault := programBytes_fault (data := data.take n.toNat)
    (by rwa [List.take_take, Nat.min_eq_left (by omega)]) moved hk (by rwa [List.length_take_of_le hlen]) hbad
  rw [getD_take hkn] at fault
  simp only [exec, execProgramEepromIsp, hm, Bool.false_eq_true, if_false, fault]

/-- Settles O45: the reads by the reading loops, the writes by cutting the programming loop at the first bad byte. -/
theorem portFaultNamesFirstBadRequest : Obligations.PortFaultNamesFirstBadRequest := by
  intro s n data k hk ha hkn
  refine ⟨fun hm hbad hr => ?readEeprom, fun hm hbad hr => ?programEeprom, fun hm heven hbad hr => ?readFlash⟩
  case readEeprom =>
    rw [← readEepromMalformed_iff, Bool.not_eq_true] at hm
    obtain ⟨u, bytes, reads, stopped⟩ := (execReadEepromIsp_run hm).fault_at ha hk (fun _ => trivial)
      byteAnswer_length hkn
      (by rw [Nat.one_mul, requestInRange_readEeprom]; exact decide_eq_false (by omega))
      (fun j hj => by rw [Nat.one_mul, requestInRange_readEeprom]; exact decide_eq_true (hr j hj))
    simp only [Nat.one_mul] at stopped
    obtain ⟨outcome, length, rest⟩ := stopped
    exact ⟨u, bytes, outcome, length, reads.eeprom ha hk, rest⟩
  case programEeprom =>
    have hlen : n.toNat ≤ data.length := Nat.le_of_not_lt fun short => hm (.inr short)
    rw [← programEepromMalformed_iff, Bool.not_eq_true] at hm
    have hlenk : (data.take k).length = k := List.length_take_of_le (by omega)
    obtain ⟨u, hu, moved, epage, flash, fuses, contents⟩ :=
      programBytes_completes (data := data.take k) ha (by rw [hlenk]; exact fun _ => hr)
    rw [hlenk] at moved contents
    refine ⟨u, execProgramEepromIsp_fault hu moved hk hkn hlen hm hbad, moved.prepared, moved.leave, epage, moved.addr,
      flash, moved.sig, fuses, ?_, fun wf => ?_⟩
    · rw [moved.log]
      congr 1
      exact List.map_congr_left fun j hj => by rw [getD_take (List.mem_range.1 hj)]
    · have space := half_lt_two_pow_bits n s.cfg.addrWidth
      obtain ⟨written, others⟩ := contents hk wf (by omega)
      exact ⟨fun j hj => by rw [← List.getElem?_take_of_lt hj]; exact written j hj, others⟩
  case readFlash =>
    have even : n.toNat % 2 ≠ 1 := fun odd => hm (.inr (.inl odd))
    obtain ⟨m, rfl⟩ : ∃ m, k = 2 * m := ⟨k / 2, by omega⟩
    rw [← readFlashMalformed_iff, Bool.not_eq_true] at hm
    obtain ⟨u, bytes, reads, outcome, length, rest⟩ := (execReadFlashIsp_run hm).fault_at (k := m) ha hk
      (fun _ => trivial) wordAnswer_length (by omega)
      (by rw [requestInRange_readFlash]; exact decide_eq_false (by omega))
      (fun j hj => by rw [requestInRange_readFlash]; exact decide_eq_true (hr (2 * j) (by omega) (by omega)))
    rw [Nat.mul_div_cancel_left m (by decide)]
    exact ⟨u, bytes, outcome, length, reads.flash ha hk, rest⟩

/-! ### The port that answers every request -/

/-- Work in front of a subsystem of free draws leaves the reference arrays alone (log entry 3). -/
theorem Work.draws {s t : State} (h : Work s t) (hk : s.cfg.portKind = .draws) :
    t.port.flash = s.port.flash ∧ t.port.eeprom = s.port.eeprom ∧ t.port.fuses = s.port.fuses := by
  induction h with
  | done => exact ⟨rfl, rfl, rfl⟩
  | @request s t u r allowed ok rest ih =>
    rw [State.request_of_perform (Port.perform_draws hk _ r)] at ok
    cases ok
    exact ih hk
  | addr n _ ih => exact ih hk
  | epage p _ ih => exact ih hk
  | leave _ _ ih => exact ih hk

/-- Settles O48: of the ways a command can end, the policy shuts out one and the port another. -/
theorem answeringPortNeverStops : Obligations.AnsweringPortNeverStops := by
  intro i s hk policy
  cases exec_ending i s with
  | completes t h =>
    obtain ⟨s1, bs, work, hreply, -⟩ := exec_next h
    obtain ⟨flash, eeprom, fuses⟩ := work.draws hk
    refine ⟨t, h, ?_⟩
    rw [reply_eq_next hreply]
    exact ⟨flash, eeprom, fuses, congrArg (· + 1) work.prepared.seq⟩
  | malformed cmd fault _ => rw [policy] at fault; cases fault
  | portStop f stop _ =>
    obtain ⟨r, u, bs, -, -, ⟨reference, -⟩, -⟩ := stop
    rw [hk] at reference; cases reference

/-! ### What the reference port reads back -/

/-- A request the reference port performed had its effect. -/
theorem Port.perform_reference_effect {c : Config} {p q : Port} {r : PortRequest} (hk : c.portKind = .reference)
    (h : p.perform c r = .ok q) : q = { requestEffect c p r with log := p.log ++ [r] } := by
  rcases Port.perform_ok h with ⟨-, -, rfl⟩ | ⟨draws, -⟩
  · rfl
  · rw [hk] at draws; cases draws

/-- A flash word written over canonical flash: its two bytes. -/
theorem Memory.read_writeWord {m : Memory} (wf : m.wf = true) (a : Nat) (lo hi : Byte) :
    ((m.write a lo).write (a + 1) hi).read a = lo ∧ ((m.write a lo).write (a + 1) hi).read (a + 1) = hi :=
  ⟨by rw [Memory.read_write_other _ _ (by omega), Memory.read_write_self wf],
    Memory.read_write_self (Memory.write_wf wf _ _) _ _⟩

/-- Settles O49, request by request. -/
theorem portReadsLastWrite : Obligations.PortReadsLastWrite := by
  intro c p hk flashForm eepromForm
  refine ⟨fun a w q h => ?_, fun a v q h => ?_, fun a q h => ?_⟩
  · rw [Port.perform_reference_effect hk h]
    refine ⟨?_, rfl, fun b h0 h1 => ?_⟩
    · obtain ⟨lo, hi⟩ := Memory.read_writeWord flashForm a.toNat (loByte w) (hiByte w)
      simp only [Port.flashAnswer, hk, requestEffect, lo, hi, flashWord, joinBytes_hiByte_loByte]
    · exact (Memory.read_write_other _ _ h1).trans (Memory.read_write_other _ _ h0)
  · rw [Port.perform_reference_effect hk h]
    refine ⟨?_, rfl, fun b hb => Memory.read_write_other _ _ hb⟩
    simp only [Port.eepromAnswer, hk, requestEffect, Memory.read_write_self eepromForm]
  · rw [Port.perform_reference_effect hk h]
    exact ⟨rfl, fun b => Memory.read_fill flashForm _ _ _ b⟩

end Sys2Proof.Machine
end

section
/-! SUPPORT. Encoding: which command a code selects, and what holds of every command a payload selects: it is well formed,
its operands are there when the payload is long enough, it depends on the bytes read alone, and its encoding selects it
(30_encoding R83 to R97; 41_dispatch R141). -/

namespace Sys2Proof.Machine

/-! ### The rows of 30_encoding R96 -/

/-- `Selects c p code i`: the command code `code` selects command `i`, whose operands are read from the payload `p`. One
constructor per row of 30_encoding R96's table, and two for UNKNOWN (R97). -/
inductive Selects (c : Config) (p : List Byte) : Byte → Instr → Prop
  | signOn : Selects c p 0x01 .signOn
  | setParameter : Selects c p 0x02 .setParameter
  | getParameter : Selects c p 0x03 (.getParameter p[1]?)
  | loadAddress : Selects c p 0x06 (.loadAddress (payloadAddress p))
  | enterProgmodeIsp : Selects c p 0x10 .enterProgmodeIsp
  | leaveProgmodeIsp : Selects c p 0x11 .leaveProgmodeIsp
  | chipEraseIsp : Selects c p 0x12 .chipEraseIsp
  | programFlashIsp : Selects c p 0x13 (.programFlashIsp (payloadSize p) (payloadData p))
  | readFlashIsp : Selects c p 0x14 (.readFlashIsp (payloadSize p))
  | programEepromIsp : Selects c p 0x15 (.programEepromIsp (payloadSize p) (payloadData p))
  | readEepromIsp : Selects c p 0x16 (.readEepromIsp (payloadSize p))
  | readFuseIsp : Selects c p 0x18 (.readFuseIsp (payloadCmds p))
  | programLockIsp (enabled : c.lockProgEnabled = true) : Selects c p 0x19 (.programLockIsp p[4]?)
  | lockDisabled (disabled : c.lockProgEnabled = false) : Selects c p 0x19 (.unknown 0x19)
  | readLockIsp : Selects c p 0x1A .readLockIsp
  | readSignatureIsp : Selects c p 0x1B (.readSignatureIsp p[4]?)
  | spiMulti : Selects c p 0x1D (.spiMulti p[4]? (payloadSpiIndex p))
  | unknown {code : Byte} (unlisted : code ∉ commandCodes) : Selects c p code (.unknown code)

/-- A code outside the table, as the number the model's definitions compare with each row's. -/
theorem toNat_ne_of_not_mem_commandCodes {code : Byte} (h : code ∉ commandCodes) :
    code.toNat ≠ 0x01 ∧ code.toNat ≠ 0x02 ∧ code.toNat ≠ 0x03 ∧ code.toNat ≠ 0x06 ∧ code.toNat ≠ 0x10 ∧ code.toNat ≠ 0x11
      ∧ code.toNat ≠ 0x12 ∧ code.toNat ≠ 0x13 ∧ code.toNat ≠ 0x14 ∧ code.toNat ≠ 0x15 ∧ code.toNat ≠ 0x16
      ∧ code.toNat ≠ 0x18 ∧ code.toNat ≠ 0x19 ∧ code.toNat ≠ 0x1A ∧ code.toNat ≠ 0x1B ∧ code.toNat ≠ 0x1D := by
  simpa [commandCodes, BitVec.toNat_eq] using h

theorem decodeCommand_of_not_mem {c : Config} {code : Byte} {p : List Byte} (h : code ∉ commandCodes) :
    decodeCommand c code p = .unknown code := by
  simp [decodeCommand, toNat_ne_of_not_mem_commandCodes h]

theorem Selects.decodeCommand_eq {c : Config} {p : List Byte} {code : Byte} {i : Instr} (h : Selects c p code i) :
    decodeCommand c code p = i := by
  cases h with
  | programLockIsp enabled => simp [decodeCommand, enabled]
  | lockDisabled disabled => simp [decodeCommand, disabled]
  | unknown unlisted => exact decodeCommand_of_not_mem unlisted
  | _ => rfl

/-- Every code has its row. -/
theorem exists_selects (c : Config) (p : List Byte) (code : Byte) : ∃ i, Selects c p code i := by
  by_cases lock : code = 0x19
  · subst lock
    cases enabled : c.lockProgEnabled with
    | true => exact ⟨_, .programLockIsp enabled⟩
    | false => exact ⟨_, .lockDisabled enabled⟩
  by_cases listed : code ∈ commandCodes
  · simp only [commandCodes, List.mem_cons, List.not_mem_nil, lock, or_false, false_or] at listed
    rcases listed with rfl | rfl | rfl | rfl | rfl | rfl | rfl | rfl | rfl | rfl | rfl | rfl | rfl | rfl | rfl
    all_goals exact ⟨_, by constructor⟩
  · exact ⟨_, .unknown listed⟩

theorem selects_iff {c : Config} {p : List Byte} {code : Byte} {i : Instr} :
    Selects c p code i ↔ decodeCommand c code p = i := by
  refine ⟨Selects.decodeCommand_eq, ?_⟩
  rintro rfl
  obtain ⟨i, h⟩ := exists_selects c p code
  rwa [h.decodeCommand_eq]

/-- The decoder answers the command the payload's first byte selects (30_encoding R85, R102). -/
theorem decode_cons_eq_ok_iff {c : Config} {code : Byte} {args : List Byte} {i : Instr} :
    decode c (code :: args) = .ok i ↔ Selects c (code :: args) code i := by
  rw [selects_iff, decode, Except.ok.injEq]

/-- Settles O5: the two rows of UNKNOWN. -/
theorem unknownCodesExactly : Obligations.UnknownCodesExactly := by
  intro c code args
  rw [decode_cons_eq_ok_iff]
  constructor
  · intro h
    cases h with
    | lockDisabled disabled => exact .inr ⟨rfl, disabled⟩
    | unknown unlisted => exact .inl unlisted
  · rintro (unlisted | ⟨rfl, disabled⟩)
    · exact .unknown unlisted
    · exact .lockDisabled disabled

/-- Settles O1: each payload's code selects its row, and the row's operands are read from the bytes written out. -/
theorem specPayloadsDecode : Obligations.SpecPayloadsDecode := by
  unfold Obligations.SpecPayloadsDecode
  simp only [decode_cons_eq_ok_iff]
  exact ⟨.signOn, .getParameter, .loadAddress, .programFlashIsp, .readFlashIsp, .readFuseIsp, .spiMulti, .lockDisabled rfl⟩

/-! ### Well-formedness (30_encoding R83) -/

/-- The data of a payload fits what its size and its length admit. -/
theorem programOperandsWf_payload {c : Config} {p : List Byte} (hcap : 10 ≤ c.maxLen) (hp : p.length ≤ c.maxLen) :
    programOperandsWf c (payloadSize p) (payloadData p) = true := by
  cases hs : payloadSize p with
  | none => simp [programOperandsWf, payloadData, hs]
  | some n =>
    simp only [programOperandsWf, payloadData_of_size hs, List.length_take, List.length_drop, Bool.and_eq_true,
      decide_eq_true_eq]
    omega

/-- BUF[6] is read only when BUF[4] = 0x30 (30_encoding R94, R95). -/
theorem payloadSpiIndex_isNone_or (p : List Byte) : (payloadSpiIndex p).isNone || p[4]? == some 0x30 := by
  unfold payloadSpiIndex
  split
  · next read => simp [read]
  · rfl

theorem Selects.wellFormed {c : Config} {p : List Byte} {code : Byte} {i : Instr} (h : Selects c p code i)
    (hcap : 10 ≤ c.maxLen) (hp : p.length ≤ c.maxLen) : i.wellFormed c = true := by
  cases h with
  | programFlashIsp => exact programOperandsWf_payload hcap hp
  | programEepromIsp => exact programOperandsWf_payload hcap hp
  | programLockIsp enabled => exact enabled
  | lockDisabled disabled => simp [Instr.wellFormed, isCommandCode, disabled]
  | spiMulti => exact payloadSpiIndex_isNone_or p
  | unknown unlisted => simp [Instr.wellFormed, isCommandCode, unlisted]
  | _ => rfl

/-- Settles O3: the code has its row, and a legal buffer has room for the ten bytes before a programming command's data. -/
theorem decodedIsWellFormed : Obligations.DecodedIsWellFormed := by
  intro c p legal nonempty fits
  have hcap : 10 ≤ c.maxLen := by
    have := (legal_of c legal).cap
    rw [Config.maxLen]
    omega
  match p with
  | [] => cases nonempty
  | code :: args =>
    obtain ⟨i, h⟩ := exists_selects c (code :: args) code
    exact ⟨i, decode_cons_eq_ok_iff.2 h, h.wellFormed hcap fits⟩

/-! ### The operand readers over the encoder's payloads (30_encoding R87 to R89) -/

@[simp] theorem payloadSize_encodeRead (code : Byte) (size : Option Half) : payloadSize (encodeRead code size) = size := by
  cases size with
  | none => rfl
  | some n => simp [encodeRead, payloadSize, joinBytes_hiByte_loByte]

@[simp] theorem payloadSize_encodeProgram (code : Byte) (size : Option Half) (data : List Byte) :
    payloadSize (encodeProgram code size data) = size := by
  cases size with
  | none => rfl
  | some n => simp [encodeProgram, payloadSize, joinBytes_hiByte_loByte]

theorem payloadData_encodeProgram {c : Config} {size : Option Half} {data : List Byte} (code : Byte)
    (wf : programOperandsWf c size data = true) : payloadData (encodeProgram code size data) = data := by
  cases size with
  | none => simp_all [programOperandsWf, payloadData]
  | some n =>
    simp only [programOperandsWf, Bool.and_eq_true, decide_eq_true_eq] at wf
    rw [payloadData_of_size (payloadSize_encodeProgram code (some n) data)]
    exact List.take_of_length_le wf.1

theorem payloadAddress_encode (word : Option (BitVec 32)) : payloadAddress (encode (.loadAddress word)) = word := by
  cases word with
  | none => rfl
  | some w => exact congrArg some (joinBytes4_byteOf w)

/-- BUF[4] and BUF[6] of SPI_MULTI, of which the second is there only behind 0x30 (30_encoding R94, R95). -/
theorem payloadSpiIndex_encode {tx0 index : Option Byte} (wf : (index.isNone || tx0 == some 0x30) = true) :
    (encode (.spiMulti tx0 index))[4]? = tx0 ∧ payloadSpiIndex (encode (.spiMulti tx0 index)) = index := by
  match tx0, index with
  | none, none => exact ⟨rfl, rfl⟩
  | none, some _ => cases wf
  | some _, none => exact ⟨rfl, ite_self none⟩
  | some t, some _ =>
    obtain rfl : t = 0x30 := by simpa using wf
    exact ⟨rfl, rfl⟩

theorem selects_unknown_of_wellFormed {c : Config} {code : Byte} (p : List Byte)
    (wf : (Instr.unknown code).wellFormed c = true) : Selects c p code (.unknown code) := by
  by_cases listed : code ∈ commandCodes
  · obtain ⟨rfl, disabled⟩ : code = 0x19 ∧ c.lockProgEnabled = false := by
      simpa [Instr.wellFormed, isCommandCode, listed] using wf
    exact .lockDisabled disabled
  · exact .unknown listed

/-- Every encoding begins with its command's code (30_encoding R85). -/
theorem encode_head : (i : Instr) → Laws.EncodeHead.Statement i
  | .signOn => Laws.EncodeHead.signOn
  | .setParameter => Laws.EncodeHead.setParameter
  | .getParameter id => Laws.EncodeHead.getParameter id
  | .loadAddress word => Laws.EncodeHead.loadAddress word
  | .enterProgmodeIsp => Laws.EncodeHead.enterProgmodeIsp
  | .leaveProgmodeIsp => Laws.EncodeHead.leaveProgmodeIsp
  | .chipEraseIsp => Laws.EncodeHead.chipEraseIsp
  | .programFlashIsp size data => Laws.EncodeHead.programFlashIsp size data
  | .readFlashIsp size => Laws.EncodeHead.readFlashIsp size
  | .programEepromIsp size data => Laws.EncodeHead.programEepromIsp size data
  | .readEepromIsp size => Laws.EncodeHead.readEepromIsp size
  | .readFuseIsp cmds => Laws.EncodeHead.readFuseIsp cmds
  | .programLockIsp lockByte => Laws.EncodeHead.programLockIsp lockByte
  | .readLockIsp => Laws.EncodeHead.readLockIsp
  | .readSignatureIsp index => Laws.EncodeHead.readSignatureIsp index
  | .spiMulti tx0 index => Laws.EncodeHead.spiMulti tx0 index
  | .unknown code => Laws.EncodeHead.unknown code

/-- A well-formed command is the one its code selects, and its operands are the ones its encoding holds. -/
theorem decodeCommand_encode {c : Config} {i : Instr} (wf : i.wellFormed c = true) :
    decodeCommand c (commandCode i) (encode i) = i := by
  cases i with
  | getParameter id => cases id <;> rfl
  | loadAddress word => exact congrArg Instr.loadAddress (payloadAddress_encode word)
  | programFlashIsp size data =>
    exact congrArg₂ Instr.programFlashIsp (payloadSize_encodeProgram _ size data) (payloadData_encodeProgram _ wf)
  | readFlashIsp size => exact congrArg Instr.readFlashIsp (payloadSize_encodeRead _ size)
  | programEepromIsp size data =>
    exact congrArg₂ Instr.programEepromIsp (payloadSize_encodeProgram _ size data) (payloadData_encodeProgram _ wf)
  | readEepromIsp size => exact congrArg Instr.readEepromIsp (payloadSize_encodeRead _ size)
  | readFuseIsp cmds => cases cmds <;> rfl
  | programLockIsp lockByte => cases lockByte <;> exact (Selects.programLockIsp wf).decodeCommand_eq
  | readSignatureIsp index => cases index <;> rfl
  | spiMulti tx0 index =>
    obtain ⟨first, second⟩ := payloadSpiIndex_encode wf
    exact congrArg₂ Instr.spiMulti first second
  | unknown code => exact (selects_unknown_of_wellFormed _ wf).decodeCommand_eq
  | _ => rfl

/-- Settles O2: the encoding begins with the command's code, and the operand readers undo the encoder. -/
theorem decodeOfEncode : Obligations.DecodeOfEncode := by
  intro c i wf
  obtain ⟨args, hcons⟩ := encode_head i
  rw [hcons, decode_cons_eq_ok_iff, selects_iff, ← hcons, decodeCommand_encode wf]

/-! ### Bytes a command does not read (30_encoding R86, R87) -/

/-- The size depends on BUF[1] and BUF[2] alone. -/
theorem payloadSize_congr {p q : List Byte} (h1 : q[1]? = p[1]?) (h2 : q[2]? = p[2]?) :
    payloadSize q = payloadSize p := by
  have reads (r : List Byte) : payloadSize r = r[1]?.bind fun hi => r[2]?.map (joinBytes hi) := by
    match r with
    | [] | [_] | [_, _] => rfl
    | _ :: _ :: _ :: _ => rfl
  rw [reads, reads, h1, h2]

/-- The word address depends on BUF[1..4] alone. -/
theorem payloadAddress_congr {p q : List Byte} (h1 : q[1]? = p[1]?) (h2 : q[2]? = p[2]?) (h3 : q[3]? = p[3]?)
    (h4 : q[4]? = p[4]?) : payloadAddress q = payloadAddress p := by
  have reads (r : List Byte) : payloadAddress r =
      r[1]?.bind fun b3 => r[2]?.bind fun b2 => r[3]?.bind fun b1 => r[4]?.map (joinBytes4 b3 b2 b1) := by
    match r with
    | [] | [_] | [_, _] | [_, _, _] | [_, _, _, _] => rfl
    | _ :: _ :: _ :: _ :: _ :: _ => rfl
  rw [reads, reads, h1, h2, h3, h4]

/-- The fuse selector depends on BUF[2] and BUF[3] alone. -/
theorem payloadCmds_congr {p q : List Byte} (h2 : q[2]? = p[2]?) (h3 : q[3]? = p[3]?) :
    payloadCmds q = payloadCmds p := by
  have reads (r : List Byte) : payloadCmds r = r[2]?.bind fun cmd1 => r[3]?.map (Prod.mk cmd1) := by
    match r with
    | [] | [_] | [_, _] | [_, _, _] => rfl
    | _ :: _ :: _ :: _ :: _ => rfl
  rw [reads, reads, h2, h3]

/-- The signature index of SPI_MULTI depends on BUF[4] alone, and on BUF[6] when BUF[4] = 0x30. -/
theorem payloadSpiIndex_congr {p q : List Byte} (h4 : q[4]? = p[4]?) (h6 : p[4]? = some 0x30 → q[6]? = p[6]?) :
    payloadSpiIndex q = payloadSpiIndex p := by
  rw [payloadSpiIndex, payloadSpiIndex, h4]
  split
  · next read => exact h6 read
  · rfl

/-- The data depends on the size and on as many bytes behind the ten header bytes. -/
theorem payloadData_congr {p q : List Byte} {n : Half} (hp : payloadSize p = some n) (hq : payloadSize q = some n)
    (same : ∀ j < n.toNat, q[10 + j]? = p[10 + j]?) : payloadData q = payloadData p := by
  rw [payloadData_of_size hp, payloadData_of_size hq]
  apply List.ext_getElem?
  intro j
  simp only [List.getElem?_take, List.getElem?_drop]
  split
  · next hj => exact same j hj
  · rfl

/-- A programming command whose data is all there reads its size and its data alone. -/
theorem payloadSize_payloadData_congr {p q : List Byte}
    (complete : payloadSize p = some (BitVec.ofNat 16 (payloadData p).length) ∧ (payloadData p).length < 2 ^ 16)
    (same : ∀ k ∈ [0, 1, 2] ++ (List.range (payloadData p).length).map (10 + ·), q[k]? = p[k]?) :
    payloadSize q = payloadSize p ∧ payloadData q = payloadData p := by
  obtain ⟨size, bound⟩ := complete
  have hn : (BitVec.ofNat 16 (payloadData p).length).toNat = (payloadData p).length := Nat.mod_eq_of_lt bound
  have hs : payloadSize q = payloadSize p := payloadSize_congr (same 1 (by simp)) (same 2 (by simp))
  refine ⟨hs, payloadData_congr size (hs.trans size) fun j hj => same (10 + j) ?_⟩
  rw [hn] at hj
  exact List.mem_append_right _ (List.mem_map_of_mem (List.mem_range.2 hj))

/-- A payload with the same bytes at the indices a command reads selects the same command. -/
theorem Selects.of_same_reads {c : Config} {p q : List Byte} {code : Byte} {i : Instr} (h : Selects c p code i)
    (complete : isComplete i) (same : ∀ k ∈ readIndices i, q[k]? = p[k]?) : Selects c q code i := by
  cases h with
  | getParameter =>
    rw [← same 1 (by simp [readIndices])]
    exact .getParameter
  | loadAddress =>
    rw [← payloadAddress_congr (same 1 (by simp [readIndices])) (same 2 (by simp [readIndices]))
      (same 3 (by simp [readIndices])) (same 4 (by simp [readIndices]))]
    exact .loadAddress
  | programFlashIsp =>
    obtain ⟨size, data⟩ := payloadSize_payloadData_congr complete same
    rw [← size, ← data]
    exact .programFlashIsp
  | readFlashIsp =>
    rw [← payloadSize_congr (same 1 (by simp [readIndices])) (same 2 (by simp [readIndices]))]
    exact .readFlashIsp
  | programEepromIsp =>
    obtain ⟨size, data⟩ := payloadSize_payloadData_congr complete same
    rw [← size, ← data]
    exact .programEepromIsp
  | readEepromIsp =>
    rw [← payloadSize_congr (same 1 (by simp [readIndices])) (same 2 (by simp [readIndices]))]
    exact .readEepromIsp
  | readFuseIsp =>
    rw [← payloadCmds_congr (same 2 (by simp [readIndices])) (same 3 (by simp [readIndices]))]
    exact .readFuseIsp
  | programLockIsp enabled =>
    rw [← same 4 (by simp [readIndices])]
    exact .programLockIsp enabled
  | readSignatureIsp =>
    rw [← same 4 (by simp [readIndices])]
    exact .readSignatureIsp
  | spiMulti =>
    have h4 : q[4]? = p[4]? := same 4 (by simp only [readIndices]; split <;> simp)
    rw [← h4, ← payloadSpiIndex_congr h4 fun read => same 6 (by simp [readIndices, read])]
    exact .spiMulti
  | lockDisabled disabled => exact .lockDisabled disabled
  | unknown unlisted => exact .unknown unlisted
  | _ => constructor

theorem zero_mem_readIndices (i : Instr) : 0 ∈ readIndices i := by
  cases i with
  | spiMulti => simp only [readIndices]; split <;> simp
  | _ => simp [readIndices]

/-- Settles O4: the other payload has the same code, and its operands are the same. -/
theorem unreadBytesIgnored : Obligations.UnreadBytesIgnored := by
  intro c p q i hp complete same
  have first := same 0 (zero_mem_readIndices i)
  match p, q with
  | [], _ => cases hp
  | _ :: _, [] => cases first
  | code :: args, _ :: _ =>
    obtain rfl := Option.some.inj first
    exact decode_cons_eq_ok_iff.2 ((decode_cons_eq_ok_iff.1 hp).of_same_reads complete same)

/-! ### MINLEN and the malformed payloads (30_encoding R87, 41_dispatch R141) -/

theorem minLen_of_not_mem {code : Byte} {args : List Byte} (h : code ∉ commandCodes) : minLen (code :: args) = 1 := by
  simp [minLen, toNat_ne_of_not_mem_commandCodes h]

theorem malformedPayload_of_not_mem {c : Config} {addr : Addr} {code : Byte} {args : List Byte} (h : code ∉ commandCodes) :
    ¬ malformedPayload c addr (code :: args) := by
  simp [malformedPayload, minLen, toNat_ne_of_not_mem_commandCodes h]

theorem Selects.commandCode_eq {c : Config} {p : List Byte} {code : Byte} {i : Instr} (h : Selects c p code i) :
    commandCode i = code := by
  cases h <;> rfl

/-- An operand byte is absent when LEN is below its index + 1. -/
theorem getElem?_eq_none_iff_lt {p : List Byte} {k : Nat} : p[k]? = none ↔ p.length < k + 1 :=
  List.getElem?_eq_none_iff.trans Nat.lt_succ_iff.symm

/-- SPI_MULTI lacks an operand below the MINLEN its first transmitted byte gives it (30_encoding R94, R95). -/
theorem spiMulti_absent_iff {p : List Byte} :
    p[4]? = none ∨ p[4]? = some 0x30 ∧ payloadSpiIndex p = none ↔ p.length < if p[4]? = some 0x30 then 7 else 5 := by
  unfold payloadSpiIndex
  split
  · next read => simp only [read, reduceCtorEq, true_and, false_or, getElem?_eq_none_iff_lt]
  · next read => rw [or_iff_left fun h => read h.1, getElem?_eq_none_iff_lt]

theorem Selects.operandAbsent_iff {c : Config} {code : Byte} {args : List Byte} {i : Instr}
    (h : Selects c (code :: args) code i) (lock : code = 0x19 → c.lockProgEnabled = true) :
    operandAbsent i ↔ (code :: args).length < minLen (code :: args) := by
  cases h with
  | getParameter => exact getElem?_eq_none_iff_lt
  | loadAddress => exact payloadAddress_eq_none
  | programFlashIsp => exact payloadSize_eq_none
  | readFlashIsp => exact payloadSize_eq_none
  | programEepromIsp => exact payloadSize_eq_none
  | readEepromIsp => exact payloadSize_eq_none
  | readFuseIsp => exact payloadCmds_eq_none
  | programLockIsp => exact getElem?_eq_none_iff_lt
  | readSignatureIsp => exact getElem?_eq_none_iff_lt
  | spiMulti => exact spiMulti_absent_iff
  | lockDisabled disabled => cases disabled.symm.trans (lock rfl)
  | unknown unlisted => simp [operandAbsent, minLen_of_not_mem unlisted]
  | _ => simp [operandAbsent, minLen]

/-- Data behind a size that is not 0 is cut short exactly by a payload that ends before it. -/
theorem payloadData_short_iff {p : List Byte} {n : Half} (hs : payloadSize p = some n) (h0 : n.toNat ≠ 0) :
    (payloadData p).length < n.toNat ↔ p.length < 10 + n.toNat := by
  rw [payloadData_of_size hs, List.length_take, List.length_drop]
  omega

/-- A check on the size of a payload, failed by a size that is not there: its MINLEN is 3 (30_encoding R87, R88). -/
theorem malformedSize_iff {p : List Byte} {P : Prop} (M : Option Half → Prop) (absent : M none)
    (present : ∀ n, payloadSize p = some n → n.toNat = sizeNumber p → (M (some n) ↔ P)) :
    M (payloadSize p) ↔ p.length < 3 ∨ P := by
  cases hs : payloadSize p with
  | none => exact iff_of_true absent (.inl (payloadSize_eq_none.1 hs))
  | some n =>
    obtain ⟨hlen, number⟩ := payloadSize_eq_some hs
    rw [present n hs number, or_iff_right (Nat.not_lt.2 hlen)]

/-- The operand checks over LEN and BUF (41_dispatch R141): MINLEN, and for the memory commands the checks on the size. -/
theorem Selects.isMalformed_iff {c : Config} {code : Byte} {args : List Byte} {i : Instr}
    (h : Selects c (code :: args) code i) (lock : code = 0x19 → c.lockProgEnabled = true) (addr : Addr) :
    isMalformed c addr i ↔ malformedPayload c addr (code :: args) := by
  have absent := h.operandAbsent_iff lock
  cases h with
  | programFlashIsp =>
    exact malformedSize_iff (fun size => isMalformed c addr (.programFlashIsp size (payloadData _))) trivial
      fun n hs number => number ▸ or_congr_right' fun h0 =>
        or_congr_right (or_congr_right (payloadData_short_iff hs h0))
  | programEepromIsp =>
    exact malformedSize_iff (fun size => isMalformed c addr (.programEepromIsp size (payloadData _))) trivial
      fun n hs number => number ▸ or_congr_right' fun h0 => payloadData_short_iff hs h0
  | readFlashIsp =>
    exact malformedSize_iff (fun size => isMalformed c addr (.readFlashIsp size)) trivial
      fun n _ number => number ▸ Iff.rfl
  | readEepromIsp =>
    exact malformedSize_iff (fun size => isMalformed c addr (.readEepromIsp size)) trivial
      fun n _ number => number ▸ Iff.rfl
  | lockDisabled disabled => cases disabled.symm.trans (lock rfl)
  | unknown unlisted => exact iff_of_false id (malformedPayload_of_not_mem unlisted)
  | _ => exact absent.trans (or_false _).symm.to_iff

/-- A programming command's operands are the payload's. -/
theorem Selects.program_operands {c : Config} {p : List Byte} {code : Byte} {i : Instr} (h : Selects c p code i) {n : Half}
    {data : List Byte} (hi : i = .programFlashIsp (some n) data ∨ i = .programEepromIsp (some n) data) :
    payloadSize p = some n ∧ payloadData p = data := by
  cases h with
  | programFlashIsp => simpa using hi
  | programEepromIsp => simpa using hi
  | _ => simp at hi

/-- A reading command's size is the payload's. -/
theorem Selects.read_operand {c : Config} {p : List Byte} {code : Byte} {i : Instr} (h : Selects c p code i) {n : Half}
    (hi : i = .readFlashIsp (some n) ∨ i = .readEepromIsp (some n)) : payloadSize p = some n := by
  cases h with
  | readFlashIsp => simpa using hi
  | readEepromIsp => simpa using hi
  | _ => simp at hi

/-- Settles O59: the row the code selects, and what each operand reader says of LEN and BUF. -/
theorem operandsAbsentBelowMinLen : Obligations.OperandsAbsentBelowMinLen := by
  intro c p nonempty lock
  match p with
  | [] => cases nonempty rfl
  | code :: args =>
    have lock' : code = 0x19 → c.lockProgEnabled = true := fun e => lock (congrArg some e)
    obtain ⟨i, h⟩ := exists_selects c (code :: args) code
    refine ⟨i, decode_cons_eq_ok_iff.2 h, congrArg some h.commandCode_eq, h.operandAbsent_iff lock', fun n data hi => ?_,
      fun n hi => (payloadSize_eq_some (h.read_operand hi)).2, h.isMalformed_iff lock'⟩
    obtain ⟨size, rfl⟩ := h.program_operands hi
    exact ⟨(payloadSize_eq_some size).2, payloadData_short_iff size, payloadData_of_size size⟩

end Sys2Proof.Machine
end

section
/-! SUPPORT. The parser over a whole frame (30_encoding R80 to R84, 40_frame_parser R111 to R117). -/

namespace Sys2Proof.Machine

/-- The state after an accepted header and its whole payload, before the checksum byte. -/
def State.afterPayload (s : State) (seq : Byte) (payload : List Byte) (rest : List RxEvent) : State :=
  { s with
    rx := rest
    seq := seq
    len := BitVec.ofNat 16 payload.length
    buf := bufPut s.buf 0 payload
    ck := xorAll (frameHeader seq (BitVec.ofNat 16 payload.length) ++ payload)
    idx := BitVec.ofNat 16 payload.length
    control := .awaitChecksum }

/-- The length field of a payload a frame can carry holds the payload's length (30_encoding R83). -/
theorem lengthField_toNat {c : Config} {payload : List Byte} (fits : payload.length ≤ c.maxLen) :
    (BitVec.ofNat 16 payload.length).toNat = payload.length ∧ payload.length ≤ c.cap := by
  rw [Config.maxLen] at fits
  rw [BitVec.toNat_ofNat]
  omega

/-- The whole frame but its checksum byte, taken from AwaitStart. -/
theorem header_payload_run {s : State} {seq : Byte} {payload : List Byte} {rest : List RxEvent}
    (legal : configLegal s.cfg = true) (buffer : s.buf.length = s.cfg.cap) (hc : s.control = .awaitStart)
    (hs : seq = 1 ∨ seq = s.seq) (nonempty : 1 ≤ payload.length) (fits : payload.length ≤ s.cfg.maxLen)
    (hx : s.rx = (frameHeader seq (BitVec.ofNat 16 payload.length) ++ payload).map RxEvent.byte ++ rest) :
    steps (5 + payload.length) s = .next (s.afterPayload seq payload rest) := by
  obtain ⟨field, room⟩ := lengthField_toNat fits
  rw [List.map_append, List.append_assoc] at hx
  rw [steps_add (header_run legal hc hs (by omega) (by omega) hx)]
  refine (payload_run (s := s.afterHeader seq _ (payload.map RxEvent.byte ++ rest)) legal rfl buffer (List.ne_nil_of_length_pos nonempty) ?_ ?_ rfl).trans ?_
  · simp [State.afterHeader]; omega
  · simp [State.afterHeader]; omega
  · simp [State.afterHeader, State.afterPayload, xorAll_append]

/-- The checksum byte, right or wrong (40_frame_parser R117). -/
theorem step_checksum {s : State} {b : Byte} {rest : List RxEvent} (legal : configLegal s.cfg = true)
    (hc : s.control = .awaitChecksum) (hx : s.rx = .byte b :: rest) :
    step s = .next { s with rx := rest, control := if b = s.ck then .frameReady else .awaitStart } := by
  rw [step_byte legal (by rw [hc]; trivial) hx, receiveByte, hc]
  simp only [awaitChecksumByte]
  split <;> rfl

/-- A frame with any checksum byte, taken from AwaitStart: accepted exactly when the byte is the XOR of the others
(30_encoding R82). -/
theorem frame_run {s : State} {seq b : Byte} {payload : List Byte} {rest : List RxEvent} (legal : configLegal s.cfg = true)
    (buffer : s.buf.length = s.cfg.cap) (hc : s.control = .awaitStart) (hs : seq = 1 ∨ seq = s.seq)
    (nonempty : 1 ≤ payload.length) (fits : payload.length ≤ s.cfg.maxLen)
    (hx : s.rx = (frameHeader seq (BitVec.ofNat 16 payload.length) ++ payload ++ [b]).map RxEvent.byte ++ rest) :
    steps (payload.length + 6) s = .next { s.afterPayload seq payload rest with
      control := if b = xorAll (frameHeader seq (BitVec.ofNat 16 payload.length) ++ payload) then .frameReady
        else .awaitStart } := by
  rw [List.map_append, List.append_assoc] at hx
  have front := header_payload_run legal buffer hc hs nonempty fits hx
  have last := step_checksum (s := s.afterPayload seq payload ([b].map .byte ++ rest)) legal rfl rfl
  rw [show payload.length + 6 = 5 + payload.length + 1 by omega, steps_add front, steps, last]
  rfl

/-- Settles O16: the checksum byte of `encodeFrame` is the XOR of the others. -/
theorem validFrameReachesFrameReady : Obligations.ValidFrameReachesFrameReady := by
  intro s seq payload rest legal buffer hc hs nonempty fits hx
  obtain ⟨field, -⟩ := lengthField_toNat fits
  refine ⟨_, frame_run legal buffer hc hs nonempty fits hx, if_pos rfl, rfl, field, ?_, rfl, rfl, rfl, rfl, rfl⟩
  simp only [State.payload, State.afterPayload, field, bufPut_zero_take]

end Sys2Proof.Machine
end

section
/-! SUPPORT. The frame parser byte by byte: what each receive state does with its byte, what no step outside FrameReady
touches, where the input goes, and the coverage of the checksum register (40_frame_parser R110 to R126). -/

namespace Sys2Proof.Machine

/-! ### One byte in each receive state -/

/-- The rule of receive state `c` takes the byte. -/
theorem step_byte_in {s : State} {c : Control} {b : Byte} {rest : List RxEvent} (legal : configLegal s.cfg = true)
    (hc : s.control = c) (hr : c.receiving) (hx : s.rx = .byte b :: rest) :
    step s = receiveByte b { s with rx := rest, control := c } := by
  subst hc
  exact step_byte legal hr hx

theorem seqAccepted_iff (seq b : Byte) : seqAccepted seq b = true ↔ b = 1 ∨ b = seq := by
  simp [seqAccepted]

theorem lenAccepted_iff (c : Config) (len : Half) : lenAccepted c len = true ↔ 1 ≤ len.toNat ∧ len.toNat ≤ c.cap := by
  simp [lenAccepted]

/-- Settles O9: `awaitStartByte` at START and elsewhere. -/
theorem awaitStartRule : Obligations.AwaitStartRule := by
  intro s b rest legal hc hx
  have hs := step_byte_in legal hc trivial hx
  exact ⟨fun h => hs.trans (if_pos h), fun h => hs.trans (if_neg h)⟩

/-- Settles O10: `awaitSequenceByte` at an accepted byte and elsewhere. -/
theorem awaitSequenceRule : Obligations.AwaitSequenceRule := by
  intro s b rest legal hc hx
  have hs := step_byte_in legal hc trivial hx
  refine ⟨fun h => hs.trans (if_pos ((seqAccepted_iff _ _).2 h)), fun h1 hseq => hs.trans (if_neg ?_)⟩
  rw [seqAccepted_iff]
  exact not_or_intro h1 hseq

/-- The two halves of LEN as numbers (30_encoding R83). -/
theorem joinBytes_eq_ofNat (hi lo : Byte) : joinBytes hi lo = BitVec.ofNat 16 (256 * hi.toNat + lo.toNat) :=
  flashWord_eq lo hi

/-- The first length byte (40_frame_parser R113). -/
theorem step_lengthHigh {s : State} {b : Byte} {rest : List RxEvent} (legal : configLegal s.cfg = true)
    (hc : s.control = .awaitLengthHigh) (hx : s.rx = .byte b :: rest) :
    step s = .next { s with rx := rest, len := joinBytes b 0, ck := s.ck ^^^ b, control := .awaitLengthLow } := by
  rw [← setWidth_shiftLeft_eq_joinBytes]
  exact step_byte_in legal hc trivial hx

/-- The second length byte (40_frame_parser R114). -/
theorem step_lengthLow {s : State} {b : Byte} {rest : List RxEvent} (legal : configLegal s.cfg = true)
    (hc : s.control = .awaitLengthLow) (hx : s.rx = .byte b :: rest) :
    step s = .next { s with rx := rest, len := s.len ||| b.setWidth 16, ck := s.ck ^^^ b, control := .awaitToken } :=
  step_byte_in legal hc trivial hx

/-- Two steps in a row. -/
theorem steps_two {s t u : State} (first : step s = .next t) (second : step t = .next u) : steps 2 s = .next u := by
  simp only [steps, first, second]

/-- Settles O11: each length byte, and the high byte's LEN completed by the low byte. -/
theorem lengthBytesRule : Obligations.LengthBytesRule := by
  refine ⟨fun s b rest legal hc hx => ?_, fun s b rest legal hc hx => ?_, fun s hi lo rest legal hc hx => ?_⟩
  · rw [step_lengthHigh legal hc hx, joinBytes_eq_ofNat]
    rfl
  · rw [BitVec.ofNat_toNat]
    exact step_lengthLow legal hc hx
  · rw [← joinBytes_eq_ofNat, ← joinBytes_zero_or]
    exact steps_two (step_lengthHigh legal hc hx) (step_lengthLow legal rfl rfl)

/-- Settles O12: `awaitTokenByte` at TOKEN with a length the buffer holds, and elsewhere. -/
theorem awaitTokenRule : Obligations.AwaitTokenRule := by
  intro s b rest legal hc hx
  have hs := step_byte_in legal hc trivial hx
  rw [← lenAccepted_iff]
  exact ⟨fun h => hs.trans (if_pos h), fun h => hs.trans (if_neg h)⟩

/-- Settles O13: `awaitPayloadByte` with IDX inside the buffer, and outside it. -/
theorem awaitPayloadRule : Obligations.AwaitPayloadRule := by
  intro s b rest legal hc hx
  have hs := step_byte_in legal hc trivial hx
  exact ⟨fun h => hs.trans (if_pos h), fun h => hs.trans (if_neg (Nat.not_lt.2 h))⟩

/-- Settles O14: `step_checksum`, for the right byte and for a wrong one. -/
theorem awaitChecksumRule : Obligations.AwaitChecksumRule := by
  intro s b rest legal hc hx
  rw [step_checksum legal hc hx]
  exact ⟨fun h => by rw [if_pos h], fun h => by rw [if_neg h]⟩

/-- Settles O17: `frame_run` with a byte that is not the XOR of the others. -/
theorem corruptChecksumIsSilent : Obligations.CorruptChecksumIsSilent := by
  intro s seq bad payload rest legal buffer hc hs nonempty fits wrong hx
  exact ⟨_, frame_run legal buffer hc hs nonempty fits hx, if_neg wrong, rfl, rfl, rfl, rfl, rfl, rfl⟩

/-! ### The execute step, and the states without a step -/

/-- An execute step runs the decoded command behind the losses (40_frame_parser R118). -/
theorem step_of_decode {s : State} {i : Instr} (legal : configLegal s.cfg = true) (hc : s.control = .frameReady)
    (hd : decode s.cfg s.payload = .ok i) : step s = exec i s.loseBytes := by
  rw [step_of_legal legal, blockStep_frameReady hc, executeStep, State.loseBytes_cfg, State.loseBytes_payload, hd]

/-- The losses of the execute step that comes next. -/
theorem State.loseBytes_of_cons {s : State} {now : List Bool} {later : List (List Bool)} (h : s.losses = now :: later) :
    s.loseBytes = { s with rx := dropLost now s.rx, losses := later } := by
  rw [State.loseBytes, h]

/-- Settles O6: `step_of_decode` without losses and with them. -/
theorem stepRunsDecodedCommand : Obligations.StepRunsDecodedCommand := by
  intro s i legal hc hd
  have hs := step_of_decode legal hc hd
  exact ⟨fun noLosses => by rw [hs, State.loseBytes_of_nil s noLosses],
    fun now later losses => by rw [hs, State.loseBytes_of_cons losses]⟩

/-- Settles O8: an exhausted input, and Exited. -/
theorem noEnabledStepKeepsState : Obligations.NoEnabledStepKeepsState := by
  intro s legal h
  rw [step_of_legal legal]
  rcases h with ⟨receiving, exhausted⟩ | exited
  · rw [blockStep_receiving receiving, receiveStep, exhausted]
  · exact blockStep_exited exited

/-! ### What a step outside FrameReady leaves alone -/

/-- From `s` to `t` the block sent nothing, made no request and wrote none of the registers that only an execute step
writes (40_frame_parser R122). -/
structure Silent (s t : State) : Prop where
  tx : t.tx = s.tx
  port : t.port = s.port
  addr : t.addr = s.addr
  rlen : t.rlen = s.rlen
  epage : t.epage = s.epage
  cfg : t.cfg = s.cfg
  losses : t.losses = s.losses

/-- A byte writes `state`, SEQ, CK, LEN, IDX and BUF alone; the input behind it stays as it is. -/
theorem receiveByte_silent {b : Byte} {s t : State} (h : receiveByte b s = .next t) (hr : s.control.receiving) :
    Silent s t ∧ t.rx = s.rx := by
  rcases receiveByte_next h hr with rfl | ⟨-, -, rfl⟩ | ⟨-, -, rfl⟩ | ⟨-, rfl⟩ | ⟨-, rfl⟩ | ⟨-, -, -, -, rfl⟩ | ⟨-, -, rfl⟩
    | ⟨-, -, rfl⟩
  all_goals exact ⟨⟨rfl, rfl, rfl, rfl, rfl, rfl, rfl⟩, rfl⟩

/-- A step in a receive state: silent, and it takes the first event if there is one (40_frame_parser R110, R122). -/
theorem step_receiving {s t : State} (hr : s.control.receiving) (h : step s = .next t) :
    Silent s t ∧ t.rx = s.rx.tail := by
  obtain ⟨notReady, notExited⟩ := Control.receiving_ne hr
  rcases (step_next h).2 with ⟨hc, -⟩ | ⟨hc, -⟩ | ⟨-, hx, rfl⟩ | ⟨-, b, rest, hx, hb⟩ | ⟨-, rest, hx, -, rfl⟩
  · exact absurd hc notExited
  · exact absurd hc notReady
  · exact ⟨⟨rfl, rfl, rfl, rfl, rfl, rfl, rfl⟩, by rw [hx, List.tail_nil]⟩
  · obtain ⟨silent, rx⟩ := receiveByte_silent hb hr
    exact ⟨{ silent with }, by rw [rx, hx, List.tail_cons]⟩
  · exact ⟨⟨rfl, rfl, rfl, rfl, rfl, rfl, rfl⟩, by rw [hx, List.tail_cons]⟩

/-- Exited has no step of its own (40_frame_parser R121). -/
theorem step_exited {s t : State} (hc : s.control = .exited) (h : step s = .next t) : t = s := by
  rw [step_of_legal (step_next h).1, blockStep_exited hc] at h
  cases h
  rfl

/-- Settles O20: the receive states by `step_receiving`; in Exited the state is the same. -/
theorem receiveStepsAreSilent : Obligations.ReceiveStepsAreSilent := by
  intro s t notReady h
  rcases Control.cases s.control with hr | hc | hc
  · obtain ⟨⟨tx, port, addr, rlen, epage, cfg, losses⟩, -⟩ := step_receiving hr h
    exact ⟨tx, port, addr, rlen, epage, cfg, losses⟩
  · exact absurd hc notReady
  · rw [step_exited hc h]
    exact ⟨rfl, rfl, rfl, rfl, rfl, rfl, rfl⟩

/-! ### What a command does to the parser's part of the state -/

/-- A command takes no input. -/
theorem exec_rx {i : Instr} {s t : State} (h : exec i s = .next t) : t.rx = s.rx := by
  obtain ⟨s1, bs, work, hreply, -⟩ := exec_next h
  rw [reply_eq_next hreply]
  exact work.prepared.rx

/-- A command that completes steps SEQ and ends where LEAVE says (44_reply_encoder R224 to R226). -/
theorem exec_afterReply {i : Instr} {s t : State} (h : exec i s = .next t) :
    t.seq = s.seq + 1 ∧ t.control = controlAfterReply t.leave ∧ t.cfg = s.cfg := by
  obtain ⟨s1, bs, work, hreply, -⟩ := exec_next h
  rw [reply_eq_next hreply]
  exact ⟨congrArg (· + 1) work.prepared.seq, rfl, work.prepared.cfg⟩

/-- An execute step loses what the environment loses meanwhile, and nothing else of the input (70_reset R276). -/
theorem step_frameReady_rx {s t : State} (hc : s.control = .frameReady) (h : step s = .next t) :
    t.rx = dropLost (s.losses.headD []) s.rx := by
  rcases (step_next h).2 with ⟨hx, -⟩ | ⟨-, i, -, he⟩ | ⟨hr, -⟩ | ⟨hr, -⟩ | ⟨hr, -⟩
  · rw [hc] at hx; cases hx
  · rw [exec_rx he, State.loseBytes_rx]
  all_goals exact absurd hc (Control.receiving_ne hr).1

/-- Settles O21: where the input goes in each kind of control state. -/
theorem eachEventConsumedOnce : Obligations.EachEventConsumedOnce := by
  intro s t h
  refine ⟨fun hr => (step_receiving hr h).2, fun hc => step_exited hc h, fun hc => step_frameReady_rx hc h, ?_⟩
  rcases Control.cases s.control with hr | hc | hc
  · rw [(step_receiving hr h).2]
    exact List.tail_sublist _
  · rw [step_frameReady_rx hc h]
    exact dropLost_sublist _ _
  · rw [step_exited hc h]

/-- A frame with a sequence byte that is not accepted ends at that byte (40_frame_parser R111, R112). -/
theorem rejected_sequence_run {s : State} {b : Byte} {rest : List RxEvent} (legal : configLegal s.cfg = true)
    (hc : s.control = .awaitStart) (hx : s.rx = .byte START :: .byte b :: rest) (h1 : b ≠ 1) (hseq : b ≠ s.seq) :
    steps 2 s = .next { s with rx := rest, ck := START, control := .awaitStart } :=
  steps_two ((awaitStartRule s START _ legal hc hx).1 rfl)
    ((awaitSequenceRule { s with rx := .byte b :: rest, ck := START, control := .awaitSequence } b rest legal rfl rfl).2
      h1 hseq)

/-- Settles O58: SEQ is one higher after the reply, so the old sequence byte is not accepted. -/
theorem executedFrameSentAgainIsRejected : Obligations.ExecutedFrameSentAgainIsRejected := by
  intro i s t u rest legal hseq leaveClear h hu
  subst hu
  obtain ⟨seq, control, cfg⟩ := exec_afterReply h
  rw [leaveClear] at control
  have outdated : s.seq ≠ t.seq := by rw [seq]; bv_omega
  exact ⟨_, rejected_sequence_run (by rw [cfg]; exact legal) control rfl hseq outdated, rfl, seq, rfl, rfl, rfl⟩

/-! ### The coverage of CK -/

/-- A byte that CK takes is one more byte it covers. -/
theorem ck_takes {ck : Byte} {covered : List Byte} (h : ck = xorAll covered) (b : Byte) :
    ck ^^^ b = xorAll (covered ++ [b]) := by
  rw [xorAll_append_single, h]

/-- A byte stored at index `n` is the last of the first `n + 1`. -/
theorem take_set_succ {buf : List Byte} {n : Nat} (h : n < buf.length) (b : Byte) :
    (buf.set n b).take (n + 1) = buf.take n ++ [b] := by
  rw [List.take_add_one, List.getElem?_set_self h, List.take_set_of_le (le_refl n)]
  rfl

/-- CK after a payload byte, over the payload taken so far (40_frame_parser R116). -/
theorem ck_takes_payload {s : State} (buffer : s.buf.length = s.cfg.cap) (hi : s.idx.toNat < s.cfg.cap)
    (cover : s.ck = xorAll (frameHeader s.seq s.len ++ s.buf.take s.idx.toNat)) (b : Byte) :
    s.ck ^^^ b = xorAll (frameHeader s.seq s.len ++ (s.buf.set s.idx.toNat b).take (s.idx.toNat + 1)) := by
  rw [take_set_succ (buffer ▸ hi), ← List.append_assoc]
  exact ck_takes cover b

/-- A byte in a receive state keeps the coverage: CK takes each byte the frame takes (40_frame_parser R111 to R117). -/
theorem receiveByte_covers {b : Byte} {s t : State} (h : receiveByte b s = .next t) (hr : s.control.receiving)
    (buffer : s.buf.length = s.cfg.cap) (lengths : lengthsOk s) (cover : ckCoversFrame s) : ckCoversFrame t := by
  rcases receiveByte_next h hr with rfl | ⟨hc, -, rfl⟩ | ⟨hc, -, rfl⟩ | ⟨hc, rfl⟩ | ⟨hc, rfl⟩ | ⟨hc, rfl, -, -, rfl⟩
    | ⟨hc, hi, rfl⟩ | ⟨hc, -, rfl⟩
  · exact trivial
  all_goals simp only [ckCoversFrame, lengthsOk, hc] at cover lengths
  · rfl
  · exact ck_takes (covered := [START]) cover b
  · change _ = xorAll [START, s.seq, hiByte (b.setWidth 16 <<< 8)]
    rw [setWidth_shiftLeft_eq_joinBytes, hiByte_joinBytes]
    exact ck_takes cover b
  · change _ = xorAll [START, s.seq, hiByte (s.len ||| b.setWidth 16), loByte (s.len ||| b.setWidth 16)]
    rw [or_setWidth_of_loByte _ _ lengths, hiByte_joinBytes, loByte_joinBytes]
    exact ck_takes cover b
  · exact ck_takes cover TOKEN
  · obtain ⟨-, -, inPayload⟩ := lengths
    have taken := ck_takes_payload buffer hi cover b
    rw [← idx_succ_toNat inPayload] at taken
    by_cases last : s.idx + 1 = s.len
    · rw [last] at taken
      simpa only [ckCoversFrame, if_pos last, State.payload] using taken
    · simpa only [ckCoversFrame, if_neg last] using taken
  · exact cover

/-- After a command no frame is on its way. -/
theorem exec_covers {i : Instr} {s t : State} (h : exec i s = .next t) : ckCoversFrame t := by
  obtain ⟨-, control, -⟩ := exec_afterReply h
  cases hl : t.leave <;> simp [ckCoversFrame, control, hl, controlAfterReply]

/-- Settles O18, by the cases of a step. -/
theorem checksumCoverageKept : Obligations.ChecksumCoverageKept := by
  intro s t inv cover h
  rcases (step_next h).2 with ⟨-, rfl⟩ | ⟨-, i, -, he⟩ | ⟨-, -, rfl⟩ | ⟨hr, b, rest, hx, hb⟩ | ⟨-, rest, -, -, rfl⟩
  · exact cover
  · exact exec_covers he
  · exact cover
  · exact receiveByte_covers hb hr inv.buffer inv.lengths cover
  · exact trivial

/-- Only CK's byte in AwaitChecksum makes a frame ready (40_frame_parser R117). -/
theorem receiveByte_frameReady {b : Byte} {s t : State} (h : receiveByte b s = .next t) (hr : s.control.receiving)
    (ht : t.control = .frameReady) : b = t.ck := by
  rcases receiveByte_next h hr with rfl | ⟨-, -, rfl⟩ | ⟨-, -, rfl⟩ | ⟨-, rfl⟩ | ⟨-, rfl⟩ | ⟨-, -, -, -, rfl⟩ | ⟨-, -, rfl⟩
    | ⟨-, hb, rfl⟩
  any_goals cases ht
  · split at ht <;> cases ht
  · exact hb

/-- Settles O19: the byte is CK, which covers the whole frame then. -/
theorem readyFrameChecksumLaw : Obligations.ReadyFrameChecksumLaw := by
  intro s t inv cover notReady h ht
  have covered : t.ck = xorAll (frameHeader t.seq t.len ++ t.payload) := by
    simpa only [ckCoversFrame, ht] using checksumCoverageKept s t inv cover h
  rcases (step_next h).2 with ⟨-, rfl⟩ | ⟨hc, -⟩ | ⟨-, -, rfl⟩ | ⟨hr, b, rest, hx, hb⟩ | ⟨-, rest, -, -, rfl⟩
  · exact absurd ht notReady
  · exact absurd hc notReady
  · exact absurd ht notReady
  · exact ⟨b, rest, hx, (receiveByte_frameReady hb hr ht).trans covered⟩
  · cases ht

end Sys2Proof.Machine
end

section
/-! SUPPORT. The dispatcher's session commands and malformed operands: the reply that changes nothing else, and exactly which
commands the operand checks stop (41_dispatch R141 to R150; 60_exceptions R242, R244). -/

namespace Sys2Proof.Machine

/-! ### Replies with no other effect -/

/-- A reply to the command in BUF with nothing done before it. -/
theorem reply_only {s : State} {code : Byte} (hc : s.buf.head? = some code) (bs : List Byte) :
    ∃ t, reply bs s = .next t ∧ Replied s t (code :: bs) ∧ SameSession s t ∧ t.port = s.port := by
  obtain ⟨t, outcome, replied, addr, leave, epage, port⟩ := reply_replied (.refl s) hc bs
  exact ⟨t, outcome, replied, ⟨addr, leave, epage⟩, port⟩

/-- Settles O30: `reply_only` with the identification string. -/
theorem signOnReplies : Obligations.SignOnReplies := fun _ hc => reply_only hc (STATUS_OK :: 0x08 :: SIGNON_ID)

/-- Settles O31: each command is the reply of its status alone. -/
theorem noOpCommandsReplyOk : Obligations.NoOpCommandsReplyOk := fun _ =>
  ⟨fun hc => reply_only hc [STATUS_OK], fun hc => reply_only hc [STATUS_OK], fun hc => reply_only hc [STATUS_OK]⟩

/-- Settles O34: the reply of the failed status, which no policy is asked for. -/
theorem unknownRepliesFailed : Obligations.UnknownRepliesFailed := fun _ _ hc => reply_only hc [STATUS_FAILED]

/-! ### Parameters and the session's end -/

theorem parameterValue_of_lookup_some {c : Config} {id v : Byte} (h : c.paramTable.lookup id = some v) :
    parameterValue c id = v := by rw [parameterValue, h]

theorem parameterValue_of_lookup_none {c : Config} {id : Byte} (h : c.paramTable.lookup id = none) :
    parameterValue c id = c.paramDefault := by rw [parameterValue, h]

/-- Settles O32: the reply carries `parameterValue`, whose two cases are the table's. -/
theorem getParameterReplies : Obligations.GetParameterReplies := by
  intro s id hc
  obtain ⟨t, outcome, replied, session, port⟩ := reply_only hc [STATUS_OK, parameterValue s.cfg id]
  exact ⟨t, parameterValue s.cfg id, outcome, replied, fun _ => parameterValue_of_lookup_some,
    parameterValue_of_lookup_none, session, port⟩

theorem leaveAfter_of_enabled {c : Config} (enabled : c.leaveEnabled = true) (leave : Bool) :
    leaveAfter c leave = true := by rw [leaveAfter, enabled, Bool.true_or]

theorem leaveAfter_of_disabled {c : Config} (disabled : c.leaveEnabled = false) (leave : Bool) :
    leaveAfter c leave = leave := by rw [leaveAfter, disabled, Bool.false_or]

/-- A reply sent with LEAVE set ends the session (44_reply_encoder R226). -/
theorem Replied.ended {s t : State} {payload : List Byte} (h : Replied s t payload) (hl : t.leave = true) :
    t.control = .exited ∧ t.exit = true :=
  ⟨by rw [h.control, if_pos hl], by rw [h.exit, hl, Bool.or_true]⟩

/-- Settles O33: LEAVE is `leaveAfter` when the reply is sent, and the reply ends the session with it. -/
theorem leaveProgmodeReplies : Obligations.LeaveProgmodeReplies := by
  intro s hc
  obtain ⟨t, outcome, replied, addr, leave, epage, port⟩ :=
    reply_replied (.of_update s s.addr (leaveAfter s.cfg s.leave) s.epage s.port) hc [STATUS_OK]
  refine ⟨t, outcome, replied, fun enabled => ?_, fun disabled => ?_, addr, epage, port⟩
  · have leaving : t.leave = true := leave.trans (leaveAfter_of_enabled enabled _)
    exact ⟨leaving, replied.ended leaving⟩
  · exact leave.trans (leaveAfter_of_disabled disabled _)

/-! ### Malformed commands -/

theorem programFlashMalformed_iff (c : Config) (addr : Addr) (n : Half) (data : List Byte) :
    programFlashMalformed addr n data = true ↔ isMalformed c addr (.programFlashIsp (some n) data) := by
  simp only [programFlashMalformed, isMalformed, Bool.or_eq_true, beq_iff_eq, half_eq_zero_iff, decide_eq_true_eq,
    or_assoc]

/-- A command with malformed operands is the outcome `malformed` of its code, and nothing else (41_dispatch R141). -/
theorem exec_of_isMalformed {i : Instr} {s : State} (h : isMalformed s.cfg s.addr i) :
    exec i s = malformed (commandCode i) s := by
  cases i with
  | getParameter id => cases h; rfl
  | loadAddress word => cases h; rfl
  | readFuseIsp cmds => cases h; rfl
  | programLockIsp lockByte => cases h; rfl
  | readSignatureIsp index => cases h; rfl
  | spiMulti tx0 index =>
    rcases h with rfl | ⟨rfl, rfl⟩
    · rfl
    · rfl
  | programFlashIsp size data =>
    cases size with
    | none => rfl
    | some n => exact if_pos ((programFlashMalformed_iff ..).2 h)
  | readFlashIsp size =>
    cases size with
    | none => rfl
    | some n => exact if_pos ((readFlashMalformed_iff ..).2 h)
  | programEepromIsp size data =>
    cases size with
    | none => rfl
    | some n => exact if_pos ((programEepromMalformed_iff ..).2 h)
  | readEepromIsp size =>
    cases size with
    | none => rfl
    | some n => exact if_pos ((readEepromMalformed_iff ..).2 h)
  | _ => exact h.elim

theorem malformed_of_replyFailed {s : State} (policy : s.cfg.malformedPolicy = .replyFailed) (cmd : Byte) :
    malformed cmd s = reply [STATUS_FAILED] s := by rw [malformed, policy]

theorem malformed_of_fault {s : State} (policy : s.cfg.malformedPolicy = .fault) (cmd : Byte) :
    malformed cmd s = .fault (.malformedOperand cmd) := by rw [malformed, policy]

/-- Settles O35: under `reply_failed` the outcome `malformed` is the reply of the failed status. -/
theorem malformedRepliesFailed : Obligations.MalformedRepliesFailed := by
  intro i s policy bad hc
  rw [exec_of_isMalformed bad, malformed_of_replyFailed policy]
  exact reply_only hc [STATUS_FAILED]

/-! ### Commands that are not malformed raise no MalformedOperand -/

/-- The port names its own fault (60_exceptions R245), never the dispatcher's (R244). -/
theorem PortStop.ne_malformedOperand {s : State} {f : Fault} (h : PortStop s f) (cmd : Byte) :
    f ≠ .malformedOperand cmd := by
  obtain ⟨r, u, bs, rfl, -⟩ := h
  exact nofun

/-- A command that replies after its port requests faults only as they do. -/
theorem requests_then_reply_fault {o : Except Fault State} {bs : List Byte} {f : Fault}
    (h : (match o with
      | .ok s1 => reply bs s1
      | .error f => .fault f) = .fault f) : o = .error f := by
  cases o with
  | ok s1 => cases h
  | error g => cases h; rfl

/-- A command of one request and a reply raises no MalformedOperand. -/
theorem request_then_reply_ne_malformedOperand {s : State} {r : PortRequest} {bs : List Byte} {cmd : Byte}
    (h : (match s.request r with
      | .ok s1 => reply bs s1
      | .error f => .fault f) = .fault (.malformedOperand cmd)) : False := by
  obtain ⟨-, -, named⟩ := State.request_error (requests_then_reply_fault h)
  cases named

/-- Nor does a reading command whose size is good. -/
theorem ReadRun.ne_malformedOperand {r : Addr → PortRequest} {ans : State → List Byte} {w n : Nat} {s : State} {cmd : Byte}
    (h : ReadRun r ans w n s (.fault (.malformedOperand cmd))) : False := by
  obtain ⟨m, bytes, u, -, ⟨-, outcome⟩ | ⟨-, -, outcome⟩⟩ := h
  · cases outcome
  · cases outcome

theorem isMalformed_of_programFlash_fault {s : State} {n : Half} {data : List Byte} {cmd : Byte}
    (h : exec (.programFlashIsp (some n) data) s = .fault (.malformedOperand cmd)) :
    isMalformed s.cfg s.addr (.programFlashIsp (some n) data) := by
  by_contra good
  have even : s.addr.toNat % 2 = 0 := by
    have notOdd : s.addr.toNat % 2 ≠ 1 := fun odd => good (.inr (.inr (.inl odd)))
    omega
  rw [← programFlashMalformed_iff] at good
  rw [exec, execProgramFlashIsp, if_neg good] at h
  exact (programWords_stop (requests_then_reply_fault h) even).ne_malformedOperand cmd rfl

theorem isMalformed_of_programEeprom_fault {s : State} {n : Half} {data : List Byte} {cmd : Byte}
    (h : exec (.programEepromIsp (some n) data) s = .fault (.malformedOperand cmd)) :
    isMalformed s.cfg s.addr (.programEepromIsp (some n) data) := by
  by_contra good
  rw [← programEepromMalformed_iff] at good
  rw [exec, execProgramEepromIsp, if_neg good] at h
  exact (programBytes_stop (requests_then_reply_fault h)).ne_malformedOperand cmd rfl

theorem isMalformed_of_readFlash_fault {s : State} {n : Half} {cmd : Byte}
    (h : exec (.readFlashIsp (some n)) s = .fault (.malformedOperand cmd)) :
    isMalformed s.cfg s.addr (.readFlashIsp (some n)) := by
  by_contra good
  rw [← readFlashMalformed_iff, Bool.not_eq_true] at good
  rw [exec] at h
  exact (h ▸ execReadFlashIsp_run good).ne_malformedOperand

theorem isMalformed_of_readEeprom_fault {s : State} {n : Half} {cmd : Byte}
    (h : exec (.readEepromIsp (some n)) s = .fault (.malformedOperand cmd)) :
    isMalformed s.cfg s.addr (.readEepromIsp (some n)) := by
  by_contra good
  rw [← readEepromMalformed_iff, Bool.not_eq_true] at good
  rw [exec] at h
  exact (h ▸ execReadEepromIsp_run good).ne_malformedOperand

/-- SPI_MULTI reads its index only for the "read signature byte" instruction (43_device R204). -/
theorem isMalformed_of_spiMulti_fault {s : State} {tx0 index : Option Byte} {cmd : Byte}
    (h : exec (.spiMulti tx0 index) s = .fault (.malformedOperand cmd)) : isMalformed s.cfg s.addr (.spiMulti tx0 index) := by
  cases tx0 with
  | none => exact .inl rfl
  | some t0 =>
    by_cases signature : t0 = SPI_READ_SIGNATURE
    · subst signature
      cases index with
      | none => exact .inr ⟨rfl, rfl⟩
      | some k => exact (request_then_reply_ne_malformedOperand h).elim
    · simp only [exec, execSpiMulti, if_neg signature] at h
      cases h

/-- Only a command with malformed operands raises MalformedOperand (60_exceptions R244). -/
theorem isMalformed_of_exec_fault {i : Instr} {s : State} {cmd : Byte} (h : exec i s = .fault (.malformedOperand cmd)) :
    isMalformed s.cfg s.addr i := by
  cases i with
  | getParameter id =>
    cases id with
    | none => rfl
    | some id => cases h
  | loadAddress word =>
    cases word with
    | none => rfl
    | some w => cases h
  | programFlashIsp size data =>
    cases size with
    | none => trivial
    | some n => exact isMalformed_of_programFlash_fault h
  | readFlashIsp size =>
    cases size with
    | none => trivial
    | some n => exact isMalformed_of_readFlash_fault h
  | programEepromIsp size data =>
    cases size with
    | none => trivial
    | some n => exact isMalformed_of_programEeprom_fault h
  | readEepromIsp size =>
    cases size with
    | none => trivial
    | some n => exact isMalformed_of_readEeprom_fault h
  | readFuseIsp cmds =>
    cases cmds with
    | none => rfl
    | some c => exact (request_then_reply_ne_malformedOperand h).elim
  | programLockIsp lockByte =>
    cases lockByte with
    | none => rfl
    | some v => exact (request_then_reply_ne_malformedOperand h).elim
  | readLockIsp => exact request_then_reply_ne_malformedOperand h
  | readSignatureIsp index =>
    cases index with
    | none => rfl
    | some k => exact (request_then_reply_ne_malformedOperand h).elim
  | spiMulti tx0 index => exact isMalformed_of_spiMulti_fault h
  | _ => cases h

/-- Settles O36: `exec_of_isMalformed` one way, `isMalformed_of_exec_fault` the other. -/
theorem malformedFaultsUnderFaultPolicy : Obligations.MalformedFaultsUnderFaultPolicy := by
  refine fun i s policy => ⟨fun bad => ?_, fun good cmd h => good (isMalformed_of_exec_fault h)⟩
  rw [exec_of_isMalformed bad, malformed_of_fault policy]

end Sys2Proof.Machine
end

section
/-! SUPPORT. The address and memory commands: how each advances ADDR, alone and over a run (42_memory R170 to R174,
R177), what the programming commands leave in memory and ask of the port (R171, R172, R176), what the reading commands
reply (R173, R174), and the round trip through flash (R175). -/

namespace Sys2Proof.Machine

/-! ### LOAD_ADDRESS (42_memory R170, 30_encoding R89) -/

theorem exec_loadAddress (s : State) (word : BitVec 32) :
    exec (.loadAddress (some word)) s = reply [STATUS_OK] { s with addr := loadedAddress s.cfg word } := rfl

theorem loadedAddress_toNat_w32 {c : Config} (hw : c.addrWidth = .w32) (word : BitVec 32) :
    (loadedAddress c word).toNat = 2 * word.toNat % 2 ^ 32 := by
  simp only [loadedAddress, wrapAddr_toNat, wordAddress, hw, AddrWidth.bits, Nat.shiftLeft_eq, pow_one, Nat.mul_comm]

theorem loadedAddress_toNat_w16 {c : Config} (hw : c.addrWidth = .w16) (word : BitVec 32) :
    (loadedAddress c word).toNat = 2 * (word.toNat % 2 ^ 16) % 2 ^ 16 := by
  simp only [loadedAddress, wrapAddr_toNat, wordAddress, hw, AddrWidth.bits, Nat.shiftLeft_eq, pow_one, Nat.mul_comm]

/-- Settles O37: ADDR is `loadedAddress`, which for W = 16 is a number of the last two address bytes. -/
theorem loadAddressSetsAddr : Obligations.LoadAddressSetsAddr := by
  intro s word hc
  refine ⟨?_, fun hw other same => ?_⟩
  · obtain ⟨t, outcome, replied, addr, leave, epage, port⟩ :=
      reply_replied (.of_update s (loadedAddress s.cfg word) s.leave s.epage s.port) hc [STATUS_OK]
    exact ⟨t, outcome, replied, fun hw => by rw [addr, loadedAddress_toNat_w32 hw],
      fun hw => by rw [addr, loadedAddress_toNat_w16 hw], leave, epage, port⟩
  · have h : loadedAddress s.cfg other = loadedAddress s.cfg word :=
      BitVec.eq_of_toNat_eq (by rw [loadedAddress_toNat_w16 hw, loadedAddress_toNat_w16 hw, same])
    rw [exec_loadAddress, exec_loadAddress, h]

/-! ### The programming commands behind their operand checks (41_dispatch R141) -/

theorem programFlash_operands {c : Config} {addr : Addr} {n : Half} {data : List Byte}
    (good : ¬ isMalformed c addr (.programFlashIsp (some n) data)) :
    n.toNat ≠ 0 ∧ n.toNat % 2 = 0 ∧ addr.toNat % 2 = 0 ∧ n.toNat ≤ data.length := by
  simp only [isMalformed, not_or] at good
  omega

theorem programEeprom_size_le {c : Config} {addr : Addr} {n : Half} {data : List Byte}
    (good : ¬ isMalformed c addr (.programEepromIsp (some n) data)) : n.toNat ≤ data.length :=
  Nat.le_of_not_lt fun short => good (.inr short)

theorem exec_programFlash_of_words {s s1 : State} {n : Half} {data : List Byte}
    (good : ¬ isMalformed s.cfg s.addr (.programFlashIsp (some n) data))
    (h : programWords (data.take n.toNat) { s with epage := none } = .ok s1) :
    exec (.programFlashIsp (some n) data) s = reply [STATUS_OK] s1 := by
  rw [← programFlashMalformed_iff] at good
  rw [exec, execProgramFlashIsp, if_neg good, h]

theorem exec_programFlash_next {s t : State} {n : Half} {data : List Byte}
    (good : ¬ isMalformed s.cfg s.addr (.programFlashIsp (some n) data))
    (h : exec (.programFlashIsp (some n) data) s = .next t) :
    ∃ s1, programWords (data.take n.toNat) { s with epage := none } = .ok s1 ∧ reply [STATUS_OK] s1 = .next t := by
  rw [← programFlashMalformed_iff] at good
  rw [exec, execProgramFlashIsp, if_neg good] at h
  exact requests_then_next h

/-- What the loop of PROGRAM_FLASH_ISP has done, whichever port answers. -/
theorem programFlash_loop {s s1 : State} {n : Half} {data : List Byte}
    (good : ¬ isMalformed s.cfg s.addr (.programFlashIsp (some n) data))
    (h : programWords (data.take n.toNat) { s with epage := none } = .ok s1) :
    Work s s1 ∧ Kept s s1 n.toNat ∧ s1.port.eeprom = s.port.eeprom := by
  obtain ⟨-, even, aligned, hlen⟩ := programFlash_operands good
  obtain ⟨kept, eeprom⟩ := programWords_kept h
  rw [List.length_take_of_le hlen, Nat.mul_div_cancel' (Nat.dvd_of_mod_eq_zero even)] at kept
  exact ⟨.epage none (programWords_work h aligned), { kept with }, eeprom⟩

theorem exec_programEeprom_of_bytes {s s1 : State} {n : Half} {data : List Byte}
    (good : ¬ isMalformed s.cfg s.addr (.programEepromIsp (some n) data))
    (h : programBytes (data.take n.toNat) s = .ok s1) :
    exec (.programEepromIsp (some n) data) s = reply [STATUS_OK] s1 := by
  rw [← programEepromMalformed_iff] at good
  rw [exec, execProgramEepromIsp, if_neg good, h]

theorem exec_programEeprom_next {s t : State} {n : Half} {data : List Byte}
    (good : ¬ isMalformed s.cfg s.addr (.programEepromIsp (some n) data))
    (h : exec (.programEepromIsp (some n) data) s = .next t) :
    ∃ s1, programBytes (data.take n.toNat) s = .ok s1 ∧ reply [STATUS_OK] s1 = .next t := by
  rw [← programEepromMalformed_iff] at good
  rw [exec, execProgramEepromIsp, if_neg good] at h
  exact requests_then_next h

/-! ### ADDR over a command (42_memory R177) -/

/-- A command that completes leaves a W-bit ADDR. -/
theorem exec_addr_lt {i : Instr} {s t : State} (h : exec i s = .next t) (ha : s.addr.toNat < 2 ^ s.cfg.addrWidth.bits) :
    t.addr.toNat < 2 ^ s.cfg.addrWidth.bits := by
  obtain ⟨s1, bs, work, hreply, -⟩ := exec_next h
  rw [(reply_unwritten hreply).addr]
  exact work.address ha

/-- A reading command that completes has advanced ADDR past its reads. -/
theorem ReadRun.advances {r : Addr → PortRequest} {ans : State → List Byte} {w n : Nat} {s t : State}
    (run : ReadRun r ans w n s (.next t)) (allowed : ∀ c a, requestAllowed c (r a)) (hw : ∀ s, (ans s).length = w)
    (ha : s.addr.toNat < 2 ^ s.cfg.addrWidth.bits) :
    t.addr.toNat = (s.addr.toNat + w * n) % 2 ^ s.cfg.addrWidth.bits := by
  obtain ⟨bytes, u, reads, -, -, hreply⟩ := run.next allowed hw
  rw [(reply_unwritten hreply).addr, (reads.moved ha).addr]

/-- The work before a reply has advanced ADDR by `n`. -/
theorem Kept.advances {s s1 t : State} {n : Nat} {i : Instr} {bs : List Byte} (kept : Kept s s1 n)
    (hreply : reply bs s1 = .next t) (h : exec i s = .next t) (ha : s.addr.toNat < 2 ^ s.cfg.addrWidth.bits) :
    t.addr.toNat = (s.addr.toNat + n) % 2 ^ s.cfg.addrWidth.bits := by
  rw [← kept.addr, ← (reply_unwritten hreply).addr, Nat.mod_eq_of_lt (exec_addr_lt h ha)]

/-- Every command that is not malformed, but for LOAD_ADDRESS, advances ADDR by the bytes it transfers. -/
theorem exec_advances {i : Instr} {s t : State} (h : exec i s = .next t)
    (ha : s.addr.toNat < 2 ^ s.cfg.addrWidth.bits) (good : ¬ isMalformed s.cfg s.addr i)
    (noLoad : ∀ word, i ≠ .loadAddress (some word)) :
    t.addr.toNat = (s.addr.toNat + transferredBytes i) % 2 ^ s.cfg.addrWidth.bits := by
  cases i with
  | loadAddress word =>
    cases word with
    | none => exact absurd rfl good
    | some word => exact absurd rfl (noLoad word)
  | programFlashIsp size data =>
    cases size with
    | none => exact absurd trivial good
    | some n =>
      obtain ⟨s1, words, hreply⟩ := exec_programFlash_next good h
      obtain ⟨-, kept, -⟩ := programFlash_loop good words
      exact kept.advances hreply h ha
  | readFlashIsp size =>
    cases size with
    | none => exact absurd trivial good
    | some n =>
      have even : n.toNat % 2 ≠ 1 := fun odd => good (.inr (.inl odd))
      rw [← readFlashMalformed_iff, Bool.not_eq_true] at good
      have run : ReadRun .readFlash wordAnswer 2 (n.toNat / 2) s (.next t) := h ▸ execReadFlashIsp_run good
      rw [run.advances readFlash_allowed wordAnswer_length ha, transferredBytes, Nat.mul_div_cancel' (by omega)]
  | programEepromIsp size data =>
    cases size with
    | none => exact absurd trivial good
    | some n =>
      obtain ⟨s1, bytes, hreply⟩ := exec_programEeprom_next good h
      have kept := (programBytes_kept bytes).1
      rw [List.length_take_of_le (programEeprom_size_le good)] at kept
      exact kept.advances hreply h ha
  | readEepromIsp size =>
    cases size with
    | none => exact absurd trivial good
    | some n =>
      rw [← readEepromMalformed_iff, Bool.not_eq_true] at good
      have run : ReadRun .readEeprom byteAnswer 1 n.toNat s (.next t) := h ▸ execReadEepromIsp_run good
      rw [run.advances readEeprom_allowed byteAnswer_length ha, transferredBytes, Nat.one_mul]
  | _ =>
    rw [(exec_writesOnlyItsOwn h).addr.resolve_right (by simp)]
    exact (Nat.mod_eq_of_lt ha).symm

/-- A malformed command keeps ADDR (41_dispatch R141). -/
theorem exec_addr_of_isMalformed {i : Instr} {s t : State} (h : exec i s = .next t)
    (bad : isMalformed s.cfg s.addr i) : t.addr = s.addr :=
  (malformed_unwritten (exec_of_isMalformed bad ▸ h)).addr

/-- Settles O60: the execute step is the command's, behind losses of input that leave ADDR alone. -/
theorem addressAfterExecuteStep : Obligations.AddressAfterExecuteStep := by
  intro s t i hc ha hd h
  have run := step_execute hc hd h
  rw [← State.loseBytes_cfg s, ← State.loseBytes_addr s] at ha ⊢
  refine ⟨exec_addr_of_isMalformed run, ?_, exec_advances run ha⟩
  rintro word rfl
  rw [exec_loadAddress] at run
  rw [(reply_unwritten run).addr]
  exact ⟨fun hw => loadedAddress_toNat_w32 hw word, fun hw => loadedAddress_toNat_w16 hw word⟩

/-! ### ADDR over a run (42_memory R177) -/

/-- Either way a command runs, it runs from a state with the parameters and ADDR of the first. -/
theorem Executes.runs {i : Instr} {s t : State} (h : Executes i s t) :
    ∃ s0 : State, s0.cfg = s.cfg ∧ s0.addr = s.addr ∧ exec i s0 = .next t := by
  rcases h with h | ⟨hc, hd, h⟩
  · exact ⟨s, rfl, rfl, h⟩
  · exact ⟨s.loseBytes, s.loseBytes_cfg, s.loseBytes_addr, step_execute hc hd h⟩

/-- An advance of `j` bytes before a rest of the run that advances ADDR by `k`. -/
theorem addr_after_advance {s t u : State} {j k : Nat} (hc : t.cfg = s.cfg)
    (ha : t.addr.toNat = (s.addr.toNat + j) % 2 ^ s.cfg.addrWidth.bits)
    (ih : t.addr.toNat < 2 ^ t.cfg.addrWidth.bits → u.addr.toNat = (t.addr.toNat + k) % 2 ^ t.cfg.addrWidth.bits) :
    u.addr.toNat = (s.addr.toNat + (j + k)) % 2 ^ s.cfg.addrWidth.bits := by
  rw [ih (by rw [hc, ha]; exact Nat.mod_lt _ (two_pow_bits_pos _)), addr_advance_twice hc ha]

/-- Settles O47, by induction on the run: each step keeps ADDR or advances it, and keeps the parameters. -/
theorem addressContinuity : Obligations.AddressContinuity := by
  intro s t n run
  induction run with
  | done s => exact fun ha => (Nat.mod_eq_of_lt ha).symm
  | transfer i s t u n good noLoad run rest ih =>
    intro ha
    obtain ⟨s0, hcfg, haddr, h⟩ := run.runs
    rw [← hcfg, ← haddr] at ha good ⊢
    exact addr_after_advance (exec_afterReply h).2.2 (exec_advances h ha good noLoad) ih
  | failed i s t u n bad run rest ih =>
    intro ha
    obtain ⟨s0, hcfg, haddr, h⟩ := run.runs
    rw [← hcfg, ← haddr] at ha bad ⊢
    have kept := exec_addr_of_isMalformed h bad
    rw [(exec_afterReply h).2.2, kept] at ih
    exact ih ha
  | receive s t u n between run rest ih =>
    obtain ⟨-, -, haddr, -, -, hcfg, -⟩ := receiveStepsAreSilent s t between run
    rwa [hcfg, haddr] at ih

/-! ### What PROGRAM_FLASH_ISP replies and leaves alone (42_memory R171, R176) -/

/-- A PROGRAM_FLASH_ISP whose loop completes replies status-OK. -/
theorem programFlash_replies {s s1 : State} {n : Half} {data : List Byte} (hc : s.buf.head? = some 0x13)
    (ha : s.addr.toNat < 2 ^ s.cfg.addrWidth.bits) (good : ¬ isMalformed s.cfg s.addr (.programFlashIsp (some n) data))
    (h : programWords (data.take n.toNat) { s with epage := none } = .ok s1) :
    ∃ t, exec (.programFlashIsp (some n) data) s = .next t ∧ Replied s t [0x13, 0x00]
      ∧ t.addr.toNat = (s.addr.toNat + n.toNat) % 2 ^ s.cfg.addrWidth.bits ∧ t.leave = s.leave ∧ t.port = s1.port := by
  obtain ⟨work, kept, -⟩ := programFlash_loop good h
  obtain ⟨t, outcome, replied, -, leave, -, port⟩ := reply_replied work.prepared hc [STATUS_OK]
  rw [← exec_programFlash_of_words good h] at outcome
  exact ⟨t, outcome, replied, exec_advances outcome ha good nofun, leave.trans kept.leave, port⟩

/-- Settles O38: the loop completes on a legal configuration, and what it keeps the reply keeps. -/
theorem programFlashCompletes : Obligations.ProgramFlashCompletes := by
  intro s n data legal ha good hc
  obtain ⟨-, -, aligned, hlen⟩ := programFlash_operands good
  obtain ⟨s1, words, flash⟩ := programWords_completes (data := data.take n.toNat) (s := { s with epage := none })
    (legal_of _ legal) aligned ha
  obtain ⟨t, outcome, replied, addr, leave, port⟩ := programFlash_replies hc ha good words
  obtain ⟨-, kept, eeprom⟩ := programFlash_loop good words
  rw [List.length_take_of_le hlen] at flash
  refine ⟨t, outcome, replied, addr, leave, ?_⟩
  rw [port]
  exact ⟨eeprom, kept.sig, kept.fuses, fun a h => flash a (h.imp_right fun off k hk => off (2 * k) (by omega))⟩

/-- Words at or above the boundary leave the port alone. -/
theorem programWords_above {data : List Byte} {s : State} (ha : s.addr.toNat < 2 ^ s.cfg.addrWidth.bits)
    (above : ∀ k, 2 * k + 1 < data.length → s.cfg.bootBoundary ≤ transferAddr s (2 * k)) :
    ∃ t, programWords data s = .ok t ∧ t.port = s.port := by
  induction data using List.twoStepInduction generalizing s with
  | nil => exact ⟨s, rfl, rfl⟩
  | singleton v => exact ⟨s, rfl, rfl⟩
  | cons_cons lo hi rest ih =>
    have first := above 0 (by simp)
    rw [Nat.mul_zero, transferAddr_zero ha] at first
    have next : (s.advanceAddr 2).addr.toNat = (s.addr.toNat + 2) % 2 ^ s.cfg.addrWidth.bits := wrapAddr_toNat ..
    rw [programWords, programWord_above first]
    refine ih (s := s.advanceAddr 2) (by rw [next]; exact Nat.mod_lt _ (two_pow_bits_pos _)) fun k hk => ?_
    rw [transferAddr_advance (s := s) (t := s.advanceAddr 2) rfl next, show 2 + 2 * k = 2 * (k + 1) by omega]
    exact above (k + 1) (by rw [List.length_cons, List.length_cons]; omega)

/-- A transfer that does not wrap runs through consecutive addresses. -/
theorem transferAddr_of_no_wrap {s : State} {k : Nat} (h : s.addr.toNat + k < 2 ^ s.cfg.addrWidth.bits) :
    transferAddr s k = s.addr.toNat + k := Nat.mod_eq_of_lt h

/-- Settles O41: no word lies below the boundary, so the loop leaves the port alone. -/
theorem programFlashAboveBoundary : Obligations.ProgramFlashAboveBoundary := by
  intro s n data good above noWrap hc
  obtain ⟨nonzero, -, -, hlen⟩ := programFlash_operands good
  have ha : s.addr.toNat < 2 ^ s.cfg.addrWidth.bits := by omega
  obtain ⟨s1, words, unasked⟩ := programWords_above (data := data.take n.toNat) (s := { s with epage := none }) ha
    fun k hk => by
      rw [List.length_take_of_le hlen] at hk
      rw [transferAddr_of_no_wrap (by dsimp only; omega)]
      exact above.trans (Nat.le_add_right ..)
  obtain ⟨t, outcome, replied, addr, leave, port⟩ := programFlash_replies hc ha good words
  exact ⟨t, outcome, replied, port.trans unasked, addr, leave⟩

/-! ### The words and pages of a flash transfer -/

/-- A wrapped transfer from an even ADDR comes to even word addresses. -/
theorem transferAddr_even {s : State} (he : s.addr.toNat % 2 = 0) (j : Nat) : transferAddr s (2 * j) % 2 = 0 := by
  have h := Nat.mod_mod_of_dvd (s.addr.toNat + 2 * j) (Nat.dvd_of_mod_eq_zero (two_pow_bits_even s.cfg.addrWidth))
  rw [transferAddr]
  omega

/-- The second byte of a word stands behind the first. -/
theorem transferAddr_second {s : State} (he : s.addr.toNat % 2 = 0) (j : Nat) :
    transferAddr s (2 * j + 1) = transferAddr s (2 * j) + 1 := by
  have lt := transferAddr_lt s (2 * j)
  have even := transferAddr_even he j
  have space := two_pow_bits_even s.cfg.addrWidth
  calc transferAddr s (2 * j + 1)
      = (transferAddr s (2 * j) + 1) % 2 ^ s.cfg.addrWidth.bits := by
        rw [transferAddr, transferAddr, Nat.mod_add_mod, Nat.add_assoc]
    _ = transferAddr s (2 * j) + 1 := Nat.mod_eq_of_lt (by omega)

/-- A word does not straddle two pages. -/
theorem Legal.word_page {c : Config} (hl : Legal c) {a : Nat} (he : a % 2 = 0) : (a + 1) / c.pageSize = a / c.pageSize := by
  refine Nat.succ_div_of_not_dvd fun ⟨k, hk⟩ => ?_
  obtain ⟨m, hm⟩ := Nat.dvd_of_mod_eq_zero hl.pageEven
  rw [hm, Nat.mul_assoc] at hk
  omega

/-- A byte of a transfer is the first or the second of its word, on the word's page. -/
theorem transferAddr_word {s : State} (hl : Legal s.cfg) (he : s.addr.toNat % 2 = 0) (k : Nat) :
    ∃ j, (k = 2 * j ∨ k = 2 * j + 1)
      ∧ transferAddr s (2 * j) / s.cfg.pageSize = transferAddr s k / s.cfg.pageSize := by
  obtain ⟨j, rfl | rfl⟩ := Nat.even_or_odd' k
  · exact ⟨j, .inl rfl, rfl⟩
  · exact ⟨j, .inr rfl, by rw [transferAddr_second he, hl.word_page (transferAddr_even he j)]⟩

/-! ### What PROGRAM_FLASH_ISP leaves in flash (42_memory R171) -/

/-- A command begins with no page erased last, so EPAGE names no page it comes to. -/
theorem epageFresh_of_none (s : State) (len : Nat) : EpageFresh { s with epage := none } len :=
  fun _ _ last => nomatch last

/-- Settles O39: `Programmed` of the loop, its words taken byte by byte. -/
theorem programFlashContents : Obligations.ProgramFlashContents := by
  intro s t n data legal hk wf ha good room h
  obtain ⟨-, even, aligned, hlen⟩ := programFlash_operands good
  have hl := legal_of _ legal
  have taken : (data.take n.toNat).length = n.toNat := List.length_take_of_le hlen
  obtain ⟨s1, words, hreply⟩ := exec_programFlash_next good h
  obtain ⟨s1', rs, words', done⟩ := programWords_reference (data := data.take n.toNat) (s := { s with epage := none }) hl
    hk wf ha aligned (by rw [taken]; exact even) (by rw [taken]; exact (half_lt_two_pow_bits n _).le)
    (noReturn_of_room legal (by rw [taken]; exact room)) (epageFresh_of_none _ _)
  obtain rfl : s1 = s1' := Except.ok.inj (words.symm.trans words')
  have flash : t.port.flash = s1.port.flash := (reply_unwritten hreply).flash
  rw [flash]
  refine ⟨fun k hkn below => ?_, fun a below ⟨k, hkn, page⟩ off => ?_⟩
  · rw [← List.getElem?_take_of_lt hkn]
    obtain ⟨j, rfl | rfl, -⟩ := transferAddr_word hl aligned k
    · exact (done.written j (by omega) below).1
    · rw [transferAddr_second aligned] at below ⊢
      exact (done.written j (by omega) (show transferAddr s (2 * j) < s.cfg.bootBoundary by omega)).2
  · obtain ⟨j, hj, samePage⟩ := transferAddr_word hl aligned k
    refine done.erased a below j (by omega) (samePage.trans page) nofun fun i hi => ⟨?_, ?_⟩
    · exact (off (2 * i) (by omega)).symm
    · have := off (2 * i + 1) (by omega)
      rw [transferAddr_second aligned] at this
      exact this.symm

/-! ### What PROGRAM_FLASH_ISP asks of the port (42_memory R171; 90_conflicts C8) -/

theorem pageOf_eq_ofNat (c : Config) (a : Addr) : pageOf c a = BitVec.ofNat 32 (a.toNat - a.toNat % c.pageSize) := rfl

/-- A byte lies on the page whose base `pageOf` gives. -/
theorem pageOf_page (c : Config) (a : Addr) : (pageOf c a).toNat / c.pageSize = a.toNat / c.pageSize := by
  rw [pageOf_toNat, ← Nat.div_eq_sub_mod_div]

/-- The requests of a word depend on its own bytes only. -/
theorem wordRequests_take (s : State) (data : List Byte) {m k : Nat} (h : 2 * k + 1 < m) :
    wordRequests s (data.take m) k = wordRequests s data k := by
  rw [wordRequests, getD_take h, getD_take (by omega), wordRequests]

/-- The requests of PROGRAM_FLASH_ISP's loop, of either port. -/
theorem programFlash_log {s s1 : State} {n : Half} {data : List Byte} (legal : Legal s.cfg)
    (ha : s.addr.toNat < 2 ^ s.cfg.addrWidth.bits) (good : ¬ isMalformed s.cfg s.addr (.programFlashIsp (some n) data))
    (h : programWords (data.take n.toNat) { s with epage := none } = .ok s1) :
    s1.port.log = s.port.log ++ (List.range (n.toNat / 2)).flatMap (wordRequests s data) := by
  obtain ⟨-, -, -, hlen⟩ := programFlash_operands good
  have page : 0 < s.cfg.pageSize := by have := legal.page; omega
  have log := programWords_log (s := { s with epage := none }) (i := 0) page (List.drop_zero) rfl
    (transferAddr_zero ha).symm rfl h
  rw [log, List.length_take_of_le hlen]
  congr 1
  refine List.flatMap_congr fun k hk => ?_
  have := List.mem_range.1 hk
  rw [wordRequests_epage, Nat.zero_add, wordRequests_take _ _ (by omega)]

/-- Settles O40: the log of the loop word by word, and `Programmed` of a loop that makes the same requests. -/
theorem programFlashErasesEachPageOnce : Obligations.ProgramFlashErasesEachPageOnce := by
  intro s t n data legal ha good h
  obtain ⟨-, even, aligned, hlen⟩ := programFlash_operands good
  have hl := legal_of _ legal
  have taken : (data.take n.toNat).length = n.toNat := List.length_take_of_le hlen
  obtain ⟨s1, words, hreply⟩ := exec_programFlash_next good h
  have port : t.port = s1.port := by rw [reply_eq_next hreply]; rfl
  rw [port]
  refine ⟨?_, fun room => ?_⟩
  · exact programFlash_log hl ha good words
  · obtain ⟨u, rs, log, done⟩ := programWords_requests (s := { s with epage := none }) hl ha aligned
      (by rw [taken]; exact even) (by rw [taken]; exact (half_lt_two_pow_bits n _).le)
      (noReturn_of_room legal (by rw [taken]; exact room))
      (epageFresh_of_none _ _) words
    refine ⟨rs, log, done.kinds, done.once, fun before a w after cut => ?_, fun p hp => ?_⟩
    · rw [List.append_assoc] at cut
      exact (done.covered before a w after cut).resolve_right nofun
    · obtain ⟨a, w, asked, rfl⟩ := done.used p hp
      exact ⟨a, w, asked, (pageOf_page s.cfg a).symm⟩

/-! ### PROGRAM_EEPROM_ISP (42_memory R172) -/

/-- Settles O43: the loop completes, and the reply writes no memory. -/
theorem programEepromWrites : Obligations.ProgramEepromWrites := by
  intro s n data ha good fits hc
  have taken : (data.take n.toNat).length = n.toNat := List.length_take_of_le (programEeprom_size_le good)
  obtain ⟨s1, bytes, moved, hepage, flash, fuses, contents⟩ :=
    programBytes_completes (data := data.take n.toNat) ha (by rwa [taken])
  rw [taken] at moved contents
  obtain ⟨t, outcome, replied, addr, leave, epage, port⟩ := reply_replied moved.prepared hc [STATUS_OK]
  rw [← exec_programEeprom_of_bytes good bytes] at outcome
  refine ⟨t, outcome, replied, ?_⟩
  rw [port, addr, leave, epage]
  refine ⟨fun hk wf => ?_, flash, moved.sig, fuses, ?_, moved.addr, moved.leave, hepage⟩
  · obtain ⟨written, others⟩ := contents hk wf (half_lt_two_pow_bits n _).le
    exact ⟨fun k hkn => by rw [← List.getElem?_take_of_lt hkn]; exact written k hkn, others⟩
  · rw [moved.log]
    congr 1
    exact List.map_congr_left fun k hkn => by rw [getD_take (List.mem_range.1 hkn)]

/-! ### The reading commands (42_memory R173, R174) -/

/-- A reading command whose every request the port performs replies the bytes read between two status-OK bytes, and changes
ADDR alone. -/
theorem ReadRun.replies {r : Addr → PortRequest} {ans : State → List Byte} {w n : Nat} {s : State}
    {o : Host.Outcome State Fault Refusal} {code : Byte} (run : ReadRun r ans w n s o) (hread : ∀ a, (r a).isRead)
    (hw : ∀ s, (ans s).length = w) (ha : s.addr.toNat < 2 ^ s.cfg.addrWidth.bits) (hc : s.buf.head? = some code)
    (inRange : s.cfg.portKind = .reference → ∀ j < n,
      requestInRange s.cfg (r (BitVec.ofNat 32 (transferAddr s (w * j)))) = true) :
    ∃ t bytes u, Reads r ans w s n bytes u ∧ o = .next t ∧ Replied s t ([code, 0x00] ++ bytes ++ [0x00])
      ∧ bytes.length = w * n ∧ t.addr.toNat = (s.addr.toNat + w * n) % 2 ^ s.cfg.addrWidth.bits ∧ t.leave = s.leave
      ∧ t.epage = s.epage
      ∧ OnlyAsked s t ((List.range n).map (fun j => r (BitVec.ofNat 32 (transferAddr s (w * j))))) := by
  obtain ⟨bytes, u, reads, rfl⟩ := run.completes ha inRange
  have moved := reads.moved ha
  obtain ⟨kept, flash, eeprom, hepage⟩ := reads.kept hread
  obtain ⟨t, outcome, replied, addr, leave, epage, port⟩ :=
    reply_replied moved.prepared hc ([STATUS_OK] ++ bytes ++ [STATUS_OK])
  refine ⟨t, bytes, u, reads, outcome, replied, reads.length hw, by rw [addr, moved.addr], leave.trans moved.leave,
    epage.trans hepage, ?_⟩
  constructor <;> rw [port]
  exacts [flash, eeprom, moved.sig, kept.fuses, moved.log]

/-- Settles O42: `ReadRun.replies` of the word reads. -/
theorem readFlashReplies : Obligations.ReadFlashReplies := by
  intro s n ha good fits hc
  have even : 2 * (n.toNat / 2) = n.toNat := by
    have : n.toNat % 2 ≠ 1 := fun odd => good (.inr (.inl odd))
    omega
  rw [← readFlashMalformed_iff, Bool.not_eq_true] at good
  obtain ⟨t, bytes, u, reads, outcome, replied, length, addr, rest⟩ := (execReadFlashIsp_run good).replies
    (fun _ => trivial) wordAnswer_length ha hc
    (fun hk j hj => by rw [requestInRange_readFlash]; exact decide_eq_true (fits hk j hj))
  rw [even] at length addr
  exact ⟨t, bytes, outcome, replied, length, reads.flash ha, addr, rest⟩

/-- Settles O44: `ReadRun.replies` of the byte reads. -/
theorem readEepromReplies : Obligations.ReadEepromReplies := by
  intro s n ha good fits hc
  rw [← readEepromMalformed_iff, Bool.not_eq_true] at good
  obtain ⟨t, bytes, u, reads, outcome, replied, length, addr, rest⟩ := (execReadEepromIsp_run good).replies
    (fun _ => trivial) byteAnswer_length ha hc
    (fun hk j hj => by rw [Nat.one_mul, requestInRange_readEeprom]; exact decide_eq_true (fits hk j hj))
  simp only [Nat.one_mul] at length addr rest
  exact ⟨t, bytes, outcome, replied, length, reads.eeprom ha, addr, rest⟩

/-! ### The round trip through flash (42_memory R175) -/

/-- A reply within RLEN's 16 bits is sent as the frame that carries it. -/
theorem Replied.tx_encodeFrame {s t : State} {payload : List Byte} (h : Replied s t payload)
    (short : payload.length < 2 ^ 16) : t.tx = s.tx ++ encodeFrame s.seq payload := by
  have whole : (BitVec.ofNat 16 payload.length).toNat = payload.length := by
    rw [BitVec.toNat_ofNat, Nat.mod_eq_of_lt short]
  rw [h.tx, h.rlen, whole, List.take_length, encodeFrame]

/-- Bytes that agree word by word with a function of their index agree with it everywhere. -/
theorem getElem?_of_words {bytes : List Byte} {f : Nat → Byte} {n : Nat} (even : n % 2 = 0)
    (words : ∀ j < n / 2, bytes[2 * j]? = some (f (2 * j)) ∧ bytes[2 * j + 1]? = some (f (2 * j + 1))) :
    ∀ k < n, bytes[k]? = some (f k) := by
  intro k hk
  obtain ⟨j, rfl | rfl⟩ := Nat.even_or_odd' k
  · exact (words j (by omega)).1
  · exact (words j (by omega)).2

/-- Settles O46: what O39 has in flash O42 replies. -/
theorem flashRoundTrip : Obligations.FlashRoundTrip := by
  intro s t u v n data legal hk wf good below length programmed hcfg haddr holds hc readable short read
  obtain ⟨nonzero, even, -, -⟩ := programFlash_operands good
  have hl := legal_of _ legal
  have space : s.addr.toNat + n.toNat ≤ 2 ^ s.cfg.addrWidth.bits := below.trans (hl.bootFlash.trans hl.flashSpace)
  have ha : s.addr.toNat < 2 ^ s.cfg.addrWidth.bits := by omega
  have consecutive : ∀ k < n.toNat, transferAddr u k = s.addr.toNat + k := fun k hkn => by
    rw [transferAddr, hcfg, haddr, Nat.mod_eq_of_lt (by omega)]
  obtain ⟨written, -⟩ := programFlashContents s t n data legal hk wf ha good
    ((Nat.add_le_add_right (Nat.mod_le _ _) _).trans space) programmed
  obtain ⟨v', bytes, outcome, replied, blength, contents, -⟩ := readFlashReplies u n (by rw [hcfg, haddr]; exact ha)
    readable (fun _ j hj => by rw [consecutive _ (by omega), hcfg]; have := hl.bootFlash; omega) hc
  obtain rfl : v' = v := Host.Outcome.next.inj (outcome.symm.trans read)
  have flash : ∀ k < n.toNat, bytes[k]? = some (u.port.flash.read (s.addr.toNat + k)) :=
    getElem?_of_words (f := fun k => u.port.flash.read (s.addr.toNat + k)) even fun j hj => by
      have := contents (hcfg ▸ hk) j hj
      rwa [consecutive _ (by omega)] at this
  have same : bytes = data := List.ext_getElem? fun k => by
    rcases Nat.lt_or_ge k n.toNat with hkn | hkn
    · have back := written k hkn (by rw [transferAddr_of_no_wrap (by omega)]; omega)
      rw [transferAddr_of_no_wrap (by omega)] at back
      rw [flash k hkn, holds k hkn, back]
    · rw [List.getElem?_eq_none (by omega), List.getElem?_eq_none (by omega)]
  rw [← same]
  exact replied.tx_encodeFrame (by simp only [List.length_append, List.length_cons, List.length_nil]; omega)

end Sys2Proof.Machine
end

section
/-! SUPPORT. The device commands: the one port request of each and the reply with its answer, on either port, and what the
reference port answers and does (43_device_commands R200 to R204; 20_memory R57 to R59, R77). -/

namespace Sys2Proof.Machine

/-! ### One request, then the reply -/

/-- A command that makes one request the port performs and then replies: the request is all it does to the session. -/
theorem request_then_reply {s : State} {code : Byte} (hc : s.buf.head? = some code) {r : PortRequest}
    (inRange : requestInRange s.cfg r = true) {bs : List Byte} {o : Host.Outcome State Fault Refusal}
    (ho : ∀ s1, s.request r = .ok s1 → o = reply bs s1) :
    ∃ t, o = .next t ∧ Replied s t (code :: bs) ∧ SameSession s t ∧ s.port.perform s.cfg r = .ok t.port := by
  obtain ⟨s1, ok⟩ := State.request_succeeds s r fun _ => inRange
  obtain ⟨t, outcome, replied, addr, leave, epage, port⟩ := reply_replied (State.request_prepared ok) hc bs
  obtain ⟨q, performed, rfl⟩ := State.request_ok ok
  exact ⟨t, (ho _ ok).trans outcome, replied, ⟨addr, leave, epage⟩, performed.trans (congrArg _ port.symm)⟩

/-- When the request is a reading one, nothing else changes (20_memory R67). -/
theorem read_then_reply {s : State} {code : Byte} (hc : s.buf.head? = some code) {r : PortRequest} (hr : r.isRead)
    (inRange : requestInRange s.cfg r = true) {bs : List Byte} {o : Host.Outcome State Fault Refusal}
    (ho : ∀ s1, s.request r = .ok s1 → o = reply bs s1) :
    ∃ t, o = .next t ∧ Replied s t (code :: bs) ∧ SameSession s t ∧ OnlyAsked s t [r] := by
  obtain ⟨t, outcome, replied, session, performed⟩ := request_then_reply hc inRange ho
  obtain ⟨flash, eeprom, fuses⟩ := State.request_read hr (State.request_of_perform performed)
  exact ⟨t, outcome, replied, session,
    ⟨flash, eeprom, Port.perform_sig performed, fuses, Port.perform_log performed⟩⟩

/-! ### Signature bytes (43_device R200, 20_memory R57, R77) -/

theorem signatureIndex_val (i : Byte) : (signatureIndex i).val = min i.toNat 2 := by
  unfold signatureIndex
  split
  next zero => rw [zero]; rfl
  next nonzero =>
    split
    next one => rw [one]; rfl
    next notOne =>
      have : 2 ≤ i.toNat := by bv_omega
      exact (Nat.min_eq_right this).symm

theorem byte_signatureIndex (g : Signature) (i : Byte) :
    g.byte (signatureIndex i) = if i = 0 then g.byte0 else if i = 1 then g.byte1 else g.byte2 := by
  rw [signatureIndex, apply_ite g.byte, apply_ite g.byte]; rfl

theorem sigAnswer_of_reference {c : Config} (hk : c.portKind = .reference) (p : Port) (i : Byte) :
    p.sigAnswer c (signatureIndex i) =
      if i = 0 then p.sig.byte0 else if i = 1 then p.sig.byte1 else p.sig.byte2 := by
  rw [← byte_signatureIndex, Port.sigAnswer, hk]

theorem sigAnswer_of_draws {c : Config} (hk : c.portKind = .draws) (p : Port) (k : Fin 3) :
    p.sigAnswer c k = Config.deviceSignature k := by rw [Port.sigAnswer, hk]

theorem exec_readSignature {s s1 : State} {i : Byte} (ok : s.request (.readSig (signatureIndex i)) = .ok s1) :
    exec (.readSignatureIsp (some i)) s =
      reply [STATUS_OK, s.port.sigAnswer s.cfg (signatureIndex i), STATUS_OK] s1 := by
  simp only [exec, execReadSignatureIsp, ok]

/-- Settles O50: the one request is `ReadSig` of the clamped index, and the reply carries its answer. -/
theorem readSignatureReplies : Obligations.ReadSignatureReplies := by
  intro s i hc
  obtain ⟨t, outcome, replied, session, asked⟩ :=
    read_then_reply hc (r := .readSig (signatureIndex i)) trivial rfl fun _ => exec_readSignature
  exact ⟨t, s.port.sigAnswer s.cfg (signatureIndex i), signatureIndex i, outcome, replied, session, asked,
    signatureIndex_val i, fun hk => sigAnswer_of_reference hk s.port i, fun hk => sigAnswer_of_draws hk s.port _⟩

/-! ### Fuse and lock bytes (43_device R201, R202; 20_memory R58, R77) -/

theorem fuseSelect_ext : fuseSelect 0x50 0x08 = .ext := rfl

theorem fuseSelect_low {cmd2 : Byte} (h : cmd2 ≠ 0x08) : fuseSelect 0x50 cmd2 = .low := if_neg h

theorem fuseSelect_high {cmd1 : Byte} (h : cmd1 ≠ 0x50) (cmd2 : Byte) : fuseSelect cmd1 cmd2 = .high := if_neg h

theorem fuseAnswer_of_reference {c : Config} (hk : c.portKind = .reference) (p : Port) (sel : FuseSel) :
    p.fuseAnswer c sel = p.fuses.byte sel := by rw [Port.fuseAnswer, hk]

theorem exec_readFuse {s s1 : State} {cmd1 cmd2 : Byte} (ok : s.request (.readFuse (fuseSelect cmd1 cmd2)) = .ok s1) :
    exec (.readFuseIsp (some (cmd1, cmd2))) s =
      reply [STATUS_OK, s.port.fuseAnswer s.cfg (fuseSelect cmd1 cmd2), STATUS_OK] s1 := by
  simp only [exec, execReadFuseIsp, ok]

/-- Settles O51: the one request is `ReadFuse` of the selected byte, and the reply carries its answer. -/
theorem readFuseReplies : Obligations.ReadFuseReplies := by
  intro s cmd1 cmd2 hc
  obtain ⟨t, outcome, replied, session, asked⟩ :=
    read_then_reply hc (r := .readFuse (fuseSelect cmd1 cmd2)) trivial rfl fun _ => exec_readFuse
  have answer : ∀ sel, fuseSelect cmd1 cmd2 = sel → fuseSelect cmd1 cmd2 = sel ∧
      (s.cfg.portKind = .reference → s.port.fuseAnswer s.cfg (fuseSelect cmd1 cmd2) = s.port.fuses.byte sel) :=
    fun _ selected => ⟨selected, fun hk => by rw [fuseAnswer_of_reference hk, selected]⟩
  refine ⟨t, s.port.fuseAnswer s.cfg (fuseSelect cmd1 cmd2), fuseSelect cmd1 cmd2, outcome, replied, session, asked,
    fun h1 h2 => ?_, fun h1 h2 => ?_, fun h1 => ?_⟩
  · exact answer .ext (by rw [h1, h2, fuseSelect_ext])
  · exact answer .low (by rw [h1, fuseSelect_low h2])
  · exact answer .high (fuseSelect_high h1 cmd2)

theorem exec_readLock {s s1 : State} (ok : s.request (.readFuse .lock) = .ok s1) :
    exec .readLockIsp s = reply [STATUS_OK, s.port.fuseAnswer s.cfg .lock, STATUS_OK] s1 := by
  simp only [exec, execReadLockIsp, ok]

/-- Settles O52: the one request is `ReadFuse(LOCK)`, and the reply carries its answer. -/
theorem readLockReplies : Obligations.ReadLockReplies := by
  intro s hc
  obtain ⟨t, outcome, replied, session, asked⟩ :=
    read_then_reply hc (r := .readFuse .lock) trivial rfl fun _ => exec_readLock
  exact ⟨t, s.port.fuseAnswer s.cfg .lock, outcome, replied, session, asked,
    fun hk => fuseAnswer_of_reference hk s.port .lock⟩

/-! ### Lock programming (43_device R203; 20_memory R59, R77) -/

theorem exec_programLock {s s1 : State} {b : Byte} (ok : s.request (.programLock (lockRequest s.cfg b)) = .ok s1) :
    exec (.programLockIsp (some b)) s = reply [STATUS_OK, STATUS_OK] s1 := by
  simp only [exec, execProgramLockIsp, ok]

/-- A lock request clears, on the reference port, the lock bits its mask holds and no other. -/
theorem Port.perform_programLock {c : Config} {p q : Port} {mask : Byte} (hk : c.portKind = .reference)
    (h : p.perform c (.programLock mask) = .ok q) : q.fuses.lock = p.fuses.lock &&& ~~~mask := by
  rw [Port.perform_reference_effect hk h]; rfl

/-- The bits PROGRAM_LOCK_ISP leaves set: those set before that are set in the byte or outside the mask. -/
theorem getLsbD_and_not_lockRequest (c : Config) (lock b : Byte) {k : Nat} (hk : k < 8) :
    (lock &&& ~~~lockRequest c b).getLsbD k = (lock.getLsbD k && (b.getLsbD k || !c.lockMask.getLsbD k)) := by
  simp [lockRequest, hk]

/-- Settles O53: the one request is `ProgramLock` of the complemented byte under the mask, which writes the lock byte
alone. -/
theorem programLockClearsBits : Obligations.ProgramLockClearsBits := by
  intro s b hc
  obtain ⟨t, outcome, replied, session, performed⟩ :=
    request_then_reply hc (r := .programLock (lockRequest s.cfg b)) rfl fun _ => exec_programLock
  obtain ⟨low, high, ext⟩ := Port.perform_lockOnly performed
  refine ⟨t, outcome, replied, session, Port.perform_log performed, fun hk k hk8 => ?_, low, high, ext,
    Port.perform_flash performed (by simp) (by simp), Port.perform_eeprom performed (by simp),
    Port.perform_sig performed⟩
  rw [Port.perform_programLock hk performed, getLsbD_and_not_lockRequest _ _ _ hk8]

/-! ### SPI_MULTI (43_device R204; 30_encoding R94, R95) -/

theorem exec_spiMulti_readSignature {s s1 : State} {i : Byte}
    (ok : s.request (.readSig (signatureIndex i)) = .ok s1) :
    exec (.spiMulti (some SPI_READ_SIGNATURE) (some i)) s =
      reply (spiReply SPI_READ_SIGNATURE (s.port.sigAnswer s.cfg (signatureIndex i))) s1 := by
  simp only [exec, execSpiMulti, if_pos, ok]

theorem exec_spiMulti_other {tx0 : Byte} (h : tx0 ≠ SPI_READ_SIGNATURE) (index : Option Byte) (s : State) :
    exec (.spiMulti (some tx0) index) s = reply (spiReply tx0 s.cfg.spiDummy) s := if_neg h

/-- Settles O54: instruction 0x30 makes the one request of READ_SIGNATURE_ISP, any other none. -/
theorem spiMultiReplies : Obligations.SpiMultiReplies := by
  refine fun s hc => ⟨fun i => ?_, fun tx0 index other => ?_⟩
  · obtain ⟨t, outcome, replied, session, asked⟩ :=
      read_then_reply hc (r := .readSig (signatureIndex i)) trivial rfl fun _ => exec_spiMulti_readSignature
    exact ⟨t, s.port.sigAnswer s.cfg (signatureIndex i), signatureIndex i, outcome, replied, session, asked,
      signatureIndex_val i, fun hk => sigAnswer_of_reference hk s.port i⟩
  · rw [exec_spiMulti_other other]
    exact reply_only hc (spiReply tx0 s.cfg.spiDummy)

end Sys2Proof.Machine
end

section
/-! SUPPORT. The reply encoder: every command that completes sends one reply frame, and the parser takes that frame for the
payload it carries (44_reply_encoder R220 to R228). -/

namespace Sys2Proof.Machine

@[simp] theorem encodeFrame_length (seq : Byte) (payload : List Byte) :
    (encodeFrame seq payload).length = payload.length + 6 :=
  frameBytes_length ..

/-- A command that completes has answered with the code in BUF and its reply bytes (44_reply_encoder R220). -/
theorem exec_replied {i : Instr} {s t : State} {code : Byte} (hc : s.buf.head? = some code) (h : exec i s = .next t) :
    ∃ bs, Replied s t (code :: bs) ∧ ReplyBytes s.cfg bs := by
  obtain ⟨s1, bs, work, hreply, hbs⟩ := exec_next h
  obtain ⟨t', outcome, replied, -⟩ := reply_replied work.prepared hc bs
  obtain rfl : t' = t := (reply_eq_next outcome).trans (reply_eq_next hreply).symm
  exact ⟨bs, replied, hbs⟩

/-- A reply within RLEN's 16 bits stands in BUF[0..RLEN-1]. -/
theorem Replied.buf_take_rlen {s t : State} {payload : List Byte} (h : Replied s t payload)
    (short : payload.length < 2 ^ 16) : t.buf.take t.rlen.toNat = payload := by
  rw [h.rlen, BitVec.toNat_ofNat, Nat.mod_eq_of_lt short, h.bufFront]

/-- Settles O26: the one reply of `exec_replied` keeps the command code and has a status. -/
theorem everyCommandEndsInOneReply : Obligations.EveryCommandEndsInOneReply := by
  intro i s t hbuf h
  have hc := List.head?_eq_some_head hbuf
  obtain ⟨bs, replied, hbs⟩ := exec_replied hc h
  exact ⟨_, replied, hc.symm, Nat.succ_le_succ hbs.length_pos⟩

/-- Settles O27: the bytes sent are `encodeFrame` of the reply, and O16 speaks of every such frame. -/
theorem replyIsAcceptedByParser : Obligations.ReplyIsAcceptedByParser := by
  intro i s t u sent legal hcap hbuf h htx hcfg buffer hc hseq hx
  obtain ⟨bs, replied, hbs⟩ := exec_replied (List.head?_eq_some_head hbuf) h
  generalize hp : s.buf.head hbuf :: bs = payload at replied
  have length : payload.length = bs.length + 1 := hp ▸ rfl
  have room : payload.length ≤ s.cfg.cap := by
    have := hbs.length_le (legal_of _ legal)
    omega
  have short : payload.length < 2 ^ 16 := by omega
  have frame : sent = encodeFrame s.seq payload :=
    List.append_cancel_left (htx.symm.trans (replied.tx_encodeFrame short))
  obtain ⟨v, run, ready, -, -, received, -⟩ := validFrameReachesFrameReady u s.seq payload [] (hcfg ▸ legal) buffer hc
    hseq (by omega) (by rw [hcfg]; exact le_min room (by omega)) (by rw [hx, frame, List.append_nil])
  rw [frame, encodeFrame_length, replied.buf_take_rlen short]
  exact ⟨v, run, ready, received⟩

end Sys2Proof.Machine
end
